-- ==== Sys2Proof/Word.lean ====
section
/-! DEFINITION. The two word types of the machine: a byte, and the 16-bit word of X, Y, SP, PC and of every address (rules
R4, R21, R23, R24, R25, R40). -/

namespace Sys2Proof

/-- The 8-bit unit of memory and of the accumulators (R4, R21). -/
abbrev Byte := BitVec 8

/-- The 16-bit unit of addresses, index registers, SP and PC (R4, R23 to R25). -/
abbrev Word := BitVec 16

end Sys2Proof
end

