-- ==== Sys2Proof/Syntax.lean ====
section
/-! DEFINITION. The instructions: one constructor of `Instr` per row of `spec/opcode_table.json` (52 rows), and the operand
forms of `30_encoding.md` section 5. -/

namespace Sys2Proof

/-- The base register of an indexed form, field `rr` of the postbyte (R75). -/
inductive BaseReg where
  | x
  | y
  | sp
  | pc
  deriving DecidableEq, Repr

/-- A register that the automatic increment and decrement form adjusts: never PC (R75, R77). -/
inductive AutoReg where
  | x
  | y
  | sp
  deriving DecidableEq, Repr

/-- Bit `p` of the automatic form (R77): adjust before the address is used, or after. -/
inductive AutoWhen where
  | pre
  | post
  deriving DecidableEq, Repr

/-- The 8-bit accumulator that is an offset in the rows `111rr10a` (R78). -/
inductive Acc where
  | a
  | b
  deriving DecidableEq, Repr

/-- The forms that a postbyte selects (R74), each with its own rule. -/
inductive IndexedForm where
  /-- IDX, `rr0nnnnn`: 5-bit signed offset (R76). -/
  | off5 (r : BaseReg) (n : BitVec 5)
  /-- IDX, `rr1pnnnn`: automatic pre/post increment/decrement (R77). -/
  | auto (r : AutoReg) (w : AutoWhen) (n : BitVec 4)
  /-- IDX, `111rr10a`: offset in A or B, unsigned (R78). -/
  | acc (r : BaseReg) (k : Acc)
  /-- IDX, `111rr110`: offset in D (R78). -/
  | accD (r : BaseReg)
  /-- IDX1, `111rr00s ff`: 9-bit signed offset (R79). -/
  | off9 (r : BaseReg) (n : BitVec 9)
  /-- IDX2, `111rr010 ee ff`: 16-bit offset (R80). -/
  | off16 (r : BaseReg) (n : Word)
  /-- [D,IDX], `111rr111`: pointer at base plus D (R81). -/
  | indD (r : BaseReg)
  /-- [IDX2], `111rr011 ee ff`: pointer at base plus a 16-bit offset (R82). -/
  | ind16 (r : BaseReg) (n : Word)
  deriving DecidableEq, Repr

/-- The operands that lie in memory (R72 to R82). An immediate operand is no address and stands in its own constructors. -/
inductive Operand where
  /-- DIR (R72): the byte `dd`. -/
  | dir (d : Byte)
  /-- EXT (R73): the address `hh ll`. -/
  | ext (a : Word)
  /-- The five indexed formats (R74). -/
  | idx (f : IndexedForm)
  deriving DecidableEq, Repr

/-- The ten instructions by name (R3, R64). -/
inductive Mnemonic where
  | ldaa
  | staa
  | stab
  | adda
  | inca
  | clrb
  | decb
  | lsra
  | asra
  | swi
  deriving DecidableEq, Repr

/-- The address modes as the source names them (R60, glossary). -/
inductive AddrMode where
  | inh
  | imm
  | dir
  | ext
  | idx
  | idx1
  | idx2
  | indDIdx
  | indIdx2
  deriving DecidableEq, Repr

/-- The instructions, in the order of `spec/opcode_table.json`, one constructor per row. -/
inductive Instr where
  /-- LDAA (R101): the rows of opcode bytes `86`, `96`, `B6`, `A6`. -/
  | ldaaImm (v : Byte)
  | ldaaDir (d : Byte)
  | ldaaExt (a : Word)
  | ldaaOff5 (r : BaseReg) (n : BitVec 5)
  | ldaaAutoXY (r : AutoReg) (w : AutoWhen) (n : BitVec 4)
  | ldaaAutoSp (w : AutoWhen) (n : BitVec 4)
  | ldaaAcc (r : BaseReg) (k : Acc)
  | ldaaAccD (r : BaseReg)
  | ldaaOff9 (r : BaseReg) (n : BitVec 9)
  | ldaaOff16 (r : BaseReg) (n : Word)
  | ldaaIndD (r : BaseReg)
  | ldaaInd16 (r : BaseReg) (n : Word)
  /-- STAA (R102): the rows of opcode bytes `5A`, `7A`, `6A`. -/
  | staaDir (d : Byte)
  | staaExt (a : Word)
  | staaOff5 (r : BaseReg) (n : BitVec 5)
  | staaAutoXY (r : AutoReg) (w : AutoWhen) (n : BitVec 4)
  | staaAutoSp (w : AutoWhen) (n : BitVec 4)
  | staaAcc (r : BaseReg) (k : Acc)
  | staaAccD (r : BaseReg)
  | staaOff9 (r : BaseReg) (n : BitVec 9)
  | staaOff16 (r : BaseReg) (n : Word)
  | staaIndD (r : BaseReg)
  | staaInd16 (r : BaseReg) (n : Word)
  /-- STAB (R103): the rows of opcode bytes `5B`, `7B`, `6B`. -/
  | stabDir (d : Byte)
  | stabExt (a : Word)
  | stabOff5 (r : BaseReg) (n : BitVec 5)
  | stabAutoXY (r : AutoReg) (w : AutoWhen) (n : BitVec 4)
  | stabAutoSp (w : AutoWhen) (n : BitVec 4)
  | stabAcc (r : BaseReg) (k : Acc)
  | stabAccD (r : BaseReg)
  | stabOff9 (r : BaseReg) (n : BitVec 9)
  | stabOff16 (r : BaseReg) (n : Word)
  | stabIndD (r : BaseReg)
  | stabInd16 (r : BaseReg) (n : Word)
  /-- ADDA (R121): the rows of opcode bytes `8B`, `9B`, `BB`, `AB`. -/
  | addaImm (v : Byte)
  | addaDir (d : Byte)
  | addaExt (a : Word)
  | addaOff5 (r : BaseReg) (n : BitVec 5)
  | addaAutoXY (r : AutoReg) (w : AutoWhen) (n : BitVec 4)
  | addaAutoSp (w : AutoWhen) (n : BitVec 4)
  | addaAcc (r : BaseReg) (k : Acc)
  | addaAccD (r : BaseReg)
  | addaOff9 (r : BaseReg) (n : BitVec 9)
  | addaOff16 (r : BaseReg) (n : Word)
  | addaIndD (r : BaseReg)
  | addaInd16 (r : BaseReg) (n : Word)
  /-- INCA (R122): `42`. -/
  | inca
  /-- CLRB (R123): `C7`. -/
  | clrb
  /-- DECB (R124): `53`. -/
  | decb
  /-- LSRA (R141): `44`. -/
  | lsra
  /-- ASRA (R142): `47`. -/
  | asra
  /-- SWI (R151): `3F`. -/
  | swi
  deriving DecidableEq, Repr

end Sys2Proof
end

