-- ==== Sys2Proof/WellFormed.lean ====
section
/-! DEFINITION. Which terms of `Instr` are instructions. Every field value is legal (R68); the one check is that the table's row
`0r1pnnnn` holds X or Y, SP having a row of its own (`101pnnnn`), so that each instruction is one term. -/

namespace Sys2Proof

/-- The register of a row `0r1pnnnn` is X or Y (R69: "this row has xb[7]=0"). -/
def AutoReg.isXY : AutoReg → Bool
  | .x => true
  | .y => true
  | .sp => false

/-- The term is an instruction of the table. -/
def Instr.wellFormed : Instr → Bool
  | .ldaaImm _ => true
  | .ldaaDir _ => true
  | .ldaaExt _ => true
  | .ldaaOff5 _ _ => true
  | .ldaaAutoXY r _ _ => r.isXY
  | .ldaaAutoSp _ _ => true
  | .ldaaAcc _ _ => true
  | .ldaaAccD _ => true
  | .ldaaOff9 _ _ => true
  | .ldaaOff16 _ _ => true
  | .ldaaIndD _ => true
  | .ldaaInd16 _ _ => true
  | .staaDir _ => true
  | .staaExt _ => true
  | .staaOff5 _ _ => true
  | .staaAutoXY r _ _ => r.isXY
  | .staaAutoSp _ _ => true
  | .staaAcc _ _ => true
  | .staaAccD _ => true
  | .staaOff9 _ _ => true
  | .staaOff16 _ _ => true
  | .staaIndD _ => true
  | .staaInd16 _ _ => true
  | .stabDir _ => true
  | .stabExt _ => true
  | .stabOff5 _ _ => true
  | .stabAutoXY r _ _ => r.isXY
  | .stabAutoSp _ _ => true
  | .stabAcc _ _ => true
  | .stabAccD _ => true
  | .stabOff9 _ _ => true
  | .stabOff16 _ _ => true
  | .stabIndD _ => true
  | .stabInd16 _ _ => true
  | .addaImm _ => true
  | .addaDir _ => true
  | .addaExt _ => true
  | .addaOff5 _ _ => true
  | .addaAutoXY r _ _ => r.isXY
  | .addaAutoSp _ _ => true
  | .addaAcc _ _ => true
  | .addaAccD _ => true
  | .addaOff9 _ _ => true
  | .addaOff16 _ _ => true
  | .addaIndD _ => true
  | .addaInd16 _ _ => true
  | .inca => true
  | .clrb => true
  | .decb => true
  | .lsra => true
  | .asra => true
  | .swi => true

end Sys2Proof
end

