-- ==== Sys2Proof/Decode.lean ====
section
/-! DEFINITION. From bytes to instructions and back (`30_encoding.md`): lengths, the postbyte, the opcode map, a decoder that is
total on any bytes, and the encoder written from the same tables. -/

namespace Sys2Proof

/-! ## Bytes and words -/

/-- A word from its high-order and low-order byte, `hi : lo` (R43, R63). -/
def wordOf (hi lo : Byte) : Word := hi ++ lo

/-- Bits 15 to 8 of a word. -/
def hiByte (w : Word) : Byte := w.extractLsb' 8 8

/-- Bits 7 to 0 of a word. -/
def loByte (w : Word) : Byte := w.extractLsb' 0 8

/-! ## Rows, address modes and lengths -/

/-- LDAA with a memory operand: the row of the table that the operand form selects. -/
def Instr.ldaaMem : Operand → Instr
  | .dir d => .ldaaDir d
  | .ext a => .ldaaExt a
  | .idx (.off5 r n) => .ldaaOff5 r n
  | .idx (.auto .x w n) => .ldaaAutoXY .x w n
  | .idx (.auto .y w n) => .ldaaAutoXY .y w n
  | .idx (.auto .sp w n) => .ldaaAutoSp w n
  | .idx (.acc r k) => .ldaaAcc r k
  | .idx (.accD r) => .ldaaAccD r
  | .idx (.off9 r n) => .ldaaOff9 r n
  | .idx (.off16 r n) => .ldaaOff16 r n
  | .idx (.indD r) => .ldaaIndD r
  | .idx (.ind16 r n) => .ldaaInd16 r n

/-- STAA with a memory operand: the row of the table that the operand form selects. -/
def Instr.staaMem : Operand → Instr
  | .dir d => .staaDir d
  | .ext a => .staaExt a
  | .idx (.off5 r n) => .staaOff5 r n
  | .idx (.auto .x w n) => .staaAutoXY .x w n
  | .idx (.auto .y w n) => .staaAutoXY .y w n
  | .idx (.auto .sp w n) => .staaAutoSp w n
  | .idx (.acc r k) => .staaAcc r k
  | .idx (.accD r) => .staaAccD r
  | .idx (.off9 r n) => .staaOff9 r n
  | .idx (.off16 r n) => .staaOff16 r n
  | .idx (.indD r) => .staaIndD r
  | .idx (.ind16 r n) => .staaInd16 r n

/-- STAB with a memory operand: the row of the table that the operand form selects. -/
def Instr.stabMem : Operand → Instr
  | .dir d => .stabDir d
  | .ext a => .stabExt a
  | .idx (.off5 r n) => .stabOff5 r n
  | .idx (.auto .x w n) => .stabAutoXY .x w n
  | .idx (.auto .y w n) => .stabAutoXY .y w n
  | .idx (.auto .sp w n) => .stabAutoSp w n
  | .idx (.acc r k) => .stabAcc r k
  | .idx (.accD r) => .stabAccD r
  | .idx (.off9 r n) => .stabOff9 r n
  | .idx (.off16 r n) => .stabOff16 r n
  | .idx (.indD r) => .stabIndD r
  | .idx (.ind16 r n) => .stabInd16 r n

/-- ADDA with a memory operand: the row of the table that the operand form selects. -/
def Instr.addaMem : Operand → Instr
  | .dir d => .addaDir d
  | .ext a => .addaExt a
  | .idx (.off5 r n) => .addaOff5 r n
  | .idx (.auto .x w n) => .addaAutoXY .x w n
  | .idx (.auto .y w n) => .addaAutoXY .y w n
  | .idx (.auto .sp w n) => .addaAutoSp w n
  | .idx (.acc r k) => .addaAcc r k
  | .idx (.accD r) => .addaAccD r
  | .idx (.off9 r n) => .addaOff9 r n
  | .idx (.off16 r n) => .addaOff16 r n
  | .idx (.indD r) => .addaIndD r
  | .idx (.ind16 r n) => .addaInd16 r n

/-- The instruction's name. -/
def Instr.mnemonic : Instr → Mnemonic
  | .ldaaImm _ => .ldaa
  | .ldaaDir _ => .ldaa
  | .ldaaExt _ => .ldaa
  | .ldaaOff5 _ _ => .ldaa
  | .ldaaAutoXY _ _ _ => .ldaa
  | .ldaaAutoSp _ _ => .ldaa
  | .ldaaAcc _ _ => .ldaa
  | .ldaaAccD _ => .ldaa
  | .ldaaOff9 _ _ => .ldaa
  | .ldaaOff16 _ _ => .ldaa
  | .ldaaIndD _ => .ldaa
  | .ldaaInd16 _ _ => .ldaa
  | .staaDir _ => .staa
  | .staaExt _ => .staa
  | .staaOff5 _ _ => .staa
  | .staaAutoXY _ _ _ => .staa
  | .staaAutoSp _ _ => .staa
  | .staaAcc _ _ => .staa
  | .staaAccD _ => .staa
  | .staaOff9 _ _ => .staa
  | .staaOff16 _ _ => .staa
  | .staaIndD _ => .staa
  | .staaInd16 _ _ => .staa
  | .stabDir _ => .stab
  | .stabExt _ => .stab
  | .stabOff5 _ _ => .stab
  | .stabAutoXY _ _ _ => .stab
  | .stabAutoSp _ _ => .stab
  | .stabAcc _ _ => .stab
  | .stabAccD _ => .stab
  | .stabOff9 _ _ => .stab
  | .stabOff16 _ _ => .stab
  | .stabIndD _ => .stab
  | .stabInd16 _ _ => .stab
  | .addaImm _ => .adda
  | .addaDir _ => .adda
  | .addaExt _ => .adda
  | .addaOff5 _ _ => .adda
  | .addaAutoXY _ _ _ => .adda
  | .addaAutoSp _ _ => .adda
  | .addaAcc _ _ => .adda
  | .addaAccD _ => .adda
  | .addaOff9 _ _ => .adda
  | .addaOff16 _ _ => .adda
  | .addaIndD _ => .adda
  | .addaInd16 _ _ => .adda
  | .inca => .inca
  | .clrb => .clrb
  | .decb => .decb
  | .lsra => .lsra
  | .asra => .asra
  | .swi => .swi

/-- The address mode of the instruction's row (column `format` of the table). -/
def Instr.addrMode : Instr → AddrMode
  | .ldaaImm _ => .imm
  | .ldaaDir _ => .dir
  | .ldaaExt _ => .ext
  | .ldaaOff5 _ _ => .idx
  | .ldaaAutoXY _ _ _ => .idx
  | .ldaaAutoSp _ _ => .idx
  | .ldaaAcc _ _ => .idx
  | .ldaaAccD _ => .idx
  | .ldaaOff9 _ _ => .idx1
  | .ldaaOff16 _ _ => .idx2
  | .ldaaIndD _ => .indDIdx
  | .ldaaInd16 _ _ => .indIdx2
  | .staaDir _ => .dir
  | .staaExt _ => .ext
  | .staaOff5 _ _ => .idx
  | .staaAutoXY _ _ _ => .idx
  | .staaAutoSp _ _ => .idx
  | .staaAcc _ _ => .idx
  | .staaAccD _ => .idx
  | .staaOff9 _ _ => .idx1
  | .staaOff16 _ _ => .idx2
  | .staaIndD _ => .indDIdx
  | .staaInd16 _ _ => .indIdx2
  | .stabDir _ => .dir
  | .stabExt _ => .ext
  | .stabOff5 _ _ => .idx
  | .stabAutoXY _ _ _ => .idx
  | .stabAutoSp _ _ => .idx
  | .stabAcc _ _ => .idx
  | .stabAccD _ => .idx
  | .stabOff9 _ _ => .idx1
  | .stabOff16 _ _ => .idx2
  | .stabIndD _ => .indDIdx
  | .stabInd16 _ _ => .indIdx2
  | .addaImm _ => .imm
  | .addaDir _ => .dir
  | .addaExt _ => .ext
  | .addaOff5 _ _ => .idx
  | .addaAutoXY _ _ _ => .idx
  | .addaAutoSp _ _ => .idx
  | .addaAcc _ _ => .idx
  | .addaAccD _ => .idx
  | .addaOff9 _ _ => .idx1
  | .addaOff16 _ _ => .idx2
  | .addaIndD _ => .indDIdx
  | .addaInd16 _ _ => .indIdx2
  | .inca => .inh
  | .clrb => .inh
  | .decb => .inh
  | .lsra => .inh
  | .asra => .inh
  | .swi => .inh

/-- The instruction's length in bytes by address mode (R60). -/
def AddrMode.length : AddrMode → Nat
  | .inh => 1
  | .imm => 2
  | .dir => 2
  | .ext => 3
  | .idx => 2
  | .idx1 => 3
  | .idx2 => 4
  | .indDIdx => 2
  | .indIdx2 => 4

/-- The address mode that an operand in memory belongs to. -/
def Operand.addrMode : Operand → AddrMode
  | .dir _ => .dir
  | .ext _ => .ext
  | .idx (.off5 _ _) => .idx
  | .idx (.auto _ _ _) => .idx
  | .idx (.acc _ _) => .idx
  | .idx (.accD _) => .idx
  | .idx (.off9 _ _) => .idx1
  | .idx (.off16 _ _) => .idx2
  | .idx (.indD _) => .indDIdx
  | .idx (.ind16 _ _) => .indIdx2

/-- The length of an instruction with this operand (R60). -/
def Operand.length (o : Operand) : Nat := o.addrMode.length

/-- The instruction's length in bytes (R60). -/
def Instr.length (i : Instr) : Nat := i.addrMode.length

/-! ## The postbyte (R74 to R83) -/

/-- The field `rr` (R75). -/
def BaseReg.code : BaseReg → BitVec 2
  | .x => 0#2
  | .y => 1#2
  | .sp => 2#2
  | .pc => 3#2

/-- The register that a field `rr` names (R75). -/
def BaseReg.ofCode (c : BitVec 2) : BaseReg :=
  match c.toNat with
  | 0 => .x
  | 1 => .y
  | 2 => .sp
  | _ => .pc

/-- The field `rr` of the automatic form (R75, R77). -/
def AutoReg.code : AutoReg → BitVec 2
  | .x => 0#2
  | .y => 1#2
  | .sp => 2#2

/-- Bit `p` of the automatic form (R77): 0 pre, 1 post. -/
def AutoWhen.code : AutoWhen → BitVec 1
  | .pre => 0#1
  | .post => 1#1

/-- What bit `p` names (R77). -/
def AutoWhen.ofBit (p : Bool) : AutoWhen := if p then .post else .pre

/-- Field `a` of the rows `111rr10a`: 0 A, 1 B. -/
def Acc.code : Acc → BitVec 1
  | .a => 0#1
  | .b => 1#1

/-- The postbyte of a form (R74). -/
def IndexedForm.postbyte : IndexedForm → Byte
  | .off5 r n => r.code ++ 0#1 ++ n
  | .auto r w n => r.code ++ 1#1 ++ w.code ++ n
  | .acc r k => 7#3 ++ r.code ++ 2#2 ++ k.code
  | .accD r => 7#3 ++ r.code ++ 6#3
  | .off9 r n => 7#3 ++ r.code ++ 0#2 ++ n.extractLsb' 8 1
  | .off16 r _ => 7#3 ++ r.code ++ 2#3
  | .indD r => 7#3 ++ r.code ++ 7#3
  | .ind16 r _ => 7#3 ++ r.code ++ 3#3

/-- The bytes that follow the postbyte (R79, R80, R82): high-order byte first. -/
def IndexedForm.extension : IndexedForm → List Byte
  | .off5 _ _ => []
  | .auto _ _ _ => []
  | .acc _ _ => []
  | .accD _ => []
  | .off9 _ n => [n.setWidth 8]
  | .off16 _ n => [hiByte n, loByte n]
  | .indD _ => []
  | .ind16 _ n => [hiByte n, loByte n]

/-- What the postbyte says before any extension byte is read: a whole form, or a form that wants one or two more bytes. -/
inductive PostbyteShape where
  | whole (f : IndexedForm)
  | wantsByte (r : BaseReg) (sign : BitVec 1)
  | wantsWord (r : BaseReg) (indirect : Bool)
  deriving DecidableEq, Repr

/-- The patterns `111rr...` (R74, R78 to R82). -/
def shapeOfTop (xb : Byte) : PostbyteShape :=
  let r := BaseReg.ofCode (xb.extractLsb' 3 2)
  match (xb.extractLsb' 0 3).toNat with
  | 0 => .wantsByte r 0#1
  | 1 => .wantsByte r 1#1
  | 2 => .wantsWord r false
  | 3 => .wantsWord r true
  | 4 => .whole (.acc r .a)
  | 5 => .whole (.acc r .b)
  | 6 => .whole (.accD r)
  | _ => .whole (.indD r)

/-- The patterns with bit 5 set: the automatic form for `rr` X, Y, SP, and `111rr...` (R74, R77, R83). -/
def shapeOfBit5 (xb : Byte) : PostbyteShape :=
  let w := AutoWhen.ofBit (xb.getLsbD 4)
  let n := xb.extractLsb' 0 4
  match (xb.extractLsb' 6 2).toNat with
  | 0 => .whole (.auto .x w n)
  | 1 => .whole (.auto .y w n)
  | 2 => .whole (.auto .sp w n)
  | _ => shapeOfTop xb

/-- What a postbyte selects (R74): every one of the 256 values selects exactly one form (R68, R83). -/
def postbyteShape (xb : Byte) : PostbyteShape :=
  if xb.getLsbD 5 then shapeOfBit5 xb
  else .whole (.off5 (BaseReg.ofCode (xb.extractLsb' 6 2)) (xb.extractLsb' 0 5))

/-! ## The decoder -/

/-- Why bytes are no instruction of this spec. -/
inductive DecodeError where
  /-- The opcode byte is not among the twenty of rule R64 (R66, R67, log 15). -/
  | opcodeNotShown (b : Byte)
  /-- The bytes end before the instruction does. -/
  | truncated
  deriving DecidableEq, Repr

/-- How the bytes after an opcode byte are read, and the row they give (R61). -/
inductive OpcodeEntry where
  | inh (i : Instr)
  | imm (row : Byte → Instr)
  | dir (row : Operand → Instr)
  | ext (row : Operand → Instr)
  | indexed (row : Operand → Instr)

/-- The opcode map (R64): twenty bytes, and nothing for the other 236. -/
def opcodeMap (op : Byte) : Option OpcodeEntry :=
  match op.toNat with
  | 0x3F => some (.inh .swi)
  | 0x42 => some (.inh .inca)
  | 0x44 => some (.inh .lsra)
  | 0x47 => some (.inh .asra)
  | 0x53 => some (.inh .decb)
  | 0x5A => some (.dir .staaMem)
  | 0x5B => some (.dir .stabMem)
  | 0x6A => some (.indexed .staaMem)
  | 0x6B => some (.indexed .stabMem)
  | 0x7A => some (.ext .staaMem)
  | 0x7B => some (.ext .stabMem)
  | 0x86 => some (.imm .ldaaImm)
  | 0x8B => some (.imm .addaImm)
  | 0x96 => some (.dir .ldaaMem)
  | 0x9B => some (.dir .addaMem)
  | 0xA6 => some (.indexed .ldaaMem)
  | 0xAB => some (.indexed .addaMem)
  | 0xB6 => some (.ext .ldaaMem)
  | 0xBB => some (.ext .addaMem)
  | 0xC7 => some (.inh .clrb)
  | _ => none

/-- A two-byte value, high-order byte first (R63), read by the reader `rd` at offsets `k` and `k + 1`. -/
def readPair {ε : Type} (rd : Nat → Except ε Byte) (k : Nat) : Except ε Word := do
  let hi ← rd k
  let lo ← rd (k + 1)
  return wordOf hi lo

/-- The indexed form that starts at the postbyte (R62, R74): the extension bytes are read only where the form has them. -/
def readIndexed {ε : Type} (rd : Nat → Except ε Byte) : Except ε IndexedForm := do
  let xb ← rd 1
  match postbyteShape xb with
  | .whole f => return f
  | .wantsByte r s => do
    let ff ← rd 2
    return .off9 r (s ++ ff)
  | .wantsWord r indirect => do
    let n ← readPair rd 2
    return if indirect then .ind16 r n else .off16 r n

/-- The decoder over any source of bytes: `rd k` is byte `k` of the instruction (R61, R84 step 1) or the reason it cannot be
had; `notShown` names the rejection of an opcode byte (R66). It reads the bytes of the instruction and no more. -/
def decodeFrom {ε : Type} (rd : Nat → Except ε Byte) (notShown : Byte → ε) : Except ε Instr := do
  let op ← rd 0
  match opcodeMap op with
  | none => throw (notShown op)
  | some (.inh i) => return i
  | some (.imm row) => do
    let ii ← rd 1
    return row ii
  | some (.dir row) => do
    let dd ← rd 1
    return row (.dir dd)
  | some (.ext row) => do
    let a ← readPair rd 1
    return row (.ext a)
  | some (.indexed row) => do
    let f ← readIndexed rd
    return row (.idx f)

/-- Byte `k` of a list of bytes. -/
def byteOfList (bs : List Byte) (k : Nat) : Except DecodeError Byte :=
  match bs[k]? with
  | some b => .ok b
  | none => .error .truncated

/-- The instruction at the head of a list of bytes; bytes after it are ignored (`Instr.length` says how many it has). -/
def decode (bs : List Byte) : Except DecodeError Instr := decodeFrom (byteOfList bs) .opcodeNotShown

/-! ## The encoder -/

/-- An indexed instruction's bytes (R61): opcode, postbyte, extension. -/
def encodeIndexed (op : Byte) (f : IndexedForm) : List Byte := op :: f.postbyte :: f.extension

/-- The bytes of an instruction in ascending address order (R61, R64, R74). -/
def encode : Instr → List Byte
  | .ldaaImm v => [0x86#8, v]
  | .ldaaDir d => [0x96#8, d]
  | .ldaaExt a => [0xB6#8, hiByte a, loByte a]
  | .ldaaOff5 r n => encodeIndexed 0xA6#8 (.off5 r n)
  | .ldaaAutoXY r w n => encodeIndexed 0xA6#8 (.auto r w n)
  | .ldaaAutoSp w n => encodeIndexed 0xA6#8 (.auto .sp w n)
  | .ldaaAcc r k => encodeIndexed 0xA6#8 (.acc r k)
  | .ldaaAccD r => encodeIndexed 0xA6#8 (.accD r)
  | .ldaaOff9 r n => encodeIndexed 0xA6#8 (.off9 r n)
  | .ldaaOff16 r n => encodeIndexed 0xA6#8 (.off16 r n)
  | .ldaaIndD r => encodeIndexed 0xA6#8 (.indD r)
  | .ldaaInd16 r n => encodeIndexed 0xA6#8 (.ind16 r n)
  | .staaDir d => [0x5A#8, d]
  | .staaExt a => [0x7A#8, hiByte a, loByte a]
  | .staaOff5 r n => encodeIndexed 0x6A#8 (.off5 r n)
  | .staaAutoXY r w n => encodeIndexed 0x6A#8 (.auto r w n)
  | .staaAutoSp w n => encodeIndexed 0x6A#8 (.auto .sp w n)
  | .staaAcc r k => encodeIndexed 0x6A#8 (.acc r k)
  | .staaAccD r => encodeIndexed 0x6A#8 (.accD r)
  | .staaOff9 r n => encodeIndexed 0x6A#8 (.off9 r n)
  | .staaOff16 r n => encodeIndexed 0x6A#8 (.off16 r n)
  | .staaIndD r => encodeIndexed 0x6A#8 (.indD r)
  | .staaInd16 r n => encodeIndexed 0x6A#8 (.ind16 r n)
  | .stabDir d => [0x5B#8, d]
  | .stabExt a => [0x7B#8, hiByte a, loByte a]
  | .stabOff5 r n => encodeIndexed 0x6B#8 (.off5 r n)
  | .stabAutoXY r w n => encodeIndexed 0x6B#8 (.auto r w n)
  | .stabAutoSp w n => encodeIndexed 0x6B#8 (.auto .sp w n)
  | .stabAcc r k => encodeIndexed 0x6B#8 (.acc r k)
  | .stabAccD r => encodeIndexed 0x6B#8 (.accD r)
  | .stabOff9 r n => encodeIndexed 0x6B#8 (.off9 r n)
  | .stabOff16 r n => encodeIndexed 0x6B#8 (.off16 r n)
  | .stabIndD r => encodeIndexed 0x6B#8 (.indD r)
  | .stabInd16 r n => encodeIndexed 0x6B#8 (.ind16 r n)
  | .addaImm v => [0x8B#8, v]
  | .addaDir d => [0x9B#8, d]
  | .addaExt a => [0xBB#8, hiByte a, loByte a]
  | .addaOff5 r n => encodeIndexed 0xAB#8 (.off5 r n)
  | .addaAutoXY r w n => encodeIndexed 0xAB#8 (.auto r w n)
  | .addaAutoSp w n => encodeIndexed 0xAB#8 (.auto .sp w n)
  | .addaAcc r k => encodeIndexed 0xAB#8 (.acc r k)
  | .addaAccD r => encodeIndexed 0xAB#8 (.accD r)
  | .addaOff9 r n => encodeIndexed 0xAB#8 (.off9 r n)
  | .addaOff16 r n => encodeIndexed 0xAB#8 (.off16 r n)
  | .addaIndD r => encodeIndexed 0xAB#8 (.indD r)
  | .addaInd16 r n => encodeIndexed 0xAB#8 (.ind16 r n)
  | .inca => [0x42#8]
  | .clrb => [0xC7#8]
  | .decb => [0x53#8]
  | .lsra => [0x44#8]
  | .asra => [0x47#8]
  | .swi => [0x3F#8]

/-! ## Words as the table numbers their bits (R69, log 27) -/

/-- The opcode byte is one of the four that a postbyte follows (R62). -/
def hasPostbyte (op : Byte) : Bool :=
  match opcodeMap op with
  | some (.indexed _) => true
  | _ => false

/-- Byte `k` (bits `8k + 7` to `8k`) of a number. -/
def byteOfNat (w k : Nat) : Byte := BitVec.ofNat 8 (w >>> (8 * k))

/-- The four bytes, lowest address first, of an instruction whose first `nbits` bits are `w` and whose other bits are 0. A row
with a four-digit mask numbers its first two bytes as ONE 16-bit number, `byte0 : byte1` (R69), so there bits 15 to 8 are the
opcode byte; a row with a two-digit mask numbers byte 0 alone. -/
def tableBytes (nbits w : Nat) : List Byte :=
  let v := w % 2 ^ nbits
  if 16 ≤ nbits && hasPostbyte (byteOfNat v 1) then [byteOfNat v 1, byteOfNat v 0, byteOfNat v 2, byteOfNat v 3]
  else [byteOfNat v 0, byteOfNat v 1, byteOfNat v 2, byteOfNat v 3]

/-- The instruction that the decoder reads from an instruction whose bits are `w`, numbered as `spec/opcode_table.json`
numbers them; none where it refuses. -/
def decodeTableWord (nbits w : Nat) : Option Instr := (decode (tableBytes nbits w)).toOption

end Sys2Proof
end

