-- ==== Sys2Proof/Config.lean ====
section
/-! DEFINITION. What the platform fixes (the parameters of rule R4, as plain data that State carries and no step changes, log
1) and the model's free values (log 2, 19). -/

namespace Sys2Proof

/-- `CPU_VARIANT` (R2, R4): it selects a column of the timing table and nothing else. -/
inductive CpuVariant where
  | hcs12
  | m68hc12
  deriving DecidableEq, Repr

/-- The addresses from `first` to `last`, both included; empty if `last` is below `first`. -/
structure AddrRange where
  first : Word
  last  : Word
  deriving DecidableEq, Repr

/-- What `MEM_MAP` may say of an address (R42, D3): nothing there, a plain read-write byte, a byte that cannot be written, a
location with side effects. DESIGN CHOICE (log 41): an address is exactly one of these, so a location with side effects is never
read-only; the spec does not say whether `MEM_MAP` may make one address both. -/
inductive RegionKind where
  | absent
  | plain
  | readOnly
  | device
  deriving DecidableEq, Repr

/-- One entry of `MEM_MAP`: a range, its kind, and whether its bytes keep their values over a reset (R31). -/
structure Region where
  range       : AddrRange
  kind        : RegionKind
  nonVolatile : Bool
  deriving DecidableEq, Repr

/-- The CCR bit that masks an interrupt request (R161, last column). -/
inductive InterruptMask where
  | maskI
  | maskX
  deriving DecidableEq, Repr

/-- One member of `IRQ_VECTORS` (R161, R166): the address of its two-byte vector and what masks it. -/
structure IrqVector where
  vector   : Word
  maskedBy : InterruptMask
  deriving DecidableEq, Repr

/-- The parameters of rule R4. `IRQ_MODEL` is State's `agenda`, since its choices are used up as the machine runs. -/
structure Platform where
  cpuVariant  : CpuVariant
  swiVector   : Word
  trapVector  : Word
  resetVector : Word
  irqVectors  : List IrqVector
  memMap      : List Region
  codeRegion  : List AddrRange
  haltPc      : Option Word
  deriving DecidableEq, Repr

/-- The defaults of R4, R161, D3, D5. PRESUMED (log 3): the vector addresses. DESIGN CHOICE (log 1): the variant. Where R4
gives no default the parameter is empty: nothing is loaded (`codeRegion`) and no run end is set (`haltPc`). -/
def Platform.default : Platform where
  cpuVariant  := .hcs12
  swiVector   := 0xFFF6#16
  trapVector  := 0xFFF8#16
  resetVector := 0xFFFE#16
  irqVectors  := [⟨0xFFF4#16, .maskX⟩, ⟨0xFFF2#16, .maskI⟩]
  memMap      := []
  codeRegion  := []
  haltPc      := none

/-- The free values (log 19): what a reset during a run leaves in a register of which rule R31 says "unspecified". No body:
nothing can evaluate it, so a claim holds whatever the values are. The argument is State's counter `freeIdx`. -/
opaque Config.freeValue : Nat → Word

/-- What a location with side effects of `MEM_MAP` sees of the machine (R42, R47, U7): a one-byte read of an address, a one-byte
write of a value to one, or a reset. -/
inductive DeviceEvent where
  | read (a : Word)
  | write (a : Word) (v : Byte)
  | reset
  deriving DecidableEq, Repr

/-- What a one-byte read of a location with side effects answers, after the accesses and resets that came before it, latest first:
the platform's, a parameter of the model that the spec leaves open (U7, D3; log 2). No body: a claim holds whatever it is. -/
opaque Config.deviceValue : List DeviceEvent → Word → Byte

end Sys2Proof
end

