-- ==== Sys2Proof/Machine/State.lean ====
section
/-! DEFINITION. The machine's state as plain data, the reasons a step can stop, and the state after reset. -/

namespace Sys2Proof.Machine

/-- Why the machine stops of itself. The architecture defines no access fault and no trap but the exceptions of R160, which are
NEXT states; the spec's `refuse` is `Refusal`. -/
inductive Fault where
  /-- Raised by `boundaryStep`: PC is `HALT_PC` at an instruction boundary, so the run has ended and the state is final (D12).
  Safe: no claim about a further step can be proved. -/
  | halted
  deriving DecidableEq, Repr

/-- The spec's `refuse(reason)`: the model gives the situation no meaning. Every one is safe (it errs toward unprovable). -/
inductive Refusal where
  /-- Raised by a rejected arm of `exec`: the instruction has no meaning yet. Safe. -/
  | notModelled (mnemonic : String)
  /-- Raised by `fetchInstr`: an opcode byte not among the twenty of R64 (R66, D1). Safe. -/
  | opcodeNotShown (b : Byte)
  /-- Raised by `readByte` and `fetch`: a byte that has no value (R42, R31, D7). Safe. -/
  | unwrittenMemory (a : Word)
  /-- Raised by `readByte`, `writeByte` and `fetch`: `MEM_MAP` has nothing there, or the byte cannot be written (R42, D17). Safe. -/
  | unmappedAccess (a : Word)
  /-- Raised by `writeByte`: a store into `CODE_REGION` (R55, D11). Safe. -/
  | storeToCode (a : Word)
  /-- Raised by `fetch`: an instruction byte from outside `CODE_REGION` (R55, D11). Safe. -/
  | fetchOutsideCode (a : Word)
  deriving DecidableEq, Repr

/-- The bits of the CCR (R26). -/
inductive CcrBit where
  | s
  | x
  | h
  | i
  | n
  | z
  | v
  | c
  deriving DecidableEq, Repr

/-- What the platform does at one instruction boundary (R166, R167, R169, D9): nothing, so that the instruction at PC
executes; a request of the k-th member of `IRQ_VECTORS`; reset. -/
inductive Boundary where
  | execute
  | request (k : Nat)
  | reset
  deriving DecidableEq, Repr

/-- Everything the spec gives the machine. D is A:B (R22) and the prefetch queue is not state (R32). -/
structure State where
  /-- Accumulator A (R21). -/
  a : Byte
  /-- Accumulator B (R21). -/
  b : Byte
  /-- Index register X (R23). -/
  x : Word
  /-- Index register Y (R23). -/
  y : Word
  /-- Stack pointer (R24). -/
  sp : Word
  /-- Program counter: between instructions, the address of the next opcode byte (R25). -/
  pc : Word
  /-- Condition code register, bits 7 to 0 S X H I N Z V C (R26). -/
  ccr : Byte
  /-- The bytes that have a value, by rising address (R40, R42); an address not listed has none. -/
  mem : List Host.Cell
  /-- What the locations with side effects have seen, latest first (R42, R47, U7): one entry for each one-byte access to one, in the
  order of the accesses, and one for each reset. No other location makes an entry (log 2). -/
  io : List DeviceEvent
  /-- The parameters of R4; no step changes them. -/
  platform : Platform
  /-- `IRQ_MODEL` with its choices made: what happens at the coming boundaries, soonest first; empty means `execute` for ever
  (R166, R169, D8, D9). -/
  agenda : List Boundary
  /-- The model's own counter: which free value is taken next (log 19). -/
  freeIdx : Nat
  deriving DecidableEq, Repr

/-- Right after reset: S = X = I = 1 (R31, R190). DESIGN CHOICE (log 10): A, B, X, Y, SP and H N Z V C are 0. DESIGN CHOICE (log
11): PC is `$0000`, since the bytes of `RESET_VECTOR` have no value when memory lists nothing. -/
def State.reset : State where
  a := 0x00#8
  b := 0x00#8
  x := 0x0000#16
  y := 0x0000#16
  sp := 0x0000#16
  pc := 0x0000#16
  ccr := 0xD0#8
  mem := []
  io := []
  platform := Platform.default
  agenda := []
  freeIdx := 0

end Sys2Proof.Machine
end

