-- ==== Sys2Proof/Machine/Flags.lean ====
section
/-! DEFINITION. The CCR bit by bit (R26) and what each instruction makes of it (R28). Every function takes the old CCR and
answers the new one, so a bit it does not name is kept. -/

namespace Sys2Proof.Machine

/-- The bit's number in the CCR. PRESUMED (log 5): S is bit 7 and C bit 0 (R26). -/
def CcrBit.index : CcrBit → Nat
  | .s => 7
  | .x => 6
  | .h => 5
  | .i => 4
  | .n => 3
  | .z => 2
  | .v => 1
  | .c => 0

/-- `CCR.k` of a CCR value (R27). -/
def ccrBit (ccr : Byte) (k : CcrBit) : Bool := ccr.getLsbD k.index

/-- `CCR.k <- b`. -/
def ccrPut (ccr : Byte) (k : CcrBit) (b : Bool) : Byte :=
  if b then ccr ||| (1#8 <<< k.index) else ccr &&& ~~~(1#8 <<< k.index)

/-- `CCR.k` of a state. -/
def State.flag (s : State) (k : CcrBit) : Bool := ccrBit s.ccr k

/-- `SetNZ8(r)` (`00_scope.md` section 5.2). -/
def setNZ8 (ccr r : Byte) : Byte := ccrPut (ccrPut ccr .n (r.getLsbD 7)) .z (r == 0x00#8)

/-- LDAA, STAA, STAB: N and Z by the byte moved, V cleared (R100). -/
def moveFlags (ccr r : Byte) : Byte := ccrPut (setNZ8 ccr r) .v false

/-- `CCR.H` of ADDA: `A3•M3 + M3•R3' + R3'•A3` (R121). -/
def addHalfCarry (a m r : Byte) : Bool :=
  (a.getLsbD 3 && m.getLsbD 3) || (m.getLsbD 3 && !r.getLsbD 3) || (!r.getLsbD 3 && a.getLsbD 3)

/-- `CCR.V` of ADDA: `A7•M7•R7' + A7'•M7'•R7` (R121). -/
def addOverflow (a m r : Byte) : Bool :=
  (a.getLsbD 7 && m.getLsbD 7 && !r.getLsbD 7) || (!a.getLsbD 7 && !m.getLsbD 7 && r.getLsbD 7)

/-- `CCR.C` of ADDA: `A7•M7 + M7•R7' + R7'•A7` (R121). -/
def addCarry (a m r : Byte) : Bool :=
  (a.getLsbD 7 && m.getLsbD 7) || (m.getLsbD 7 && !r.getLsbD 7) || (!r.getLsbD 7 && a.getLsbD 7)

/-- ADDA: H, N, Z, V, C from the old A, the operand and the result (R121). -/
def addFlags (ccr a m r : Byte) : Byte :=
  ccrPut (ccrPut (setNZ8 (ccrPut ccr .h (addHalfCarry a m r)) r) .v (addOverflow a m r)) .c (addCarry a m r)

/-- INCA: N, Z by the result, V exactly if the old value was `$7F` (R122). -/
def incFlags (ccr old r : Byte) : Byte := ccrPut (setNZ8 ccr r) .v (old == 0x7F#8)

/-- DECB: N, Z by the result, V exactly if the old value was `$80` (R124). -/
def decFlags (ccr old r : Byte) : Byte := ccrPut (setNZ8 ccr r) .v (old == 0x80#8)

/-- CLRB: N = 0, Z = 1, V = 0, C = 0 (R123). -/
def clrFlags (ccr : Byte) : Byte := ccrPut (ccrPut (ccrPut (ccrPut ccr .n false) .z true) .v false) .c false

/-- LSRA: C the old bit 0, N cleared, Z by the result, V = N xor C after the shift (R141). -/
def lsrFlags (ccr old r : Byte) : Byte :=
  ccrPut (ccrPut (ccrPut (ccrPut ccr .n false) .z (r == 0x00#8)) .v (xor false (old.getLsbD 0))) .c (old.getLsbD 0)

/-- ASRA: C the old bit 0, N and Z by the result, V = N xor C after the shift (R142). -/
def asrFlags (ccr old r : Byte) : Byte :=
  ccrPut (ccrPut (setNZ8 ccr r) .v (xor (r.getLsbD 7) (old.getLsbD 0))) .c (old.getLsbD 0)

end Sys2Proof.Machine
end

