-- ==== Sys2Proof/Machine/Ops.lean ====
section
/-! DEFINITION. The named operations: memory as a canonical list, the platform's map and code region, reads and writes of one
and two bytes, fetching an instruction, the stack, taking an exception, returning from one, and the reset sequence. -/

namespace Sys2Proof.Machine

/-! ## Memory as data -/

/-- What an address that memory does not list reads as: no value (R31, R42; log 13). -/
def Memory.unlisted : Option Byte := none

/-- The byte at an address, if it has a value. -/
def Memory.read (m : List Host.Cell) (a : Nat) : Option Byte :=
  match m with
  | [] => Memory.unlisted
  | (k, v) :: rest => if k = a then some v else Memory.read rest a

/-- Memory with the byte at `a` replaced, the addresses still rising. A stored value is never "no value", so no write removes an
entry. -/
def Memory.write (m : List Host.Cell) (a : Nat) (v : Byte) : List Host.Cell :=
  match m with
  | [] => [(a, v)]
  | (k, w) :: rest =>
    if a < k then (a, v) :: (k, w) :: rest
    else if a = k then (a, v) :: rest
    else (k, w) :: Memory.write rest a v

/-- The canonical form: every address is below `$10000` (R40), they rise strictly, and no entry is what an unlisted address
reads as. -/
def Memory.wf (m : List Host.Cell) : Bool :=
  match m with
  | [] => true
  | (k, v) :: rest =>
    decide (k < 65536) && decide (some v ≠ Memory.unlisted) && rest.all (fun c => decide (k < c.1)) && Memory.wf rest

/-- The value of the byte at an address of the machine, if it has one. -/
def State.byteAt (s : State) (a : Word) : Option Byte := Memory.read s.mem a.toNat

/-! ## The platform's map (R42, R55) -/

/-- The address lies in the range. -/
def rangeHas (r : AddrRange) (a : Word) : Bool := r.first.toNat ≤ a.toNat && a.toNat ≤ r.last.toNat

/-- What `MEM_MAP` says of an address: the first region that holds it decides; outside all of them it is a plain byte (D3). -/
def kindAt (p : Platform) (a : Word) : RegionKind :=
  match p.memMap.find? (fun r => rangeHas r.range a) with
  | some r => r.kind
  | none => .plain

/-- `MEM_MAP` declares the address non-volatile (R31). -/
def keptOverReset (p : Platform) (a : Word) : Bool :=
  match p.memMap.find? (fun r => rangeHas r.range a) with
  | some r => r.nonVolatile
  | none => false

/-- The address is in `CODE_REGION` (R55). -/
def inCode (p : Platform) (a : Word) : Bool := p.codeRegion.any (fun r => rangeHas r a)

/-! ## Reads and writes (R42 to R48) -/

/-- The entry that a one-byte read of `a` makes: one where the location has side effects, else none (R47). -/
def readEvents (p : Platform) (a : Word) : List DeviceEvent :=
  match kindAt p a with
  | .device => [.read a]
  | .absent | .plain | .readOnly => []

/-- The entry that a one-byte write of `v` to `a` makes: one where the location has side effects, else none (R47). -/
def writeEvents (p : Platform) (a : Word) (v : Byte) : List DeviceEvent :=
  match kindAt p a with
  | .device => [.write a v]
  | .absent | .plain | .readOnly => []

/-- Memory after a one-byte write of `v` to `a`: a location with side effects holds no byte of memory (R42, log 2). -/
def memAfter (p : Platform) (m : List Host.Cell) (a : Word) (v : Byte) : List Host.Cell :=
  match kindAt p a with
  | .device => m
  | .absent | .plain | .readOnly => Memory.write m a.toNat v

/-- What a one-byte read of an address would answer (R42): for a location with side effects, the platform's value (log 2). -/
def valueAt (s : State) (a : Word) : Except Refusal Byte :=
  match kindAt s.platform a with
  | .absent => .error (.unmappedAccess a)
  | .device => .ok (Config.deviceValue s.io a)
  | .plain | .readOnly =>
    match s.byteAt a with
    | some v => .ok v
    | none => .error (.unwrittenMemory a)

/-- `MemRead(addr, 1)` (R42): the byte, and the state after its side effect, if the location has one (R47). -/
def readByte (s : State) (a : Word) : Except Refusal (Byte × State) := do
  let v ← valueAt s a
  return (v, { s with io := readEvents s.platform a ++ s.io })

/-- `MemWrite(addr, 1, v)` (R42), refused in `CODE_REGION` (R55). DESIGN CHOICE (log 26): the map is asked first. -/
def writeByte (s : State) (a : Word) (v : Byte) : Except Refusal State :=
  match kindAt s.platform a with
  | .absent | .readOnly => .error (.unmappedAccess a)
  | .plain | .device =>
    if inCode s.platform a then .error (.storeToCode a)
    else .ok { s with mem := memAfter s.platform s.mem a v, io := writeEvents s.platform a v ++ s.io }

/-- `MemRead(addr, 2)`: big-endian, two one-byte reads, the lower address first, the second address modulo 2^16 (R43, R44, R47). -/
def readWord (s : State) (a : Word) : Except Refusal (Word × State) := do
  let (hi, s1) ← readByte s a
  let (lo, s2) ← readByte s1 (a + 1#16)
  return (wordOf hi lo, s2)

/-- `MemWrite(addr, 2, v)`: the high-order byte to the lower address, first (R43, R44, R47). -/
def writeWord (s : State) (a : Word) (v : Word) : Except Refusal State := do
  let s1 ← writeByte s a (hiByte v)
  writeByte s1 (a + 1#16) (loByte v)

/-! ## Fetching an instruction (R49, R55) -/

/-- `Fetch(addr)`: the launch byte of `CODE_REGION` (R55), in the same memory that `MemRead(addr, 1)` reads (R49). DESIGN CHOICE
(log 26): `CODE_REGION` is asked first, so an address that is outside it and also absent or without a value is
`fetchOutsideCode`. DESIGN CHOICE (log 38): in a location with side effects the launch byte is fetched too, and no side
effect follows. -/
def fetch (s : State) (a : Word) : Except Refusal Byte :=
  if inCode s.platform a then
    match kindAt s.platform a with
    | .absent => .error (.unmappedAccess a)
    | .plain | .readOnly | .device =>
      match s.byteAt a with
      | some v => .ok v
      | none => .error (.unwrittenMemory a)
  else .error (.fetchOutsideCode a)

/-- The instruction at PC: its bytes at consecutive addresses modulo 2^16 (R49, R84 step 1), and no byte beyond it. -/
def fetchInstr (s : State) : Except Refusal Instr :=
  decodeFrom (fun k => fetch s (s.pc + BitVec.ofNat 16 k)) .opcodeNotShown

/-- `nextPC`: the address of the byte after the instruction (R25). -/
def nextPc (s : State) (len : Nat) : Word := s.pc + BitVec.ofNat 16 len

/-- The outcome of an operation that answers a state or refuses; a refused instruction has no effect (R84, D18). -/
def toOutcome (r : Except Refusal State) : Host.Outcome State Fault Refusal :=
  match r with
  | .ok s => .next s
  | .error e => .refused e

/-! ## The stack and the exception sequence (R24, R151, R163) -/

/-- `SP <- SP - 2; MemWrite(SP, 2, v)`. -/
def pushWord (s : State) (v : Word) : Except Refusal State :=
  writeWord { s with sp := s.sp - 2#16 } (s.sp - 2#16) v

/-- `SP <- SP - 1; MemWrite(SP, 1, v)`. -/
def pushByte (s : State) (v : Byte) : Except Refusal State :=
  writeByte { s with sp := s.sp - 1#16 } (s.sp - 1#16) v

/-- The nine bytes of the frame: return address, Y, X, B:A, CCR (R152, R163). -/
def pushFrame (s : State) (rtn : Word) : Except Refusal State := do
  let s1 ← pushWord s rtn
  let s2 ← pushWord s1 s.y
  let s3 ← pushWord s2 s.x
  let s4 ← pushWord s3 (wordOf s.b s.a)
  pushByte s4 s.ccr

/-- The exception sequence (R163): the frame, then I set, then PC from the vector. -/
def takeException (s : State) (rtn vec : Word) : Except Refusal State := do
  let s1 ← pushFrame s rtn
  let s2 := { s1 with ccr := ccrPut s1.ccr .i true }
  let (target, s3) ← readWord s2 vec
  return { s3 with pc := target }

/-- A request masked by I waits for I = 0, one masked by X for X = 0 (R161, R166). -/
def requestAllowed (s : State) (v : IrqVector) : Bool :=
  match v.maskedBy with
  | .maskI => !s.flag .i
  | .maskX => !s.flag .x

/-- `HardwareInterrupt(k)` (R166): the return address is that of the instruction that would have executed next. PRESUMED (log
18): an entry by an X-masked member sets X as well (R163). -/
def takeInterrupt (s : State) (v : IrqVector) : Except Refusal State := do
  let t ← takeException s s.pc v.vector
  match v.maskedBy with
  | .maskI => return t
  | .maskX => return { t with ccr := ccrPut t.ccr .x true }

/-- `UnimplementedOpcode` (R165), the sequence for a model that knows an opcode to trap. No step raises it (D1). PRESUMED (log
23): the return address is that of the byte after the two opcode bytes. -/
def takeUnimplementedOpcode (s : State) : Except Refusal State :=
  takeException s (nextPc s 2) s.platform.trapVector

/-- What undoes the exception sequence (R172): CCR, B:A, X, Y and PC from the stack, SP raised by 9, a cleared X bit staying
cleared. PRESUMED (log 24). No instruction of this spec reaches it: its opcode `$0B` is refused (D20). -/
def returnFromException (s : State) : Except Refusal State := do
  let (ccr, s1) ← readByte s s.sp
  let (b, s2) ← readByte s1 (s.sp + 1#16)
  let (a, s3) ← readByte s2 (s.sp + 2#16)
  let (x, s4) ← readWord s3 (s.sp + 3#16)
  let (y, s5) ← readWord s4 (s.sp + 5#16)
  let (pc, s6) ← readWord s5 (s.sp + 7#16)
  return { s6 with
    a := a, b := b, x := x, y := y, pc := pc, sp := s.sp + 9#16,
    ccr := ccrPut ccr .x (ccrBit ccr .x && s.flag .x) }

/-! ## Reset during a run (R167, R190) -/

/-- The CCR after a reset: S = X = I = 1, and H, N, Z, V, C from the free byte `u` (R31, R190). -/
def resetCcr (u : Byte) : Byte := ccrPut (ccrPut (ccrPut u .s true) .x true) .i true

/-- What reset leaves before the vector is read: nothing stacked, A, B, X, Y, SP and five CCR bits free values, memory kept only
where `MEM_MAP` says it is non-volatile (R31, R190, log 19), and the reset seen by the locations with side effects (log 2).
DESIGN CHOICE (log 40): bytes of `CODE_REGION` are no exception, so after a reset a fetch of one that is not declared
non-volatile is refused as `unwrittenMemory`; R31 leaves such memory without a value, R55 lets `Fetch` read the launch bytes,
and the spec does not say which holds after a reset (R167, R191). -/
def resetRegisters (s : State) : State :=
  let n := s.freeIdx
  { s with
    a := (Config.freeValue n).setWidth 8
    b := (Config.freeValue (n + 1)).setWidth 8
    x := Config.freeValue (n + 2)
    y := Config.freeValue (n + 3)
    sp := Config.freeValue (n + 4)
    ccr := resetCcr ((Config.freeValue (n + 5)).setWidth 8)
    mem := s.mem.filter (fun c => keptOverReset s.platform (BitVec.ofNat 16 c.1))
    io := .reset :: s.io
    freeIdx := n + 6 }

/-- The reset sequence (R190): PC from `RESET_VECTOR`. DESIGN CHOICE (log 39): volatile memory loses its bytes before the vector is
read, so a vector that `MEM_MAP` does not declare non-volatile (with the default map, every vector) is refused as
`unwrittenMemory`; R31 and R190 do not order the two. -/
def takeReset (s : State) : Except Refusal State := do
  let s1 := resetRegisters s
  let (target, s2) ← readWord s1 s1.platform.resetVector
  return { s2 with pc := target }

/-! ## Placing an instruction where the next step fetches (log 27) -/

/-- Bytes stored from an address on. -/
def storeBytes (m : List Host.Cell) (a : Word) (bs : List Byte) : List Host.Cell :=
  match bs with
  | [] => m
  | v :: rest => storeBytes (Memory.write m a.toNat v) (a + 1#16) rest

/-- The addresses of `n` bytes from `a` on, each as a range of one address (so that a wrap is no special case). -/
def codeRanges (a : Word) (n : Nat) : List AddrRange :=
  match n with
  | 0 => []
  | k + 1 => ⟨a, a⟩ :: codeRanges (a + 1#16) k

/-- `bs` at PC as loaded code: in memory and in `CODE_REGION`, nothing due at the boundary, PC not the end of the run. -/
def loadAtPc (s : State) (bs : List Byte) : State :=
  { s with
    mem := storeBytes s.mem s.pc bs
    platform := { s.platform with
      codeRegion := codeRanges s.pc bs.length ++ s.platform.codeRegion
      haltPc := if s.platform.haltPc = some s.pc then none else s.platform.haltPc }
    agenda := [] }

end Sys2Proof.Machine
end

