-- ==== Sys2Proof/Machine/Operands.lean ====
section
/-! DEFINITION. Effective addresses and operands (`30_encoding.md` section 5). All address arithmetic is modulo 2^16 (D4). -/

namespace Sys2Proof.Machine

/-- D, the 16-bit value `A : B` (R22). PRESUMED (log 4). -/
def State.d (s : State) : Word := wordOf s.a s.b

/-- `base(rr)` (R75): the register, or for PC the address after an instruction of `len` bytes. PRESUMED (log 9). -/
def baseValue (s : State) (r : BaseReg) (len : Nat) : Word :=
  match r with
  | .x => s.x
  | .y => s.y
  | .sp => s.sp
  | .pc => nextPc s len

/-- The value of a register that the automatic form adjusts (R77). -/
def autoValue (s : State) (r : AutoReg) : Word :=
  match r with
  | .x => s.x
  | .y => s.y
  | .sp => s.sp

/-- The state with such a register replaced (R77). -/
def setAuto (s : State) (r : AutoReg) (v : Word) : State :=
  match r with
  | .x => { s with x := v }
  | .y => { s with y := v }
  | .sp => { s with sp := v }

/-- The adjustment of the automatic form (R77): +1 to +8 for `0000` to `0111`, -8 to -1 for `1000` to `1111`, on 16 bits. -/
def autoDelta (n : BitVec 4) : Word := if n.getLsbD 3 then n.signExtend 16 else n.setWidth 16 + 1#16

/-- The offset in an 8-bit accumulator, unsigned (R78). -/
def accOffset (s : State) (k : Acc) : Word :=
  match k with
  | .a => s.a.setWidth 16
  | .b => s.b.setWidth 16

/-- The effective address of an indexed form, and the state after the automatic form has adjusted its register or the pointer of an
indirect form was read (R76 to R82; R84 step 2). `len` is the instruction's length, for PC as the base. -/
def indexedAddress (s : State) (len : Nat) (f : IndexedForm) : Except Refusal (Word × State) :=
  match f with
  | .off5 r n => .ok (baseValue s r len + n.signExtend 16, s)
  | .auto r .pre n => .ok (autoValue s r + autoDelta n, setAuto s r (autoValue s r + autoDelta n))
  | .auto r .post n => .ok (autoValue s r, setAuto s r (autoValue s r + autoDelta n))
  | .acc r k => .ok (baseValue s r len + accOffset s k, s)
  | .accD r => .ok (baseValue s r len + s.d, s)
  | .off9 r n => .ok (baseValue s r len + n.signExtend 16, s)
  | .off16 r n => .ok (baseValue s r len + n, s)
  | .indD r => readWord s (baseValue s r len + s.d)
  | .ind16 r n => readWord s (baseValue s r len + n)

/-- The effective address of an operand in memory, with the state after the address mode's own effect (R72, R73, R84 step 2).
PRESUMED (log 7): the high byte of a DIR address is `$00`. -/
def effectiveAddress (s : State) (o : Operand) : Except Refusal (Word × State) :=
  match o with
  | .dir d => .ok (d.setWidth 16, s)
  | .ext a => .ok (a, s)
  | .idx f => indexedAddress s o.length f

/-- `opnd` for an operand in memory: `MemRead(EA, 1)`, with the state after the address mode's own effect and the read. -/
def memoryOperand (s : State) (o : Operand) : Except Refusal (Byte × State) := do
  let (ea, s1) ← effectiveAddress s o
  readByte s1 ea

end Sys2Proof.Machine
end

