-- ==== Sys2Proof/Machine/Arithmetic.lean ====
section
/-! DEFINITION. ADDA, INCA, CLRB, DECB (`41_arithmetic.md`): 8-bit arithmetic that wraps modulo 256 (R120). -/

namespace Sys2Proof.Machine

/-- `A <- A + m` with H, N, Z, V, C, then `PC <- nextPC` (R121). `s` is the state after the operand was read. -/
def finishAddA (m : Byte) (s : State) (len : Nat) : State :=
  { s with a := s.a + m, ccr := addFlags s.ccr s.a m (s.a + m), pc := nextPc s len }

/-- ADDA of an operand in memory (R121). -/
def addA (o : Operand) (s : State) : Host.Outcome State Fault Refusal :=
  toOutcome do
    let (m, s1) ← memoryOperand s o
    return finishAddA m s1 o.length

/-- ADDA with an immediate operand (R121, R71). -/
def execAddaImm (v : Byte) (s : State) : Host.Outcome State Fault Refusal := .next (finishAddA v s 2)

/-- ADDA (R121, R72). -/
def execAddaDir (d : Byte) (s : State) : Host.Outcome State Fault Refusal := addA (.dir d) s

/-- ADDA (R121, R73). -/
def execAddaExt (a : Word) (s : State) : Host.Outcome State Fault Refusal := addA (.ext a) s

/-- ADDA (R121, R76). -/
def execAddaOff5 (r : BaseReg) (n : BitVec 5) (s : State) : Host.Outcome State Fault Refusal := addA (.idx (.off5 r n)) s

/-- ADDA (R121, R77). -/
def execAddaAutoXY (r : AutoReg) (w : AutoWhen) (n : BitVec 4) (s : State) : Host.Outcome State Fault Refusal := addA (.idx (.auto r w n)) s

/-- ADDA (R121, R77). -/
def execAddaAutoSp (w : AutoWhen) (n : BitVec 4) (s : State) : Host.Outcome State Fault Refusal := addA (.idx (.auto .sp w n)) s

/-- ADDA (R121, R78). -/
def execAddaAcc (r : BaseReg) (k : Acc) (s : State) : Host.Outcome State Fault Refusal := addA (.idx (.acc r k)) s

/-- ADDA (R121, R78). -/
def execAddaAccD (r : BaseReg) (s : State) : Host.Outcome State Fault Refusal := addA (.idx (.accD r)) s

/-- ADDA (R121, R79). -/
def execAddaOff9 (r : BaseReg) (n : BitVec 9) (s : State) : Host.Outcome State Fault Refusal := addA (.idx (.off9 r n)) s

/-- ADDA (R121, R80). -/
def execAddaOff16 (r : BaseReg) (n : Word) (s : State) : Host.Outcome State Fault Refusal := addA (.idx (.off16 r n)) s

/-- ADDA (R121, R81). -/
def execAddaIndD (r : BaseReg) (s : State) : Host.Outcome State Fault Refusal := addA (.idx (.indD r)) s

/-- ADDA (R121, R82). -/
def execAddaInd16 (r : BaseReg) (n : Word) (s : State) : Host.Outcome State Fault Refusal := addA (.idx (.ind16 r n)) s

/-- INCA (R122). -/
def execInca (s : State) : Host.Outcome State Fault Refusal :=
  .next { s with a := s.a + 1#8, ccr := incFlags s.ccr s.a (s.a + 1#8), pc := nextPc s 1 }

/-- CLRB (R123). -/
def execClrb (s : State) : Host.Outcome State Fault Refusal :=
  .next { s with b := 0x00#8, ccr := clrFlags s.ccr, pc := nextPc s 1 }

/-- DECB (R124). -/
def execDecb (s : State) : Host.Outcome State Fault Refusal :=
  .next { s with b := s.b - 1#8, ccr := decFlags s.ccr s.b (s.b - 1#8), pc := nextPc s 1 }

end Sys2Proof.Machine
end

