-- ==== Sys2Proof/Machine/Interrupt.lean ====
section
/-! DEFINITION. SWI (`43_swi.md`). -/

namespace Sys2Proof.Machine

/-- SWI (R150, R151): the exception sequence, whatever the CCR holds, with the address of the next instruction as the return
address and `SWI_VECTOR` as the vector (R164). -/
def execSwi (s : State) : Host.Outcome State Fault Refusal :=
  toOutcome (takeException s (nextPc s 1) s.platform.swiVector)

end Sys2Proof.Machine
end

