-- ==== Sys2Proof/Machine/LoadStore.lean ====
section
/-! DEFINITION. LDAA, STAA, STAB (`40_load_store.md`). -/

namespace Sys2Proof.Machine

/-- `A <- opnd`, N and Z by it, V cleared, `PC <- nextPC` (R101). `s` is the state after the operand was read. -/
def finishLoadA (m : Byte) (s : State) (len : Nat) : State :=
  { s with a := m, ccr := moveFlags s.ccr m, pc := nextPc s len }

/-- LDAA of an operand in memory (R101). -/
def loadA (o : Operand) (s : State) : Host.Outcome State Fault Refusal :=
  toOutcome do
    let (m, s1) ← memoryOperand s o
    return finishLoadA m s1 o.length

/-- The byte `v` stored at the effective address, N and Z by the byte stored, V cleared, `PC <- nextPC` (R102, R103). -/
def storeAcc (v : Byte) (o : Operand) (s : State) : Host.Outcome State Fault Refusal :=
  toOutcome do
    let (ea, s1) ← effectiveAddress s o
    let s2 ← writeByte s1 ea v
    return { s2 with ccr := moveFlags s2.ccr v, pc := nextPc s2 o.length }

/-- STAA (R102): no address mode changes A. -/
def storeA (o : Operand) (s : State) : Host.Outcome State Fault Refusal := storeAcc s.a o s

/-- STAB (R103): no address mode changes B. -/
def storeB (o : Operand) (s : State) : Host.Outcome State Fault Refusal := storeAcc s.b o s

/-- LDAA with an immediate operand (R101, R71). -/
def execLdaaImm (v : Byte) (s : State) : Host.Outcome State Fault Refusal := .next (finishLoadA v s 2)

/-- LDAA (R101, R72). -/
def execLdaaDir (d : Byte) (s : State) : Host.Outcome State Fault Refusal := loadA (.dir d) s

/-- LDAA (R101, R73). -/
def execLdaaExt (a : Word) (s : State) : Host.Outcome State Fault Refusal := loadA (.ext a) s

/-- LDAA (R101, R76). -/
def execLdaaOff5 (r : BaseReg) (n : BitVec 5) (s : State) : Host.Outcome State Fault Refusal := loadA (.idx (.off5 r n)) s

/-- LDAA (R101, R77). -/
def execLdaaAutoXY (r : AutoReg) (w : AutoWhen) (n : BitVec 4) (s : State) : Host.Outcome State Fault Refusal := loadA (.idx (.auto r w n)) s

/-- LDAA (R101, R77). -/
def execLdaaAutoSp (w : AutoWhen) (n : BitVec 4) (s : State) : Host.Outcome State Fault Refusal := loadA (.idx (.auto .sp w n)) s

/-- LDAA (R101, R78). -/
def execLdaaAcc (r : BaseReg) (k : Acc) (s : State) : Host.Outcome State Fault Refusal := loadA (.idx (.acc r k)) s

/-- LDAA (R101, R78). -/
def execLdaaAccD (r : BaseReg) (s : State) : Host.Outcome State Fault Refusal := loadA (.idx (.accD r)) s

/-- LDAA (R101, R79). -/
def execLdaaOff9 (r : BaseReg) (n : BitVec 9) (s : State) : Host.Outcome State Fault Refusal := loadA (.idx (.off9 r n)) s

/-- LDAA (R101, R80). -/
def execLdaaOff16 (r : BaseReg) (n : Word) (s : State) : Host.Outcome State Fault Refusal := loadA (.idx (.off16 r n)) s

/-- LDAA (R101, R81). -/
def execLdaaIndD (r : BaseReg) (s : State) : Host.Outcome State Fault Refusal := loadA (.idx (.indD r)) s

/-- LDAA (R101, R82). -/
def execLdaaInd16 (r : BaseReg) (n : Word) (s : State) : Host.Outcome State Fault Refusal := loadA (.idx (.ind16 r n)) s

/-- STAA (R102, R72). -/
def execStaaDir (d : Byte) (s : State) : Host.Outcome State Fault Refusal := storeA (.dir d) s

/-- STAA (R102, R73). -/
def execStaaExt (a : Word) (s : State) : Host.Outcome State Fault Refusal := storeA (.ext a) s

/-- STAA (R102, R76). -/
def execStaaOff5 (r : BaseReg) (n : BitVec 5) (s : State) : Host.Outcome State Fault Refusal := storeA (.idx (.off5 r n)) s

/-- STAA (R102, R77). -/
def execStaaAutoXY (r : AutoReg) (w : AutoWhen) (n : BitVec 4) (s : State) : Host.Outcome State Fault Refusal := storeA (.idx (.auto r w n)) s

/-- STAA (R102, R77). -/
def execStaaAutoSp (w : AutoWhen) (n : BitVec 4) (s : State) : Host.Outcome State Fault Refusal := storeA (.idx (.auto .sp w n)) s

/-- STAA (R102, R78). -/
def execStaaAcc (r : BaseReg) (k : Acc) (s : State) : Host.Outcome State Fault Refusal := storeA (.idx (.acc r k)) s

/-- STAA (R102, R78). -/
def execStaaAccD (r : BaseReg) (s : State) : Host.Outcome State Fault Refusal := storeA (.idx (.accD r)) s

/-- STAA (R102, R79). -/
def execStaaOff9 (r : BaseReg) (n : BitVec 9) (s : State) : Host.Outcome State Fault Refusal := storeA (.idx (.off9 r n)) s

/-- STAA (R102, R80). -/
def execStaaOff16 (r : BaseReg) (n : Word) (s : State) : Host.Outcome State Fault Refusal := storeA (.idx (.off16 r n)) s

/-- STAA (R102, R81). -/
def execStaaIndD (r : BaseReg) (s : State) : Host.Outcome State Fault Refusal := storeA (.idx (.indD r)) s

/-- STAA (R102, R82). -/
def execStaaInd16 (r : BaseReg) (n : Word) (s : State) : Host.Outcome State Fault Refusal := storeA (.idx (.ind16 r n)) s

/-- STAB (R103, R72). -/
def execStabDir (d : Byte) (s : State) : Host.Outcome State Fault Refusal := storeB (.dir d) s

/-- STAB (R103, R73). -/
def execStabExt (a : Word) (s : State) : Host.Outcome State Fault Refusal := storeB (.ext a) s

/-- STAB (R103, R76). -/
def execStabOff5 (r : BaseReg) (n : BitVec 5) (s : State) : Host.Outcome State Fault Refusal := storeB (.idx (.off5 r n)) s

/-- STAB (R103, R77). -/
def execStabAutoXY (r : AutoReg) (w : AutoWhen) (n : BitVec 4) (s : State) : Host.Outcome State Fault Refusal := storeB (.idx (.auto r w n)) s

/-- STAB (R103, R77). -/
def execStabAutoSp (w : AutoWhen) (n : BitVec 4) (s : State) : Host.Outcome State Fault Refusal := storeB (.idx (.auto .sp w n)) s

/-- STAB (R103, R78). -/
def execStabAcc (r : BaseReg) (k : Acc) (s : State) : Host.Outcome State Fault Refusal := storeB (.idx (.acc r k)) s

/-- STAB (R103, R78). -/
def execStabAccD (r : BaseReg) (s : State) : Host.Outcome State Fault Refusal := storeB (.idx (.accD r)) s

/-- STAB (R103, R79). -/
def execStabOff9 (r : BaseReg) (n : BitVec 9) (s : State) : Host.Outcome State Fault Refusal := storeB (.idx (.off9 r n)) s

/-- STAB (R103, R80). -/
def execStabOff16 (r : BaseReg) (n : Word) (s : State) : Host.Outcome State Fault Refusal := storeB (.idx (.off16 r n)) s

/-- STAB (R103, R81). -/
def execStabIndD (r : BaseReg) (s : State) : Host.Outcome State Fault Refusal := storeB (.idx (.indD r)) s

/-- STAB (R103, R82). -/
def execStabInd16 (r : BaseReg) (n : Word) (s : State) : Host.Outcome State Fault Refusal := storeB (.idx (.ind16 r n)) s

end Sys2Proof.Machine
end

