-- ==== Sys2Proof/Machine/Shift.lean ====
section
/-! DEFINITION. LSRA, ASRA (`42_shift.md`): one place to the right, from the Description sentences (R140, log 35). -/

namespace Sys2Proof.Machine

/-- `0 : a[7:1]` (R141). -/
def shiftRightLogical (a : Byte) : Byte := 0#1 ++ a.extractLsb' 1 7

/-- `a[7] : a[7:1]` (R142). -/
def shiftRightArithmetic (a : Byte) : Byte := a.extractLsb' 7 1 ++ a.extractLsb' 1 7

/-- LSRA (R141). -/
def execLsra (s : State) : Host.Outcome State Fault Refusal :=
  .next { s with
    a := shiftRightLogical s.a, ccr := lsrFlags s.ccr s.a (shiftRightLogical s.a), pc := nextPc s 1 }

/-- ASRA (R142). -/
def execAsra (s : State) : Host.Outcome State Fault Refusal :=
  .next { s with
    a := shiftRightArithmetic s.a, ccr := asrFlags s.ccr s.a (shiftRightArithmetic s.a), pc := nextPc s 1 }

end Sys2Proof.Machine
end

