-- ==== Sys2Proof/Machine/Dispatch.lean ====
section
/-! DEFINITION. One arm per instruction: each calls its meaning. -/

namespace Sys2Proof.Machine

/-- The instruction at PC is `i`: the state after it (R84 steps 2 to 4). -/
def exec (i : Instr) (s : State) : Host.Outcome State Fault Refusal :=
  match i with
  | .ldaaImm v => Sys2Proof.Machine.execLdaaImm v s
  | .ldaaDir d => Sys2Proof.Machine.execLdaaDir d s
  | .ldaaExt a => Sys2Proof.Machine.execLdaaExt a s
  | .ldaaOff5 r n => Sys2Proof.Machine.execLdaaOff5 r n s
  | .ldaaAutoXY r w n => Sys2Proof.Machine.execLdaaAutoXY r w n s
  | .ldaaAutoSp w n => Sys2Proof.Machine.execLdaaAutoSp w n s
  | .ldaaAcc r k => Sys2Proof.Machine.execLdaaAcc r k s
  | .ldaaAccD r => Sys2Proof.Machine.execLdaaAccD r s
  | .ldaaOff9 r n => Sys2Proof.Machine.execLdaaOff9 r n s
  | .ldaaOff16 r n => Sys2Proof.Machine.execLdaaOff16 r n s
  | .ldaaIndD r => Sys2Proof.Machine.execLdaaIndD r s
  | .ldaaInd16 r n => Sys2Proof.Machine.execLdaaInd16 r n s
  | .staaDir d => Sys2Proof.Machine.execStaaDir d s
  | .staaExt a => Sys2Proof.Machine.execStaaExt a s
  | .staaOff5 r n => Sys2Proof.Machine.execStaaOff5 r n s
  | .staaAutoXY r w n => Sys2Proof.Machine.execStaaAutoXY r w n s
  | .staaAutoSp w n => Sys2Proof.Machine.execStaaAutoSp w n s
  | .staaAcc r k => Sys2Proof.Machine.execStaaAcc r k s
  | .staaAccD r => Sys2Proof.Machine.execStaaAccD r s
  | .staaOff9 r n => Sys2Proof.Machine.execStaaOff9 r n s
  | .staaOff16 r n => Sys2Proof.Machine.execStaaOff16 r n s
  | .staaIndD r => Sys2Proof.Machine.execStaaIndD r s
  | .staaInd16 r n => Sys2Proof.Machine.execStaaInd16 r n s
  | .stabDir d => Sys2Proof.Machine.execStabDir d s
  | .stabExt a => Sys2Proof.Machine.execStabExt a s
  | .stabOff5 r n => Sys2Proof.Machine.execStabOff5 r n s
  | .stabAutoXY r w n => Sys2Proof.Machine.execStabAutoXY r w n s
  | .stabAutoSp w n => Sys2Proof.Machine.execStabAutoSp w n s
  | .stabAcc r k => Sys2Proof.Machine.execStabAcc r k s
  | .stabAccD r => Sys2Proof.Machine.execStabAccD r s
  | .stabOff9 r n => Sys2Proof.Machine.execStabOff9 r n s
  | .stabOff16 r n => Sys2Proof.Machine.execStabOff16 r n s
  | .stabIndD r => Sys2Proof.Machine.execStabIndD r s
  | .stabInd16 r n => Sys2Proof.Machine.execStabInd16 r n s
  | .addaImm v => Sys2Proof.Machine.execAddaImm v s
  | .addaDir d => Sys2Proof.Machine.execAddaDir d s
  | .addaExt a => Sys2Proof.Machine.execAddaExt a s
  | .addaOff5 r n => Sys2Proof.Machine.execAddaOff5 r n s
  | .addaAutoXY r w n => Sys2Proof.Machine.execAddaAutoXY r w n s
  | .addaAutoSp w n => Sys2Proof.Machine.execAddaAutoSp w n s
  | .addaAcc r k => Sys2Proof.Machine.execAddaAcc r k s
  | .addaAccD r => Sys2Proof.Machine.execAddaAccD r s
  | .addaOff9 r n => Sys2Proof.Machine.execAddaOff9 r n s
  | .addaOff16 r n => Sys2Proof.Machine.execAddaOff16 r n s
  | .addaIndD r => Sys2Proof.Machine.execAddaIndD r s
  | .addaInd16 r n => Sys2Proof.Machine.execAddaInd16 r n s
  | .inca => Sys2Proof.Machine.execInca s
  | .clrb => Sys2Proof.Machine.execClrb s
  | .decb => Sys2Proof.Machine.execDecb s
  | .lsra => Sys2Proof.Machine.execLsra s
  | .asra => Sys2Proof.Machine.execAsra s
  | .swi => Sys2Proof.Machine.execSwi s

end Sys2Proof.Machine
end

