-- ==== Sys2Proof/Machine/Cycle.lean ====
section
/-! DEFINITION. What happens at one instruction boundary (R166 to R169, D9, D12): the run ends, reset, an interrupt, or the
instruction at PC. -/

namespace Sys2Proof.Machine

/-- Fetch, decode, execute (R84). -/
def runInstruction (s : State) : Host.Outcome State Fault Refusal :=
  match fetchInstr s with
  | .ok i => exec i s
  | .error r => .refused r

/-- A request of the k-th member of `IRQ_VECTORS` is offered (R166): taken if the member exists and its mask bit is clear; else
the instruction at PC executes. -/
def offerRequest (s : State) (k : Nat) : Host.Outcome State Fault Refusal :=
  match s.platform.irqVectors[k]? with
  | none => runInstruction s
  | some v => if requestAllowed s v then toOutcome (takeInterrupt s v) else runInstruction s

/-- One boundary: the end of the run is tested first (D12), then the platform's choice (R169) is followed. -/
def boundaryStep (s : State) : Host.Outcome State Fault Refusal :=
  if s.platform.haltPc = some s.pc then .fault .halted
  else
    match s.agenda with
    | [] => runInstruction s
    | .execute :: rest => runInstruction { s with agenda := rest }
    | .request k :: rest => offerRequest { s with agenda := rest } k
    | .reset :: rest => toOutcome (takeReset { s with agenda := rest })

end Sys2Proof.Machine
end

