-- ==== Sys2Proof/Machine/Step.lean ====
section
/-! DEFINITION. One step of the machine, and a state that is about to run a given instruction. -/

namespace Sys2Proof.Machine

/-- One step: one instruction, one exception entry or one reset sequence (R180). -/
def step (s : State) : Host.Outcome State Fault Refusal := boundaryStep s

/-- `s` with the instruction whose bits are `w` (as the table numbers them) loaded where `step` fetches next (log 27). -/
def State.withFetchWord (s : State) (nbits w : Nat) : State := loadAtPc s (tableBytes nbits w)

end Sys2Proof.Machine
end

