-- ==== Sys2Proof/Machine/Assembly.lean ====
section
/-! DEFINITION. Assembler text (R90 to R94): how an instruction is written and read, the spellings of the first mnemonic (R91), and
the tools' choice among equivalent encodings (R93). No step reads any of it. PRESUMED (log 28). -/

namespace Sys2Proof.Machine

/-- The mnemonic as this spec spells it (R91, D19, log 37). -/
def mnemonicText (m : Mnemonic) : String :=
  match m with
  | .ldaa => "LDAA"
  | .staa => "STAA"
  | .stab => "STAB"
  | .adda => "ADDA"
  | .inca => "INCA"
  | .clrb => "CLRB"
  | .decb => "DECB"
  | .lsra => "LSRA"
  | .asra => "ASRA"
  | .swi => "SWI"

/-- The spellings a transcriber of source text accepts (R91): three for the first instruction, one for each other. -/
def acceptedSpellings (m : Mnemonic) : List String :=
  match m with
  | .ldaa => ["LDAA", "LDA A", "LDA"]
  | other => [mnemonicText other]

/-- The base register in an operand (R92). -/
def baseText (r : BaseReg) : String :=
  match r with
  | .x => "X"
  | .y => "Y"
  | .sp => "SP"
  | .pc => "PC"

/-- The register of the automatic form in an operand (R92). -/
def autoText (r : AutoReg) : String :=
  match r with
  | .x => "X"
  | .y => "Y"
  | .sp => "SP"

/-- A number in decimal (R92). -/
def decimal (n : Int) : String := toString n

/-- The amount of the automatic form, 1 to 8 (R77, R92). -/
def autoAmount (n : BitVec 4) : Nat := if n.getLsbD 3 then 16 - n.toNat else n.toNat + 1

/-- `n,-r`, `n,+r`, `n,r-`, `n,r+` (R92). -/
def autoOperandText (r : AutoReg) (w : AutoWhen) (n : BitVec 4) : String :=
  let sign := if n.getLsbD 3 then "-" else "+"
  match w with
  | .pre => toString (autoAmount n) ++ "," ++ sign ++ autoText r
  | .post => toString (autoAmount n) ++ "," ++ autoText r ++ sign

/-- An indexed operand (R92). -/
def indexedText (f : IndexedForm) : String :=
  match f with
  | .off5 r n => decimal n.toInt ++ "," ++ baseText r
  | .auto r w n => autoOperandText r w n
  | .acc r .a => "A," ++ baseText r
  | .acc r .b => "B," ++ baseText r
  | .accD r => "D," ++ baseText r
  | .off9 r n => decimal n.toInt ++ "," ++ baseText r
  | .off16 r n => decimal n.toNat ++ "," ++ baseText r
  | .indD r => "[D," ++ baseText r ++ "]"
  | .ind16 r n => "[" ++ decimal n.toNat ++ "," ++ baseText r ++ "]"

/-- An operand in memory (R90). -/
def operandText (o : Operand) : String :=
  match o with
  | .dir d => decimal d.toNat
  | .ext a => decimal a.toNat
  | .idx f => indexedText f

/-- A source line with an operand in memory (R90). -/
def lineOf (m : Mnemonic) (o : Operand) : String := mnemonicText m ++ " " ++ operandText o

/-- A source line with an immediate operand (R90, R71). -/
def immediateLine (m : Mnemonic) (v : Byte) : String := mnemonicText m ++ " #" ++ decimal v.toNat

/-- The three encodings of a plain constant offset (R68, R93). -/
inductive OffsetEncoding where
  | fiveBit
  | nineBit
  | sixteenBit
  deriving DecidableEq, Repr

/-- The shortest encoding of a constant offset (R93): IDX for -16 to +15, IDX1 for -256 to +255, IDX2 for anything else. -/
def chooseOffset (n : Int) : OffsetEncoding :=
  if -16 ≤ n ∧ n ≤ 15 then .fiveBit
  else if -256 ≤ n ∧ n ≤ 255 then .nineBit
  else .sixteenBit

/-- The indexed form the tools choose for the offset `n` (R93). -/
def chosenForm (r : BaseReg) (n : Int) : IndexedForm :=
  match chooseOffset n with
  | .fiveBit => .off5 r (BitVec.ofInt 5 n)
  | .nineBit => .off9 r (BitVec.ofInt 9 n)
  | .sixteenBit => .off16 r (BitVec.ofInt 16 n)

/-- The operand the tools choose for a plain address (R93): DIR in `$0000` to `$00FF`, EXT otherwise. -/
def chosenAddress (a : Word) : Operand := if a.toNat < 256 then .dir (a.setWidth 8) else .ext a

/-- The source line of an instruction (R90, R92). -/
def sourceLine (i : Instr) : String :=
  match i with
  | .ldaaImm v => immediateLine .ldaa v
  | .ldaaDir d => lineOf .ldaa (.dir d)
  | .ldaaExt a => lineOf .ldaa (.ext a)
  | .ldaaOff5 r n => lineOf .ldaa (.idx (.off5 r n))
  | .ldaaAutoXY r w n => lineOf .ldaa (.idx (.auto r w n))
  | .ldaaAutoSp w n => lineOf .ldaa (.idx (.auto .sp w n))
  | .ldaaAcc r k => lineOf .ldaa (.idx (.acc r k))
  | .ldaaAccD r => lineOf .ldaa (.idx (.accD r))
  | .ldaaOff9 r n => lineOf .ldaa (.idx (.off9 r n))
  | .ldaaOff16 r n => lineOf .ldaa (.idx (.off16 r n))
  | .ldaaIndD r => lineOf .ldaa (.idx (.indD r))
  | .ldaaInd16 r n => lineOf .ldaa (.idx (.ind16 r n))
  | .staaDir d => lineOf .staa (.dir d)
  | .staaExt a => lineOf .staa (.ext a)
  | .staaOff5 r n => lineOf .staa (.idx (.off5 r n))
  | .staaAutoXY r w n => lineOf .staa (.idx (.auto r w n))
  | .staaAutoSp w n => lineOf .staa (.idx (.auto .sp w n))
  | .staaAcc r k => lineOf .staa (.idx (.acc r k))
  | .staaAccD r => lineOf .staa (.idx (.accD r))
  | .staaOff9 r n => lineOf .staa (.idx (.off9 r n))
  | .staaOff16 r n => lineOf .staa (.idx (.off16 r n))
  | .staaIndD r => lineOf .staa (.idx (.indD r))
  | .staaInd16 r n => lineOf .staa (.idx (.ind16 r n))
  | .stabDir d => lineOf .stab (.dir d)
  | .stabExt a => lineOf .stab (.ext a)
  | .stabOff5 r n => lineOf .stab (.idx (.off5 r n))
  | .stabAutoXY r w n => lineOf .stab (.idx (.auto r w n))
  | .stabAutoSp w n => lineOf .stab (.idx (.auto .sp w n))
  | .stabAcc r k => lineOf .stab (.idx (.acc r k))
  | .stabAccD r => lineOf .stab (.idx (.accD r))
  | .stabOff9 r n => lineOf .stab (.idx (.off9 r n))
  | .stabOff16 r n => lineOf .stab (.idx (.off16 r n))
  | .stabIndD r => lineOf .stab (.idx (.indD r))
  | .stabInd16 r n => lineOf .stab (.idx (.ind16 r n))
  | .addaImm v => immediateLine .adda v
  | .addaDir d => lineOf .adda (.dir d)
  | .addaExt a => lineOf .adda (.ext a)
  | .addaOff5 r n => lineOf .adda (.idx (.off5 r n))
  | .addaAutoXY r w n => lineOf .adda (.idx (.auto r w n))
  | .addaAutoSp w n => lineOf .adda (.idx (.auto .sp w n))
  | .addaAcc r k => lineOf .adda (.idx (.acc r k))
  | .addaAccD r => lineOf .adda (.idx (.accD r))
  | .addaOff9 r n => lineOf .adda (.idx (.off9 r n))
  | .addaOff16 r n => lineOf .adda (.idx (.off16 r n))
  | .addaIndD r => lineOf .adda (.idx (.indD r))
  | .addaInd16 r n => lineOf .adda (.idx (.ind16 r n))
  | .inca => mnemonicText .inca
  | .clrb => mnemonicText .clrb
  | .decb => mnemonicText .decb
  | .lsra => mnemonicText .lsra
  | .asra => mnemonicText .asra
  | .swi => mnemonicText .swi

/-! ## Reading a source line (R90 to R93) -/

/-- What an operand says before the tools choose its encoding (R90, R92). -/
inductive SourceOperand where
  /-- INH: nothing is written. -/
  | nothing
  /-- `#n`. -/
  | immediate (n : Int)
  /-- A plain address. -/
  | address (n : Int)
  /-- `n,r`, and `,r` for 0. -/
  | offset (n : Int) (r : BaseReg)
  /-- `n,-r`, `n,+r`, `n,r-`, `n,r+`; `up` is the sign `+`. -/
  | auto (r : AutoReg) (w : AutoWhen) (up : Bool) (n : Int)
  /-- `A,r` and `B,r`. -/
  | acc (k : Acc) (r : BaseReg)
  /-- `D,r`. -/
  | accD (r : BaseReg)
  /-- `[D,r]`. -/
  | indD (r : BaseReg)
  /-- `[n,r]`. -/
  | indirect (n : Int) (r : BaseReg)
  deriving DecidableEq, Repr

/-- The value of a digit in base 10 or 16; letters are capitals here. -/
def digitValue (base : Nat) (c : Char) : Option Nat :=
  let v := if '0' ≤ c ∧ c ≤ '9' then c.toNat - '0'.toNat else if 'A' ≤ c ∧ c ≤ 'F' then c.toNat - 'A'.toNat + 10 else base
  if v < base then some v else none

/-- Digits after a value already read. -/
def readDigits (base acc : Nat) (cs : List Char) : Option Nat :=
  match cs with
  | [] => some acc
  | c :: rest =>
    match digitValue base c with
    | some v => readDigits base (acc * base + v) rest
    | none => none

/-- A number without a sign: decimal, or hexadecimal after `$` (R92). -/
def readNat (cs : List Char) : Option Nat :=
  match cs with
  | [] => none
  | '$' :: [] => none
  | '$' :: rest => readDigits 16 0 rest
  | _ => readDigits 10 0 cs

/-- A number, with or without a minus sign (R92). -/
def readInt (cs : List Char) : Option Int :=
  match cs with
  | '-' :: rest => (readNat rest).map (fun n => -(n : Int))
  | _ => (readNat cs).map (fun n => (n : Int))

/-- A base register's name (R92). -/
def readBase (cs : List Char) : Option BaseReg :=
  match cs with
  | ['X'] => some .x
  | ['Y'] => some .y
  | ['S', 'P'] => some .sp
  | ['P', 'C'] => some .pc
  | _ => none

/-- The name of a register of the automatic form (R92). -/
def readAutoReg (cs : List Char) : Option AutoReg :=
  match cs with
  | ['X'] => some .x
  | ['Y'] => some .y
  | ['S', 'P'] => some .sp
  | _ => none

/-- `-r`, `+r`, `r-`, `r+`: the register, when it is adjusted, and whether the sign is `+` (R92). -/
def readAuto (cs : List Char) : Option (AutoReg × AutoWhen × Bool) :=
  match cs with
  | '+' :: rest => (readAutoReg rest).map (fun r => (r, .pre, true))
  | '-' :: rest => (readAutoReg rest).map (fun r => (r, .pre, false))
  | _ =>
    match cs.reverse with
    | '+' :: rest => (readAutoReg rest.reverse).map (fun r => (r, .post, true))
    | '-' :: rest => (readAutoReg rest.reverse).map (fun r => (r, .post, false))
    | _ => none

/-- The text before the first comma and the text after it, if there is a comma. -/
def splitComma (cs : List Char) : List Char × Option (List Char) :=
  match cs with
  | [] => ([], none)
  | ',' :: rest => ([], some rest)
  | c :: rest => (c :: (splitComma rest).1, (splitComma rest).2)

/-- The two parts of an indexed operand: what stands before the comma, and after it (R92). -/
def readIndexedText (l r : List Char) : Option SourceOperand :=
  match l, readBase r with
  | ['A'], some b => some (.acc .a b)
  | ['B'], some b => some (.acc .b b)
  | ['D'], some b => some (.accD b)
  | [], some b => some (.offset 0 b)
  | _, some b => (readInt l).map (fun n => .offset n b)
  | _, none =>
    match readAuto r, readInt l with
    | some (q, w, up), some n => if 1 ≤ n ∧ n ≤ 8 then some (.auto q w up n) else none
    | _, _ => none

/-- The inside of the square brackets (R92). -/
def readBracketed (cs : List Char) : Option SourceOperand :=
  match splitComma cs with
  | (_, none) => none
  | (l, some r) =>
    match l, readBase r with
    | ['D'], some b => some (.indD b)
    | _, some b => (readInt l).map (fun n => .indirect n b)
    | _, none => none

/-- An operand in capitals, without spaces (R90, R92). -/
def readOperandText (cs : List Char) : Option SourceOperand :=
  match cs with
  | [] => some .nothing
  | '#' :: rest => (readInt rest).map .immediate
  | '[' :: rest =>
    match rest.reverse with
    | ']' :: inside => readBracketed inside.reverse
    | _ => none
  | _ =>
    match splitComma cs with
    | (_, none) => (readInt cs).map .address
    | (l, some r) => readIndexedText l r

/-- The operand in memory that the tools encode (R93); none where no encoding holds the value. -/
def chooseOperand (o : SourceOperand) : Option Operand :=
  match o with
  | .nothing => none
  | .immediate _ => none
  | .address n => if 0 ≤ n ∧ n ≤ 65535 then some (chosenAddress (BitVec.ofInt 16 n)) else none
  | .offset n r => if -32768 ≤ n ∧ n ≤ 65535 then some (.idx (chosenForm r n)) else none
  | .auto r w up n => some (.idx (.auto r w (if up then BitVec.ofInt 4 (n - 1) else BitVec.ofInt 4 (-n))))
  | .acc k r => some (.idx (.acc r k))
  | .accD r => some (.idx (.accD r))
  | .indD r => some (.idx (.indD r))
  | .indirect n r => if -32768 ≤ n ∧ n ≤ 65535 then some (.idx (.ind16 r (BitVec.ofInt 16 n))) else none

/-- The 8-bit value of an immediate operand (R71); either reading of R21. -/
def immediateByte (o : SourceOperand) : Option Byte :=
  match o with
  | .immediate n => if -128 ≤ n ∧ n ≤ 255 then some (BitVec.ofInt 8 n) else none
  | _ => none

/-- An instruction without an operand. -/
def bareInstr (i : Instr) (o : SourceOperand) : Option Instr := if o = .nothing then some i else none

/-- The instruction a source line stands for (R90): LDAA and ADDA have an immediate form, STAA and STAB have none (R64). -/
def assemble (m : Mnemonic) (o : SourceOperand) : Option Instr :=
  match m with
  | .ldaa => ((immediateByte o).map .ldaaImm).or ((chooseOperand o).map .ldaaMem)
  | .adda => ((immediateByte o).map .addaImm).or ((chooseOperand o).map .addaMem)
  | .staa => (chooseOperand o).map .staaMem
  | .stab => (chooseOperand o).map .stabMem
  | .inca => bareInstr .inca o
  | .clrb => bareInstr .clrb o
  | .decb => bareInstr .decb o
  | .lsra => bareInstr .lsra o
  | .asra => bareInstr .asra o
  | .swi => bareInstr .swi o

/-- What follows a word, if the line begins with it and it ends there. -/
def afterWord (word cs : List Char) : Option (List Char) :=
  match word, cs with
  | [], [] => some []
  | [], ' ' :: rest => some rest
  | [], _ => none
  | w :: ws, c :: rest => if w = c then afterWord ws rest else none
  | _ :: _, [] => none

/-- Every spelling with its mnemonic, `LDA A` before `LDA` (R91). -/
def spellings : List (List Char × Mnemonic) :=
  [.ldaa, .staa, .stab, .adda, .inca, .clrb, .decb, .lsra, .asra, .swi].flatMap
    (fun m => (acceptedSpellings m).map (fun t => (t.toList, m)))

/-- The first reading that the spellings give of a line in capitals. DESIGN CHOICE (log 28): the spec is silent on blanks; here a
mnemonic is followed by a space or the end of the line, and every space after it is dropped, inside the operand too (so
`LDAA # 1 0` reads as `LDAA #10`). -/
def readWith (table : List (List Char × Mnemonic)) (cs : List Char) : Option Instr :=
  match table with
  | [] => none
  | (word, m) :: rest =>
    match afterWord word cs with
    | none => readWith rest cs
    | some tail =>
      match readOperandText (tail.filter (fun c => c ≠ ' ')) with
      | none => readWith rest cs
      | some o => (assemble m o).or (readWith rest cs)

/-- The instruction of a source line (R90 to R93); letters are not case-sensitive (R92). DESIGN CHOICE (log 28): blanks, on which the
spec is silent, as in `readWith`. -/
def readLine (line : List Char) : Option Instr := readWith spellings (line.map Char.toUpper)

end Sys2Proof.Machine
end

