-- ==== Sys2Proof/Safety.lean ====
section
/-! DEFINITION. The terms that statements about the machine use: what may be stored into, room on the stack, the spec's CCR table
(R28) and opcode list (R64) as written there, and what a step may leave unchanged. -/

namespace Sys2Proof.Machine

/-- A store of one byte at `a` is admitted: neither absent nor read-only in `MEM_MAP` (R42, D17) and outside `CODE_REGION` (R55). -/
def storable (s : State) (a : Word) : Bool :=
  kindAt s.platform a != .absent && kindAt s.platform a != .readOnly && !inCode s.platform a

/-- `MEM_MAP` gives the address side effects (R42, R47). -/
def isDevice (p : Platform) (a : Word) : Bool := kindAt p a == .device

/-- `t` is `s` after the one byte `v` was written at `a` (R42): the byte is there and every other is as before, or, where the
location has side effects, no byte changes and the write is its latest entry (R47). Registers are not spoken of. -/
def byteWritten (s t : State) (a : Word) (v : Byte) : Prop :=
  t.byteAt a = (if isDevice s.platform a then s.byteAt a else some v) ∧
  (∀ b : Word, b ≠ a → t.byteAt b = s.byteAt b) ∧
  t.io = (if isDevice s.platform a then .write a v :: s.io else s.io)

/-- The entries of a two-byte read at `a`, latest first: the lower address is read first (R47). -/
def wordReadEvents (p : Platform) (a : Word) : List DeviceEvent := readEvents p (a + 1#16) ++ readEvents p a

/-- The entries of a two-byte write of `hi : lo` at `a`, latest first (R43, R47). -/
def wordWriteEvents (p : Platform) (a : Word) (hi lo : Byte) : List DeviceEvent :=
  writeEvents p (a + 1#16) lo ++ writeEvents p a hi

/-- The nine bytes below SP admit stores (R192, point 1). -/
def stackRoom (s : State) : Bool := (List.range 9).all (fun k => storable s (s.sp - BitVec.ofNat 16 (k + 1)))

/-- `a` is none of the nine bytes below SP. -/
def belowStackFree (s : State) (a : Word) : Bool := (List.range 9).all (fun k => a != s.sp - BitVec.ofNat 16 (k + 1))

/-- None of the nine bytes below SP is a location with side effects. -/
def stackIsPlain (s : State) : Bool := (List.range 9).all (fun k => !isDevice s.platform (s.sp - BitVec.ofNat 16 (k + 1)))

/-- The two bytes at `vec` hold `target`, without a side effect, and the nine bytes below SP are others (R192, point 2). -/
def vectorReady (s : State) (vec target : Word) : Prop :=
  readWord s vec = .ok (target, s) ∧ belowStackFree s vec = true ∧ belowStackFree s (vec + 1#16) = true

/-- Maskable interrupts and XIRQ are both shut out (R161). -/
def masksShut (s : State) : Prop := s.flag .i = true ∧ s.flag .x = true

/-- The platform does not assert reset at the coming boundary. -/
def noResetDue (s : State) : Prop := ∀ rest, s.agenda ≠ .reset :: rest

/-- At the coming boundary the instruction at PC executes. -/
def executesNext (s : State) : Prop := s.agenda = [] ∨ ∃ rest, s.agenda = .execute :: rest

/-- The run has not ended (D12). -/
def running (s : State) : Prop := s.platform.haltPc ≠ some s.pc

/-- Every byte of memory reads as before. -/
def sameMemory (s t : State) : Prop := ∀ a : Word, t.byteAt a = s.byteAt a

/-- X, Y and SP are as before. -/
def sameIndexRegisters (s t : State) : Prop := t.x = s.x ∧ t.y = s.y ∧ t.sp = s.sp

/-- The platform's parameters, the coming boundaries and the model's counter are as before. -/
def sameSurroundings (s t : State) : Prop := t.platform = s.platform ∧ t.agenda = s.agenda ∧ t.freeIdx = s.freeIdx

/-- Bits of the CCR that are as before. -/
def keeps (s t : State) (ks : List CcrBit) : Prop := ∀ k ∈ ks, t.flag k = s.flag k

/-- X, Y and SP after an instruction with the operand `o`: as before, but for the register of the automatic form, which is
adjusted (R77). -/
def indexRegistersAfter (o : Operand) (s t : State) : Prop :=
  match o with
  | .idx (.auto r _ n) =>
    autoValue t r = autoValue s r + autoDelta n ∧ ∀ q : AutoReg, q ≠ r → autoValue t q = autoValue s q
  | _ => sameIndexRegisters s t

/-- The entries of the pointer read of an indirect form, latest first (R81, R82, R47); no other address mode reads memory. -/
def pointerEvents (s : State) (o : Operand) : List DeviceEvent :=
  match o with
  | .idx (.indD r) => wordReadEvents s.platform (baseValue s r o.length + s.d)
  | .idx (.ind16 r n) => wordReadEvents s.platform (baseValue s r o.length + n)
  | _ => []

/-- What the byte at `a` is after `v` was stacked there: `v`, or as before where the location has side effects. -/
def stacked (s : State) (a : Word) (v : Byte) : Option Byte := if isDevice s.platform a then s.byteAt a else some v

/-- The frame of R152 lies at the new SP, `rtn` being the return address, SP is lower by 9, and every byte outside the frame
reads as before. -/
def frameStored (s t : State) (rtn : Word) : Prop :=
  t.sp = s.sp - 9#16 ∧
  t.byteAt t.sp = stacked s t.sp s.ccr ∧
  t.byteAt (t.sp + 1#16) = stacked s (t.sp + 1#16) s.b ∧
  t.byteAt (t.sp + 2#16) = stacked s (t.sp + 2#16) s.a ∧
  t.byteAt (t.sp + 3#16) = stacked s (t.sp + 3#16) (hiByte s.x) ∧
  t.byteAt (t.sp + 4#16) = stacked s (t.sp + 4#16) (loByte s.x) ∧
  t.byteAt (t.sp + 5#16) = stacked s (t.sp + 5#16) (hiByte s.y) ∧
  t.byteAt (t.sp + 6#16) = stacked s (t.sp + 6#16) (loByte s.y) ∧
  t.byteAt (t.sp + 7#16) = stacked s (t.sp + 7#16) (hiByte rtn) ∧
  t.byteAt (t.sp + 8#16) = stacked s (t.sp + 8#16) (loByte rtn) ∧
  ∀ a : Word, belowStackFree s a = true → t.byteAt a = s.byteAt a

/-- The entries of stacking the frame, latest first: return address, Y, X, B:A, CCR, each word's lower address first (R151, R47). -/
def frameEvents (s : State) (rtn : Word) : List DeviceEvent :=
  writeEvents s.platform (s.sp - 9#16) s.ccr ++
  (wordWriteEvents s.platform (s.sp - 8#16) s.b s.a ++
  (wordWriteEvents s.platform (s.sp - 6#16) (hiByte s.x) (loByte s.x) ++
  (wordWriteEvents s.platform (s.sp - 4#16) (hiByte s.y) (loByte s.y) ++
  wordWriteEvents s.platform (s.sp - 2#16) (hiByte rtn) (loByte rtn))))

/-- The twenty opcode bytes of rule R64. -/
def shownOpcodes : List Byte :=
  [0x3F#8, 0x42#8, 0x44#8, 0x47#8, 0x53#8, 0x5A#8, 0x5B#8, 0x6A#8, 0x6B#8, 0x7A#8, 0x7B#8, 0x86#8, 0x8B#8, 0x96#8, 0x9B#8,
    0xA6#8, 0xAB#8, 0xB6#8, 0xBB#8, 0xC7#8]

/-- The four opcode bytes that a postbyte follows (R62). -/
def indexedOpcodes : List Byte := [0xA6#8, 0xAB#8, 0x6A#8, 0x6B#8]

/-- The length test on the postbyte, as rule R62 writes it. -/
def lengthByPostbyte (xb : Byte) : Nat :=
  if xb.extractLsb' 5 3 ≠ 7#3 then 2
  else if xb.getLsbD 2 then 2
  else if !xb.getLsbD 1 then 3
  else 4

/-- An entry of the CCR table (R28): `-`, `0`, `1`, `d`. -/
inductive CcrEntry where
  | kept
  | cleared
  | set
  | computed
  deriving DecidableEq, Repr

/-- The complete table of CCR effects, as rule R28 prints it. -/
def ccrTable (m : Mnemonic) (k : CcrBit) : CcrEntry :=
  match m, k with
  | .swi, .i => .set
  | .adda, .h => .computed
  | .ldaa, .n | .ldaa, .z | .staa, .n | .staa, .z | .stab, .n | .stab, .z => .computed
  | .ldaa, .v | .staa, .v | .stab, .v => .cleared
  | .adda, .n | .adda, .z | .adda, .v | .adda, .c => .computed
  | .inca, .n | .inca, .z | .inca, .v | .decb, .n | .decb, .z | .decb, .v => .computed
  | .clrb, .n | .clrb, .v | .clrb, .c => .cleared
  | .clrb, .z => .set
  | .lsra, .n => .cleared
  | .lsra, .z | .lsra, .v | .lsra, .c => .computed
  | .asra, .n | .asra, .z | .asra, .v | .asra, .c => .computed
  | _, _ => .kept

/-- The bit after an instruction agrees with its table entry; `computed` leaves it to the instruction's own rule. -/
def entryHolds (e : CcrEntry) (before after : Bool) : Prop :=
  match e with
  | .kept => after = before
  | .cleared => after = false
  | .set => after = true
  | .computed => True

/-- The state with another CCR. -/
def withCcr (s : State) (c : Byte) : State := { s with ccr := c }

/-- The state on the other implementation (R2). -/
def withVariant (s : State) (v : CpuVariant) : State := { s with platform := { s.platform with cpuVariant := v } }

/-- An outcome with its next state changed by `f`; a stop is as it was. -/
def mapNext (f : State → State) (o : Host.Outcome State Fault Refusal) : Host.Outcome State Fault Refusal :=
  match o with
  | .next s => .next (f s)
  | .fault r => .fault r
  | .refused r => .refused r

end Sys2Proof.Machine
end

