-- ==== Sys2Proof/Certificates/Slice0/Obligations.lean ====
section
/-! DEFINITION. The statements about the machine, from the spec's rules, for the provers. -/

open Sys2Proof Sys2Proof.Machine

/-! ## Encoding (`30_encoding.md`) -/

/-- Decoding the encoding of an instruction gives it back, whatever bytes follow (R61, R74 to R83; the postbyte layout is
general knowledge, log 8). -/
def Obligations.DecodeOfEncodeIsInstruction : Prop :=
  ∀ (i : Instr) (rest : List Byte), i.wellFormed = true → decode (encode i ++ rest) = .ok i

/-- Where bytes decode, they begin with the encoding of what they decode to, and that is a well-formed instruction: no byte
sequence has two meanings and no bit of one is ignored (R69 "Any byte sequence matches at most one row"; log 8). -/
def Obligations.DecodedBytesAreTheEncoding : Prop :=
  ∀ (bs : List Byte) (i : Instr), decode bs = .ok i → i.wellFormed = true ∧ ∃ rest, bs = encode i ++ rest

/-- After each of the four indexed opcode bytes every postbyte decodes, to an instruction of the length that R62's test on the
postbyte gives (R62, R68, R83; general knowledge, log 8). -/
def Obligations.EveryPostbyteDecodes : Prop :=
  ∀ (op xb e f : Byte), op ∈ indexedOpcodes →
    ∃ i : Instr, decode [op, xb, e, f] = .ok i ∧ i.length = lengthByPostbyte xb

/-- An opcode byte is rejected by name exactly if it is not among the twenty of R64 (R64, R66; decision D1, log 15). -/
def Obligations.OnlyShownOpcodesDecode : Prop :=
  ∀ (op : Byte) (rest : List Byte), decode (op :: rest) = .error (.opcodeNotShown op) ↔ op ∉ shownOpcodes

/-- A step that executes at an opcode byte that is not among the twenty is refused by its name: no trap, no no-operation (R66;
decision D1, log 15). -/
def Obligations.StepRefusesOpcodeNotShown : Prop :=
  ∀ (s : State) (op : Byte), running s → executesNext s → fetch s s.pc = .ok op → op ∉ shownOpcodes →
    step s = .refused (.opcodeNotShown op)

/-- Words written out from the source's Object Code columns and the examples of R76 to R82, one per family. -/
def Obligations.SampleWordsDecode : Prop :=
  decode [0x86#8, 0x80#8] = .ok (.ldaaImm 0x80#8) ∧
  decode [0x7A#8, 0x10#8, 0x00#8] = .ok (.staaExt 0x1000#16) ∧
  decode [0x6B#8, 0x71#8] = .ok (.stabAutoXY .y .post 1#4) ∧
  decode [0xAB#8, 0xE7#8] = .ok (.addaIndD .x) ∧
  decode [0xA6#8, 0xF1#8, 0x9C#8] = .ok (.ldaaOff9 .sp (BitVec.ofInt 9 (-100))) ∧
  decode [0x42#8] = .ok .inca ∧ decode [0xC7#8] = .ok .clrb ∧ decode [0x53#8] = .ok .decb ∧
  decode [0x44#8] = .ok .lsra ∧ decode [0x47#8] = .ok .asra ∧ decode [0x3F#8] = .ok .swi

/-! ## The step (`60_exceptions.md`) -/

/-- Where the bytes at PC, fetched one by one, decode to an instruction, a step is that instruction's `exec`. What the step adds
around it: the run must not have ended (D12), and the first entry of the agenda, if any, is used up (R169, log 16). PC is
moved by `exec` itself. -/
def Obligations.StepRunsDecodedInstruction : Prop :=
  ∀ (s : State) (bs : List Byte) (i : Instr), running s → executesNext s →
    (∀ (k : Nat) (b : Byte), bs[k]? = some b → fetch s (s.pc + BitVec.ofNat 16 k) = .ok b) →
    decode bs = .ok i →
    step s = exec i { s with agenda := s.agenda.tail }

/-- Where the bytes from PC on, fetched one by one, end before the instruction does, the refusal of the next fetch is the step's: at
the opcode byte (`bs` empty), and at each immediate, postbyte, offset and address byte. So an instruction byte outside
`CODE_REGION` is refused as `fetchOutsideCode` of that byte (R55, R71 to R82; decision D11, log 14; log 26 for which of two
reasons). -/
def Obligations.StepRefusesFetchOutsideCode : Prop :=
  ∀ (s : State) (bs : List Byte), running s → executesNext s →
    (∀ (k : Nat) (b : Byte), bs[k]? = some b → fetch s (s.pc + BitVec.ofNat 16 k) = .ok b) →
    decode bs = .error .truncated →
    (inCode s.platform (s.pc + BitVec.ofNat 16 bs.length) = false →
      step s = .refused (.fetchOutsideCode (s.pc + BitVec.ofNat 16 bs.length))) ∧
    (∀ e : Refusal, fetch s (s.pc + BitVec.ofNat 16 bs.length) = .error e → step s = .refused e)

/-- The machine stops of itself exactly where PC is `HALT_PC` (D12, log 20); every other stop is a refusal. -/
def Obligations.StepFaultsExactlyAtHaltPc : Prop :=
  ∀ (s : State) (f : Fault), step s = .fault f ↔ f = .halted ∧ s.platform.haltPc = some s.pc

/-- No step depends on `CPU_VARIANT`: on the other implementation the same step has the same outcome, with the parameter still
set to it (R2; locations with side effects answer alike after like histories, log 2). -/
def Obligations.VariantChangesNoStep : Prop :=
  ∀ (s : State) (v : CpuVariant), step (withVariant s v) = mapNext (fun t => withVariant t v) (step s)

/-! ## Reset (`70_reset_and_hazards.md`) -/

/-- After reset S, X and I are set, memory lists nothing and nothing is pending (R31, R190; general knowledge, log 10, and
decision D8). -/
def Obligations.ResetMasksInterrupts : Prop :=
  State.reset.flag .s = true ∧ State.reset.flag .x = true ∧ State.reset.flag .i = true ∧
  State.reset.mem = [] ∧ State.reset.agenda = []

/-- Memory after reset is in its canonical form (the model's invariant, log 13). -/
def Obligations.ResetMemoryIsCanonical : Prop := Memory.wf State.reset.mem = true

/-- A reset at a boundary leaves S, X and I set, nothing stacked (every byte the map keeps reads as before, every other has no value)
and no parameter changed; then PC comes from the vector, and where the vector cannot be read in that state the step is refused
for that reason. So it completes where the map keeps the vector's bytes. Nothing is said of A, B, X, Y, SP and the other CCR
bits, which are free (R31, R190; general knowledge and decision D6, log 19). The model's choices: the values are dropped before
the vector is read (log 39), bytes of the code are dropped like any other (log 40), the locations with side effects see the reset (log 2). -/
def Obligations.ResetEventLoadsVector : Prop :=
  ∀ (s : State) (rest : List Boundary), running s → s.agenda = .reset :: rest →
    (∃ u : State, u.flag .s = true ∧ u.flag .x = true ∧ u.flag .i = true ∧
      (∀ a : Word, u.byteAt a = if keptOverReset s.platform a then s.byteAt a else none) ∧
      u.io = .reset :: s.io ∧ u.platform = s.platform ∧ u.agenda = rest ∧
      (∀ (target : Word) (w : State), readWord u s.platform.resetVector = .ok (target, w) →
        step s = .next { w with pc := target }) ∧
      (∀ e : Refusal, readWord u s.platform.resetVector = .error e → step s = .refused e)) ∧
    ∀ target : Word, readWord s s.platform.resetVector = .ok (target, s) →
      keptOverReset s.platform s.platform.resetVector = true →
      keptOverReset s.platform (s.platform.resetVector + 1#16) = true →
      ∃ t : State, step s = .next t ∧ t.pc = target ∧
        t.flag .s = true ∧ t.flag .x = true ∧ t.flag .i = true ∧
        (∀ a : Word, t.byteAt a = if keptOverReset s.platform a then s.byteAt a else none) ∧
        t.io = .reset :: s.io ∧ t.platform = s.platform ∧ t.agenda = rest

/-! ## Memory (`20_memory.md`) -/

/-- A one-byte write replaces the byte at its address and changes no other byte; at a location with side effects it is the latest
entry of `io` instead (the model's form, log 2). No other part of the state changes (R42; where the map and the code region
admit it). -/
def Obligations.ByteWriteChangesOneByte : Prop :=
  ∀ (s : State) (a : Word) (v : Byte), storable s a = true →
    ∃ t : State, writeByte s a v = .ok t ∧ byteWritten s t a v ∧ t = { s with mem := t.mem, io := t.io }

/-- Which one-byte accesses are refused, and by which name: nothing there, a byte that cannot be written, a byte without a value, a
byte of the code; and that a read of a byte without side effects changes nothing (R42, R47, R55; decisions D3, D7, D11, D17,
log 13, 14, 26). -/
def Obligations.ByteAccessRefusals : Prop :=
  ∀ (s : State) (a : Word) (v : Byte),
    (kindAt s.platform a = .absent →
      readByte s a = .error (.unmappedAccess a) ∧ writeByte s a v = .error (.unmappedAccess a)) ∧
    (kindAt s.platform a = .readOnly → writeByte s a v = .error (.unmappedAccess a)) ∧
    (kindAt s.platform a = .plain ∨ kindAt s.platform a = .readOnly →
      readByte s a = match s.byteAt a with
        | some b => .ok (b, s)
        | none => .error (.unwrittenMemory a)) ∧
    (kindAt s.platform a = .plain ∨ kindAt s.platform a = .device → inCode s.platform a = true →
      writeByte s a v = .error (.storeToCode a))

/-- A one-byte access to a location with side effects: a read answers the platform's value, which may depend on every access and
reset before it, and is noted; a write outside the code is noted (R42, R47, U7; the form is the model's, log 2). -/
def Obligations.DeviceAccessIsNoted : Prop :=
  ∀ (s : State) (a : Word) (v : Byte), kindAt s.platform a = .device →
    readByte s a = .ok (Config.deviceValue s.io a, { s with io := .read a :: s.io }) ∧
    (inCode s.platform a = false → writeByte s a v = .ok { s with io := .write a v :: s.io })

/-- A two-byte write of two bytes without side effects puts the high-order byte at its address and the low-order byte at the next one
modulo 2^16, at every address, odd, even or `$FFFF`, changes no other byte, and reads back, which changes nothing (R43; R44 by
decision D4, R45 derived). -/
def Obligations.WordAccessIsBigEndian : Prop :=
  ∀ (s : State) (a v : Word), storable s a = true → storable s (a + 1#16) = true →
    isDevice s.platform a = false → isDevice s.platform (a + 1#16) = false →
    ∃ (t : State) (hi lo : Byte), writeWord s a v = .ok t ∧
      hi.toNat = v.toNat / 256 ∧ lo.toNat = v.toNat % 256 ∧
      t.byteAt a = some hi ∧ t.byteAt (a + 1#16) = some lo ∧
      (∀ b : Word, b ≠ a → b ≠ a + 1#16 → t.byteAt b = s.byteAt b) ∧
      readWord t a = .ok (v, t) ∧ t = { s with mem := t.mem }

/-- A two-byte access is two one-byte accesses, the lower address first, the second at the next address modulo 2^16; so at locations
with side effects the lower one sees the high-order byte's access first, and the second read's value may depend on it. The
second write is refused as its own byte is (R43, R44, R47, U12; what a location with side effects sees
is the model's form, log 2). -/
def Obligations.WordAccessIsTwoByteAccesses : Prop :=
  ∀ (s : State) (a v : Word),
    (∀ (w : Word) (t : State), readWord s a = .ok (w, t) ↔
      ∃ (hi lo : Byte) (u : State), readByte s a = .ok (hi, u) ∧ readByte u (a + 1#16) = .ok (lo, t) ∧
        w.toNat = 256 * hi.toNat + lo.toNat) ∧
    (∃ hi lo : Byte, hi.toNat = v.toNat / 256 ∧ lo.toNat = v.toNat % 256 ∧
      (∀ e : Refusal, writeByte s a hi = .error e → writeWord s a v = .error e) ∧
      (∀ u : State, writeByte s a hi = .ok u → writeWord s a v = writeByte u (a + 1#16) lo) ∧
      (kindAt s.platform a = .device → kindAt s.platform (a + 1#16) = .device →
        inCode s.platform a = false → inCode s.platform (a + 1#16) = false →
        writeWord s a v = .ok { s with io := .write (a + 1#16) lo :: .write a hi :: s.io })) ∧
    (kindAt s.platform a = .device → kindAt s.platform (a + 1#16) = .device →
      ∃ w : Word, readWord s a = .ok (w, { s with io := .read (a + 1#16) :: .read a :: s.io }) ∧
        w.toNat = 256 * (Config.deviceValue s.io a).toNat + (Config.deviceValue (.read a :: s.io) (a + 1#16)).toNat)

/-- Every step keeps memory in its canonical form: addresses below `$10000`, rising strictly, no entry without a value (the
model's invariant, log 13). -/
def Obligations.StepKeepsMemoryCanonical : Prop :=
  ∀ s t : State, Memory.wf s.mem = true → step s = .next t → Memory.wf t.mem = true

/-- No step changes a parameter of R4 (log 1). -/
def Obligations.StepKeepsPlatform : Prop :=
  ∀ s t : State, step s = .next t → t.platform = s.platform

/-- No step forgets what the locations with side effects have seen: it adds entries before the earlier ones, if any (the model's
invariant, log 2). -/
def Obligations.StepExtendsDeviceHistory : Prop :=
  ∀ s t : State, step s = .next t → ∃ new : List DeviceEvent, t.io = new ++ s.io

/-- With a map that has no location with side effects, as the default map, no step but a reset adds an entry: no access has a side
effect (R47; the history is the model's
form, log 2). -/
def Obligations.PlainMapHasNoSideEffects : Prop :=
  ∀ s t : State, (∀ a : Word, isDevice s.platform a = false) → noResetDue s → step s = .next t → t.io = s.io

/-- The bytes of `CODE_REGION` keep their launch values over every step that is no reset (R55; decision D11, log 14). -/
def Obligations.StepKeepsCodeBytes : Prop :=
  ∀ (s t : State) (a : Word), noResetDue s → inCode s.platform a = true → step s = .next t → t.byteAt a = s.byteAt a

/-! ## Interrupts (`60_exceptions.md`) -/

/-- Once I and X are both set, every step keeps them set, whatever the platform offers (R29 derived, R166; decision D8). -/
def Obligations.StepKeepsMasksShut : Prop :=
  ∀ s t : State, masksShut s → step s = .next t → masksShut t

/-- A masked request is not taken: the step is the one that executes the instruction at PC. A request of no member of
`IRQ_VECTORS` is none (R161, R166; decision D8, log 17). -/
def Obligations.MaskedRequestIsNotTaken : Prop :=
  ∀ (s : State) (k : Nat) (rest : List Boundary), s.agenda = .request k :: rest →
    (∀ v, s.platform.irqVectors[k]? = some v →
      (v.maskedBy = .maskI ∧ s.flag .i = true) ∨ (v.maskedBy = .maskX ∧ s.flag .x = true)) →
    step s = step { s with agenda := .execute :: rest }

/-- A request whose mask bit is clear is taken at the boundary: the frame of R152 with the address of the instruction that would
have executed next, I set, X set too if X masks the member, the other CCR bits kept, PC from the member's vector, and
nothing else changed but what locations with side effects in the frame saw (R163, R166, R168; general knowledge for XIRQ, log 18;
the model's form, log 2). -/
def Obligations.UnmaskedRequestEntersHandler : Prop :=
  ∀ (s : State) (k : Nat) (rest : List Boundary) (v : IrqVector) (target : Word), running s →
    s.agenda = .request k :: rest → s.platform.irqVectors[k]? = some v →
    (v.maskedBy = .maskI → s.flag .i = false) → (v.maskedBy = .maskX → s.flag .x = false) →
    stackRoom s = true → vectorReady s v.vector target →
    ∃ t : State, step s = .next t ∧ frameStored s t s.pc ∧ t.pc = target ∧
      t.flag .i = true ∧ (v.maskedBy = .maskX → t.flag .x = true) ∧ (v.maskedBy = .maskI → t.flag .x = s.flag .x) ∧
      keeps s t [.s, .h, .n, .z, .v, .c] ∧
      t = { s with agenda := rest, sp := t.sp, pc := t.pc, ccr := t.ccr, mem := t.mem, io := frameEvents s s.pc ++ s.io }

/-- A request whose mask bit is clear, on any stack and any vector: where the stack has no room (a byte absent, read-only or of the
code) the step is refused; else the frame of R152 lies below the old SP, I is set and nothing else has changed, and PC then
comes from the two bytes of the member's vector as they read in that state, also where the frame overlaps them or they have side
effects; X is set too if X masks the member. Where they cannot be read, the step is refused for that reason (R42, R48, R55, R163,
R166; general knowledge for XIRQ, log 18; locations with side effects: the model's form, log 2). -/
def Obligations.UnmaskedRequestStacksAndTakesVector : Prop :=
  ∀ (s : State) (k : Nat) (rest : List Boundary) (v : IrqVector), running s →
    s.agenda = .request k :: rest → s.platform.irqVectors[k]? = some v →
    (v.maskedBy = .maskI → s.flag .i = false) → (v.maskedBy = .maskX → s.flag .x = false) →
    (stackRoom s = false → ∃ e : Refusal, step s = .refused e) ∧
    (stackRoom s = true →
      ∃ u : State, frameStored s u s.pc ∧ u.flag .i = true ∧ keeps s u [.s, .x, .h, .n, .z, .v, .c] ∧
        u = { s with agenda := rest, sp := u.sp, ccr := u.ccr, mem := u.mem, io := frameEvents s s.pc ++ s.io } ∧
        (∀ (target : Word) (w : State), readWord u v.vector = .ok (target, w) →
          ∃ t : State, step s = .next t ∧ t.pc = target ∧ t.flag .i = true ∧
            (v.maskedBy = .maskX → t.flag .x = true) ∧ (v.maskedBy = .maskI → t.flag .x = s.flag .x) ∧
            keeps s t [.s, .h, .n, .z, .v, .c] ∧ t = { w with pc := t.pc, ccr := t.ccr }) ∧
        (∀ e : Refusal, readWord u v.vector = .error e → step s = .refused e))

/-- What undoes the exception sequence restores A, B, X, Y, SP, PC and the whole CCR, and no byte of memory changes, the nine bytes of
the frame being bytes without side effects, which read as they were stacked (R172, general knowledge, log 24: no instruction of
this spec reaches it). -/
def Obligations.ReturnUndoesExceptionEntry : Prop :=
  ∀ (s t : State) (rtn vec : Word), stackIsPlain s = true → takeException s rtn vec = .ok t →
    returnFromException t = .ok { s with pc := rtn, mem := t.mem, io := t.io }

/-! ## SWI (`43_swi.md`) -/

/-- SWI where the stack has room: the nine bytes as R152 lays them out, the return address being that of the next instruction,
then I set and every other CCR bit kept, then PC from the two bytes at `SWI_VECTOR` as they are after the stacking; where they
cannot be read, the step is refused for that reason and no other. Nothing else changes. Where the stack
has no room (a byte absent, read-only or of the code), the step is refused. Object code `3F`. A frame in locations with side
effects: SwiFrame. -/
def Obligations.SwiStacksFrameAndTakesVector : Prop :=
  encode .swi = [0x3F#8] ∧
  (∀ s : State, stackRoom s = false → ∃ e : Refusal, exec .swi s = .refused e) ∧
  ∀ s : State, stackRoom s = true →
    ∃ u : State, (stackIsPlain s = true → frameStored s u (s.pc + 1#16)) ∧
      u.sp = s.sp - 9#16 ∧ (∀ a : Word, belowStackFree s a = true → u.byteAt a = s.byteAt a) ∧
      u.flag .i = true ∧ keeps s u [.s, .x, .h, .n, .z, .v, .c] ∧
      u = { s with sp := u.sp, ccr := u.ccr, mem := u.mem, io := u.io } ∧
      (∀ (target : Word) (w : State), readWord u s.platform.swiVector = .ok (target, w) →
        exec .swi s = .next { w with pc := target }) ∧
      (∀ e : Refusal, readWord u s.platform.swiVector = .error e → exec .swi s = .refused e)

/-- SWI completes where the stack has room and the vector is ready (R192, points 1 and 2, derived from R151): PC is the vector's
content and SP is lower by 9. What stacking does at locations with side effects, and what they see, is the model's form, log 2. -/
def Obligations.SwiCompletesThroughReadyVector : Prop :=
  ∀ (s : State) (target : Word), stackRoom s = true → vectorReady s s.platform.swiVector target →
    ∃ t : State, exec .swi s = .next t ∧ t.pc = target ∧ frameStored s t (s.pc + 1#16) ∧ t.flag .i = true ∧
      t.a = s.a ∧ t.b = s.b ∧ t.x = s.x ∧ t.y = s.y ∧ sameSurroundings s t ∧ t.io = frameEvents s (s.pc + 1#16) ++ s.io

/-- Neither I = 1 nor any other CCR bit prevents SWI: where it completes with one CCR, it completes with every CCR, stacking at the
same place, and going to the same handler unless its own frame overwrites the vector or the vector has side effects. -/
def Obligations.SwiIsNotMasked : Prop :=
  ∀ (s t : State) (c : Byte), exec .swi s = .next t →
    ∃ t' : State, exec .swi (withCcr s c) = .next t' ∧ t'.sp = t.sp ∧ t'.flag .i = true ∧
      (belowStackFree s s.platform.swiVector = true → belowStackFree s (s.platform.swiVector + 1#16) = true →
        isDevice s.platform s.platform.swiVector = false → isDevice s.platform (s.platform.swiVector + 1#16) = false →
        t'.pc = t.pc)

/-- The vector is read after the nine writes, so PC is what the vector's bytes, which have no side effects, hold in the state after
SWI, even where the frame overlaps the vector (R48; R151). -/
def Obligations.SwiVectorSeesStackedBytes : Prop :=
  ∀ s t : State, isDevice s.platform s.platform.swiVector = false →
    isDevice s.platform (s.platform.swiVector + 1#16) = false → exec .swi s = .next t →
    readWord t s.platform.swiVector = .ok (t.pc, t)

/-- What SWI leaves unchanged: A, B, X, Y, every CCR bit but I, and every byte but the nine below the old SP, which hold the frame
(where they are locations with side effects, they see it: the nine writes, then the vector reads, in the order of R151; the model's
form, log 2). -/
def Obligations.SwiFrame : Prop :=
  ∀ s t : State, exec .swi s = .next t →
    t.a = s.a ∧ t.b = s.b ∧ t.x = s.x ∧ t.y = s.y ∧ t.flag .i = true ∧
    keeps s t [.s, .x, .h, .n, .z, .v, .c] ∧ sameSurroundings s t ∧ frameStored s t (s.pc + 1#16) ∧
    t.io = wordReadEvents s.platform s.platform.swiVector ++ (frameEvents s (s.pc + 1#16) ++ s.io)

/-! ## The CCR and the program counter, over all instructions -/

/-- No instruction changes a CCR bit whose entry in R28's table is `-`, and one whose entry is `0` or `1` is that afterwards. The
entries `d` are stated with each instruction. -/
def Obligations.ConditionCodesFollowTable : Prop :=
  ∀ (i : Instr) (s t : State) (k : CcrBit), exec i s = .next t →
    entryHolds (ccrTable i.mnemonic k) (s.flag k) (t.flag k)

/-- Every instruction but SWI ends at the address after its last byte, modulo 2^16 (R25, general knowledge for the fall-through and
decision D4 for the wrap, log 6; R153). -/
def Obligations.OnlySwiTransfersControl : Prop :=
  ∀ (i : Instr) (s t : State), i ≠ .swi → exec i s = .next t → t.pc.toNat = (s.pc.toNat + i.length) % 65536

/-- No instruction but SWI takes a CCR bit as an input: with another CCR it does the same, every bit that it writes (R28) becomes
what it became, and every bit that it keeps is that CCR's (R27, R121 "does not read C"; locations with side effects answer alike after like histories, log 2). -/
def Obligations.ConditionCodesAreNoInput : Prop :=
  ∀ (i : Instr) (s t : State) (c : Byte), i ≠ .swi → exec i s = .next t →
    ∃ c' : Byte, exec i (withCcr s c) = .next (withCcr t c') ∧
      ∀ k : CcrBit, ccrBit c' k = if ccrTable i.mnemonic k = .kept then ccrBit c k else t.flag k

/-! ## Loads and stores (`40_load_store.md`) -/

/-- LDAA in all its forms: A is the operand byte, N and Z are set by it, V is cleared, S X H I C are kept, PC is the next address,
and all else is as the address mode and the read of the byte left it. Its object code begins with `86`, `96`, `B6` or `A6`. -/
def Obligations.LdaaLoadsOperandByte : Prop :=
  (∀ m : Byte, encode (.ldaaImm m) = [0x86#8, m]) ∧
  (∀ o : Operand, encode (.ldaaMem o) = match o with
    | .dir d => [0x96#8, d]
    | .ext a => [0xB6#8, hiByte a, loByte a]
    | .idx f => 0xA6#8 :: f.postbyte :: f.extension) ∧
  (∀ (s : State) (m : Byte), ∃ t : State, exec (.ldaaImm m) s = .next t ∧ t.a = m ∧
    t.flag .n = m.getLsbD 7 ∧ (t.flag .z = true ↔ m = 0x00#8) ∧ t.flag .v = false ∧ keeps s t [.s, .x, .h, .i, .c] ∧
    t.pc = s.pc + 2#16 ∧ t = { s with a := t.a, ccr := t.ccr, pc := t.pc }) ∧
  (∀ (s s1 s2 : State) (o : Operand) (ea : Word) (m : Byte), effectiveAddress s o = .ok (ea, s1) →
    readByte s1 ea = .ok (m, s2) →
    ∃ t : State, exec (.ldaaMem o) s = .next t ∧ t.a = m ∧
      t.flag .n = m.getLsbD 7 ∧ (t.flag .z = true ↔ m = 0x00#8) ∧ t.flag .v = false ∧ keeps s t [.s, .x, .h, .i, .c] ∧
      t.pc = s.pc + BitVec.ofNat 16 o.length ∧ t = { s2 with a := t.a, ccr := t.ccr, pc := t.pc })

/-- STAA in all its forms, where the effective address admits a store (neither absent nor read-only, outside the code): the byte A is
written there, it reads as A if the location has no side effects, no other byte changes, N and Z are set by A, V is cleared, S X
H I C are kept, PC is the next address, and all else is as the address mode and the write left it. A store into the code is
refused as that. Its object code begins with `5A`, `7A` or `6A`. -/
def Obligations.StaaStoresAccumulatorA : Prop :=
  (∀ o : Operand, encode (.staaMem o) = match o with
    | .dir d => [0x5A#8, d]
    | .ext a => [0x7A#8, hiByte a, loByte a]
    | .idx f => 0x6A#8 :: f.postbyte :: f.extension) ∧
  (∀ (s s1 : State) (o : Operand) (ea : Word), effectiveAddress s o = .ok (ea, s1) →
    kindAt s.platform ea ≠ .absent → kindAt s.platform ea ≠ .readOnly → inCode s.platform ea = true →
    exec (.staaMem o) s = .refused (.storeToCode ea)) ∧
  ∀ (s s1 : State) (o : Operand) (ea : Word), effectiveAddress s o = .ok (ea, s1) → storable s ea = true →
    ∃ u t : State, writeByte s1 ea s.a = .ok u ∧ exec (.staaMem o) s = .next t ∧
      (isDevice s.platform ea = false → t.byteAt ea = some s.a) ∧ (∀ a : Word, a ≠ ea → t.byteAt a = s.byteAt a) ∧
      t.a = s.a ∧ t.flag .n = s.a.getLsbD 7 ∧ (t.flag .z = true ↔ s.a = 0x00#8) ∧ t.flag .v = false ∧
      keeps s t [.s, .x, .h, .i, .c] ∧ t.pc = s.pc + BitVec.ofNat 16 o.length ∧
      t = { u with ccr := t.ccr, pc := t.pc }

/-- STAB, as STAA with B in place of A. Its object code begins with `5B`, `7B` or `6B`. -/
def Obligations.StabStoresAccumulatorB : Prop :=
  (∀ o : Operand, encode (.stabMem o) = match o with
    | .dir d => [0x5B#8, d]
    | .ext a => [0x7B#8, hiByte a, loByte a]
    | .idx f => 0x6B#8 :: f.postbyte :: f.extension) ∧
  (∀ (s s1 : State) (o : Operand) (ea : Word), effectiveAddress s o = .ok (ea, s1) →
    kindAt s.platform ea ≠ .absent → kindAt s.platform ea ≠ .readOnly → inCode s.platform ea = true →
    exec (.stabMem o) s = .refused (.storeToCode ea)) ∧
  ∀ (s s1 : State) (o : Operand) (ea : Word), effectiveAddress s o = .ok (ea, s1) → storable s ea = true →
    ∃ u t : State, writeByte s1 ea s.b = .ok u ∧ exec (.stabMem o) s = .next t ∧
      (isDevice s.platform ea = false → t.byteAt ea = some s.b) ∧ (∀ a : Word, a ≠ ea → t.byteAt a = s.byteAt a) ∧
      t.b = s.b ∧ t.flag .n = s.b.getLsbD 7 ∧ (t.flag .z = true ↔ s.b = 0x00#8) ∧ t.flag .v = false ∧
      keeps s t [.s, .x, .h, .i, .c] ∧ t.pc = s.pc + BitVec.ofNat 16 o.length ∧
      t = { u with ccr := t.ccr, pc := t.pc }

/-- What LDAA leaves unchanged, in every form: B, every byte of memory, the index registers but one that the automatic form
adjusts, and S X H I C. Locations with side effects see the pointer read of an indirect form, then the read at the effective
address, computed as the meaning computes it (R48; the model's form, log 2). -/
def Obligations.LdaaFrame : Prop :=
  (∀ (s t : State) (m : Byte), exec (.ldaaImm m) s = .next t →
    t.b = s.b ∧ sameIndexRegisters s t ∧ sameMemory s t ∧ keeps s t [.s, .x, .h, .i, .c] ∧ sameSurroundings s t ∧
    t.io = s.io) ∧
  (∀ (s t : State) (o : Operand), exec (.ldaaMem o) s = .next t →
    t.b = s.b ∧ indexRegistersAfter o s t ∧ sameMemory s t ∧ keeps s t [.s, .x, .h, .i, .c] ∧ sameSurroundings s t ∧
    ∀ (ea : Word) (s1 : State), effectiveAddress s o = .ok (ea, s1) →
      t.io = readEvents s.platform ea ++ (pointerEvents s o ++ s.io))

/-- What STAA and STAB leave unchanged, in every form: A, B, the index registers but one that the automatic form adjusts, S X H I
C, and every byte but the one at the effective address, computed as the meaning computes it. Locations with side effects see
the pointer read of an indirect form, then the write (R48; the model's form, log 2). -/
def Obligations.StoreFrame : Prop :=
  let storeFrame := fun (s t : State) (o : Operand) (v : Byte) =>
    t.a = s.a ∧ t.b = s.b ∧ indexRegistersAfter o s t ∧ keeps s t [.s, .x, .h, .i, .c] ∧ sameSurroundings s t ∧
    ∀ (ea : Word) (s1 : State), effectiveAddress s o = .ok (ea, s1) →
      (∀ a : Word, a ≠ ea → t.byteAt a = s.byteAt a) ∧
      t.io = writeEvents s.platform ea v ++ (pointerEvents s o ++ s.io)
  ∀ (s t : State) (o : Operand),
    (exec (.staaMem o) s = .next t → storeFrame s t o s.a) ∧ (exec (.stabMem o) s = .next t → storeFrame s t o s.b)

/-- A load, an addition or a store whose pointer cannot be read, or whose byte the map, memory or the code region does not admit, is
refused for exactly that reason; where the byte admits no store, both stores are refused (R42, R55, R84; decisions D7, D11, D17,
D18). -/
def Obligations.RefusedAccessStopsInstruction : Prop :=
  (∀ (s : State) (o : Operand) (e : Refusal), effectiveAddress s o = .error e →
    exec (.ldaaMem o) s = .refused e ∧ exec (.addaMem o) s = .refused e ∧
    exec (.staaMem o) s = .refused e ∧ exec (.stabMem o) s = .refused e) ∧
  ∀ (s s1 : State) (o : Operand) (ea : Word) (e : Refusal), effectiveAddress s o = .ok (ea, s1) →
    (readByte s1 ea = .error e → exec (.ldaaMem o) s = .refused e ∧ exec (.addaMem o) s = .refused e) ∧
    (writeByte s1 ea s.a = .error e → exec (.staaMem o) s = .refused e) ∧
    (writeByte s1 ea s.b = .error e → exec (.stabMem o) s = .refused e) ∧
    (storable s ea = false →
      ∃ r : Refusal, exec (.staaMem o) s = .refused r ∧ exec (.stabMem o) s = .refused r)

/-! ## Arithmetic and shifts (`41_arithmetic.md`, `42_shift.md`) -/

/-- ADDA in all its forms: A is the sum modulo 256, H, N, Z, V, C are the source's formulas over the old A, the operand and the
result, S X I are kept, PC is the next address, and all else is as the address mode and the read of the byte left it. The old C
is no input. Its object code begins with `8B`, `9B`, `BB` or `AB`. -/
def Obligations.AddaAddsOperandByte : Prop :=
  let sumOf := fun (s s2 t : State) (m : Byte) (len : Nat) =>
    t.a.toNat = (s.a.toNat + m.toNat) % 256 ∧
    t.flag .h = (s.a.getLsbD 3 && m.getLsbD 3 || m.getLsbD 3 && !t.a.getLsbD 3 || !t.a.getLsbD 3 && s.a.getLsbD 3) ∧
    t.flag .n = t.a.getLsbD 7 ∧ (t.flag .z = true ↔ t.a = 0x00#8) ∧
    t.flag .v = (s.a.getLsbD 7 && m.getLsbD 7 && !t.a.getLsbD 7 || !s.a.getLsbD 7 && !m.getLsbD 7 && t.a.getLsbD 7) ∧
    t.flag .c = (s.a.getLsbD 7 && m.getLsbD 7 || m.getLsbD 7 && !t.a.getLsbD 7 || !t.a.getLsbD 7 && s.a.getLsbD 7) ∧
    keeps s t [.s, .x, .i] ∧ t.pc = s.pc + BitVec.ofNat 16 len ∧ t = { s2 with a := t.a, ccr := t.ccr, pc := t.pc }
  (∀ m : Byte, encode (.addaImm m) = [0x8B#8, m]) ∧
  (∀ o : Operand, encode (.addaMem o) = match o with
    | .dir d => [0x9B#8, d]
    | .ext a => [0xBB#8, hiByte a, loByte a]
    | .idx f => 0xAB#8 :: f.postbyte :: f.extension) ∧
  (∀ (s : State) (m : Byte), ∃ t : State, exec (.addaImm m) s = .next t ∧ sumOf s s t m 2) ∧
  (∀ (s s1 s2 : State) (o : Operand) (ea : Word) (m : Byte), effectiveAddress s o = .ok (ea, s1) →
    readByte s1 ea = .ok (m, s2) → ∃ t : State, exec (.addaMem o) s = .next t ∧ sumOf s s2 t m o.length)

/-- The flags of ADDA as carries and as signed overflow: C exactly if the unsigned sum is 256 or more, V exactly if the signed sum
does not fit in -128 to +127, H exactly if the sum of the low halves is 16 or more (R120). -/
def Obligations.AddaFlagsAreCarryAndOverflow : Prop :=
  ∀ (s : State) (m : Byte), ∃ t : State, exec (.addaImm m) s = .next t ∧
    (t.flag .c = true ↔ 256 ≤ s.a.toNat + m.toNat) ∧
    (t.flag .v = true ↔ s.a.toInt + m.toInt < -128 ∨ 127 < s.a.toInt + m.toInt) ∧
    (t.flag .h = true ↔ 16 ≤ s.a.toNat % 16 + m.toNat % 16)

/-- What ADDA leaves unchanged, in every form: B, every byte of memory, the index registers but one that the automatic form
adjusts, and S X I. What locations with side effects see: as for LDAA. -/
def Obligations.AddaFrame : Prop :=
  (∀ (s t : State) (m : Byte), exec (.addaImm m) s = .next t →
    t.b = s.b ∧ sameIndexRegisters s t ∧ sameMemory s t ∧ keeps s t [.s, .x, .i] ∧ sameSurroundings s t ∧
    t.io = s.io) ∧
  (∀ (s t : State) (o : Operand), exec (.addaMem o) s = .next t →
    t.b = s.b ∧ indexRegistersAfter o s t ∧ sameMemory s t ∧ keeps s t [.s, .x, .i] ∧ sameSurroundings s t ∧
    ∀ (ea : Word) (s1 : State), effectiveAddress s o = .ok (ea, s1) →
      t.io = readEvents s.platform ea ++ (pointerEvents s o ++ s.io))

/-- INCA: A plus one modulo 256; N, Z by the result; V exactly if A was `$7F`; S X H I C kept; PC the next address. Object code `42`. -/
def Obligations.IncaAddsOne : Prop :=
  encode .inca = [0x42#8] ∧
  ∀ s : State, ∃ t : State, exec .inca s = .next t ∧ t.a.toNat = (s.a.toNat + 1) % 256 ∧
    t.flag .n = t.a.getLsbD 7 ∧ (t.flag .z = true ↔ t.a = 0x00#8) ∧ (t.flag .v = true ↔ s.a = 0x7F#8) ∧
    keeps s t [.s, .x, .h, .i, .c] ∧ t.pc = s.pc + 1#16 ∧ t = { s with a := t.a, ccr := t.ccr, pc := t.pc }

/-- CLRB: B is 0, whatever it was; N = 0, Z = 1, V = 0, C = 0; S X H I kept; PC the next address. Object code `C7`. -/
def Obligations.ClrbClears : Prop :=
  encode .clrb = [0xC7#8] ∧
  ∀ s : State, ∃ t : State, exec .clrb s = .next t ∧ t.b = 0x00#8 ∧
    t.flag .n = false ∧ t.flag .z = true ∧ t.flag .v = false ∧ t.flag .c = false ∧
    keeps s t [.s, .x, .h, .i] ∧ t.pc = s.pc + 1#16 ∧ t = { s with b := t.b, ccr := t.ccr, pc := t.pc }

/-- DECB: B minus one modulo 256; N, Z by the result; V exactly if B was `$80`; S X H I C kept; PC the next address. Object code `53`. -/
def Obligations.DecbSubtractsOne : Prop :=
  encode .decb = [0x53#8] ∧
  ∀ s : State, ∃ t : State, exec .decb s = .next t ∧ t.b.toNat = (s.b.toNat + 255) % 256 ∧
    t.flag .n = t.b.getLsbD 7 ∧ (t.flag .z = true ↔ t.b = 0x00#8) ∧ (t.flag .v = true ↔ s.b = 0x80#8) ∧
    keeps s t [.s, .x, .h, .i, .c] ∧ t.pc = s.pc + 1#16 ∧ t = { s with b := t.b, ccr := t.ccr, pc := t.pc }

/-- LSRA: bit 7 is 0, every other bit is its left neighbour; C is the old bit 0; N = 0; Z by the result; V is N xor C after the
shift; S X H I kept; PC the next address. Object code `44`. -/
def Obligations.LsraShiftsRight : Prop :=
  encode .lsra = [0x44#8] ∧
  ∀ s : State, ∃ t : State, exec .lsra s = .next t ∧ t.a.getLsbD 7 = false ∧
    (∀ k : Nat, k < 7 → t.a.getLsbD k = s.a.getLsbD (k + 1)) ∧
    t.flag .c = s.a.getLsbD 0 ∧ t.flag .n = false ∧ (t.flag .z = true ↔ t.a = 0x00#8) ∧
    t.flag .v = xor (t.flag .n) (t.flag .c) ∧
    keeps s t [.s, .x, .h, .i] ∧ t.pc = s.pc + 1#16 ∧ t = { s with a := t.a, ccr := t.ccr, pc := t.pc }

/-- ASRA: bit 7 keeps its value, every other bit is its left neighbour; C is the old bit 0; N, Z by the result; V is N xor C after
the shift; S X H I kept; PC the next address. Object code `47`. -/
def Obligations.AsraShiftsRight : Prop :=
  encode .asra = [0x47#8] ∧
  ∀ s : State, ∃ t : State, exec .asra s = .next t ∧ t.a.getLsbD 7 = s.a.getLsbD 7 ∧
    (∀ k : Nat, k < 7 → t.a.getLsbD k = s.a.getLsbD (k + 1)) ∧
    t.flag .c = s.a.getLsbD 0 ∧ t.flag .n = t.a.getLsbD 7 ∧ (t.flag .z = true ↔ t.a = 0x00#8) ∧
    t.flag .v = xor (t.flag .n) (t.flag .c) ∧
    keeps s t [.s, .x, .h, .i] ∧ t.pc = s.pc + 1#16 ∧ t = { s with a := t.a, ccr := t.ccr, pc := t.pc }

/-- LSRA halves the unsigned value, rounding down; ASRA halves the two's complement value, rounding toward minus infinity; the
remainder is in C (R141, R142, corner cases). -/
def Obligations.ShiftsHalveWithRemainder : Prop :=
  ∀ s : State, ∃ l r : State, exec .lsra s = .next l ∧ exec .asra s = .next r ∧
    s.a.toNat = 2 * l.a.toNat + (l.flag .c).toNat ∧ s.a.toInt = 2 * r.a.toInt + ((r.flag .c).toNat : Int)

/-- What the five instructions without an operand leave unchanged: the other accumulator, X, Y, SP, every byte of memory, and the
CCR bits S X H I (and C, for INCA and DECB). They access no location with side effects. -/
def Obligations.InherentFrame : Prop :=
  ∀ s t : State,
    (exec .inca s = .next t → t.b = s.b ∧ sameIndexRegisters s t ∧ sameMemory s t ∧ keeps s t [.s, .x, .h, .i, .c] ∧
      sameSurroundings s t ∧ t.io = s.io) ∧
    (exec .decb s = .next t → t.a = s.a ∧ sameIndexRegisters s t ∧ sameMemory s t ∧ keeps s t [.s, .x, .h, .i, .c] ∧
      sameSurroundings s t ∧ t.io = s.io) ∧
    (exec .clrb s = .next t → t.a = s.a ∧ sameIndexRegisters s t ∧ sameMemory s t ∧ keeps s t [.s, .x, .h, .i] ∧
      sameSurroundings s t ∧ t.io = s.io) ∧
    (exec .lsra s = .next t ∨ exec .asra s = .next t → t.b = s.b ∧ sameIndexRegisters s t ∧ sameMemory s t ∧
      keeps s t [.s, .x, .h, .i] ∧ sameSurroundings s t ∧ t.io = s.io)

/-! ## Address modes (`30_encoding.md` section 5, R72 to R82; the postbyte layout is general knowledge, log 8) -/

/-- DIR reaches `$00:dd`, so `$0000` to `$00FF` (R72; general knowledge and decision D2, log 7); EXT reaches the address in the
instruction, high-order byte first (R73). No register changes. -/
def Obligations.DirectAndExtendedAddress : Prop :=
  (∀ (s : State) (d : Byte), ∃ ea : Word, effectiveAddress s (.dir d) = .ok (ea, s) ∧ ea.toNat = d.toNat) ∧
  (∀ (s : State) (hh ll : Byte), ∃ i : Instr, decode [0xB6#8, hh, ll] = .ok i ∧ ∃ ea : Word, i = .ldaaMem (.ext ea) ∧
    effectiveAddress s (.ext ea) = .ok (ea, s) ∧ ea.toNat = 256 * hh.toNat + ll.toNat)

/-- The constant-offset forms reach base plus offset modulo 2^16, the 5-bit and 9-bit offsets signed; the base is X, Y, SP, or for
PC the address of the byte after the whole instruction, 2, 3 or 4 bytes on. No register changes (R75, R76, R79, R80; general
knowledge, log 8, 9; decisions D4, D16). -/
def Obligations.ConstantOffsetAddress : Prop :=
  ∀ (s : State) (r : BaseReg) (n5 : BitVec 5) (n9 : BitVec 9) (n16 : Word),
    let base := fun len : Nat => match r with
      | .x => s.x.toNat
      | .y => s.y.toNat
      | .sp => s.sp.toNat
      | .pc => s.pc.toNat + len
    ∃ e5 e9 e16 : Word,
      effectiveAddress s (.idx (.off5 r n5)) = .ok (e5, s) ∧ (e5.toNat : Int) = ((base 2 : Int) + n5.toInt) % 65536 ∧
      effectiveAddress s (.idx (.off9 r n9)) = .ok (e9, s) ∧ (e9.toNat : Int) = ((base 3 : Int) + n9.toInt) % 65536 ∧
      effectiveAddress s (.idx (.off16 r n16)) = .ok (e16, s) ∧ e16.toNat = (base 4 + n16.toNat) % 65536

/-- The automatic form adjusts its register by +1 to +8 (`0000` to `0111`) or -8 to -1 (`1000` to `1111`), modulo 2^16, and reaches
the adjusted address if it is a pre form, the old one if it is a post form; nothing else changes (R77; general knowledge, log
8). -/
def Obligations.AutomaticFormAdjustsRegister : Prop :=
  ∀ (s : State) (r : AutoReg) (w : AutoWhen) (n : BitVec 4),
    ∃ (ea : Word) (s1 : State), effectiveAddress s (.idx (.auto r w n)) = .ok (ea, s1) ∧
      ((autoValue s1 r).toNat : Int) =
        (((autoValue s r).toNat : Int) + (if n.toNat < 8 then (n.toNat : Int) + 1 else (n.toNat : Int) - 16)) % 65536 ∧
      (w = .pre → ea = autoValue s1 r) ∧ (w = .post → ea = autoValue s r) ∧
      (∀ q : AutoReg, q ≠ r → autoValue s1 q = autoValue s q) ∧
      s1 = { s with x := s1.x, y := s1.y, sp := s1.sp }

/-- The accumulator-offset forms reach base plus A, B (unsigned) or D = A:B, modulo 2^16. No register changes (R22, R75, R78; general
knowledge, log 4, 8, 9). -/
def Obligations.AccumulatorOffsetAddress : Prop :=
  ∀ (s : State) (r : BaseReg),
    let base := match r with
      | .x => s.x.toNat
      | .y => s.y.toNat
      | .sp => s.sp.toNat
      | .pc => s.pc.toNat + 2
    ∃ ea eb ed : Word,
      effectiveAddress s (.idx (.acc r .a)) = .ok (ea, s) ∧ ea.toNat = (base + s.a.toNat) % 65536 ∧
      effectiveAddress s (.idx (.acc r .b)) = .ok (eb, s) ∧ eb.toNat = (base + s.b.toNat) % 65536 ∧
      effectiveAddress s (.idx (.accD r)) = .ok (ed, s) ∧ ed.toNat = (base + 256 * s.a.toNat + s.b.toNat) % 65536

/-- The indirect forms reach the big-endian pointer held at base plus D, or base plus the 16-bit offset; where the pointer cannot be
read they are refused for that reason. No register changes, and nothing else but what locations with side effects saw of the
pointer read (R75, R81, R82; general knowledge, log 8, 9; the model's form, log 2). -/
def Obligations.IndirectAddressIsPointer : Prop :=
  ∀ (s : State) (r : BaseReg) (n p : Word) (e : Refusal),
    let base := fun len : Nat => match r with
      | .x => s.x.toNat
      | .y => s.y.toNat
      | .sp => s.sp.toNat
      | .pc => s.pc.toNat + len
    (p.toNat = (base 2 + 256 * s.a.toNat + s.b.toNat) % 65536 →
      (∀ (ea : Word) (w : State), readWord s p = .ok (ea, w) →
        effectiveAddress s (.idx (.indD r)) = .ok (ea, w) ∧ w = { s with io := wordReadEvents s.platform p ++ s.io }) ∧
      (readWord s p = .error e → effectiveAddress s (.idx (.indD r)) = .error e)) ∧
    (p.toNat = (base 4 + n.toNat) % 65536 →
      (∀ (ea : Word) (w : State), readWord s p = .ok (ea, w) →
        effectiveAddress s (.idx (.ind16 r n)) = .ok (ea, w) ∧ w = { s with io := wordReadEvents s.platform p ++ s.io }) ∧
      (readWord s p = .error e → effectiveAddress s (.idx (.ind16 r n)) = .error e))

/-- An offset that fits the 5-bit form reaches the same address by the 9-bit and the 16-bit form, for the base registers that do not
move with the length (R68, derived from R74 to R83; log 8). -/
def Obligations.OffsetEncodingsAgree : Prop :=
  ∀ (s : State) (r : BaseReg) (n : BitVec 5), r ≠ .pc →
    effectiveAddress s (.idx (.off9 r (n.signExtend 9))) = effectiveAddress s (.idx (.off5 r n)) ∧
    effectiveAddress s (.idx (.off16 r (n.signExtend 16))) = effectiveAddress s (.idx (.off5 r n))

/-- What the tools choose reaches what was written: a plain address, as DIR or EXT, reaches that address, and a constant offset from
-32768 to 65535, in the shortest form, reaches base plus it, whichever the base is; for PC the base is the address after the
instruction of 2, 3 or 4 bytes that was chosen (R75, R93; general knowledge, log 9, 28). -/
def Obligations.AssemblerChoiceReachesOperand : Prop :=
  (∀ (s : State) (a : Word), effectiveAddress s (chosenAddress a) = .ok (a, s)) ∧
  (∀ (s : State) (r : BaseReg) (n : Int), -32768 ≤ n → n ≤ 65535 →
    let base : Nat := match r with
      | .x => s.x.toNat
      | .y => s.y.toNat
      | .sp => s.sp.toNat
      | .pc => s.pc.toNat + (if -16 ≤ n ∧ n ≤ 15 then 2 else if -256 ≤ n ∧ n ≤ 255 then 3 else 4)
    ∃ ea : Word, effectiveAddress s (.idx (chosenForm r n)) = .ok (ea, s) ∧ (ea.toNat : Int) = ((base : Int) + n) % 65536)
end

