-- ==== Sys2Proof/Laws/Decode.lean ====
section
/-! SUPPORT. What the decoder can answer, whatever it reads from. -/

namespace Sys2Proof

theorem read_bind_ok {ε α β : Type} (x : Except ε α) (f : α → Except ε β) (r : β) :
    (x >>= f) = .ok r ↔ ∃ a, x = .ok a ∧ f a = .ok r := by
  cases x <;> simp [bind, Except.bind]

theorem read_bind_error {ε α β : Type} (x : Except ε α) (f : α → Except ε β) (e : ε) :
    (x >>= f) = .error e ↔ x = .error e ∨ ∃ a, x = .ok a ∧ f a = .error e := by
  cases x <;> simp [bind, Except.bind]

theorem read_pure_ok {ε α : Type} (a r : α) : (pure a : Except ε α) = .ok r ↔ a = r := by
  simp [pure, Except.pure]

theorem read_pure_error {ε α : Type} (a : α) (e : ε) : ¬ (pure a : Except ε α) = .error e := by
  simp [pure, Except.pure]

/-- `wordOf` and its two halves. -/
theorem wordOf_hiByte_loByte (v : Word) : wordOf (hiByte v) (loByte v) = v := by
  apply BitVec.eq_of_getLsbD_eq
  intro i hi
  simp only [wordOf, hiByte, loByte, BitVec.getLsbD_append, BitVec.getLsbD_extractLsb']
  split
  · next h => simp [h]
  · next h =>
    have h1 : i - 8 < 8 := by omega
    have h2 : 8 + (i - 8) = i := by omega
    simp [h1, h2]

/-- A second reader that has every byte the first one has. -/
def Extends {ε δ : Type} (rd : Nat → Except ε Byte) (rd' : Nat → Except δ Byte) : Prop :=
  ∀ k b, rd k = .ok b → rd' k = .ok b

theorem readPair_extends {ε δ : Type} {rd : Nat → Except ε Byte} {rd' : Nat → Except δ Byte} (h : Extends rd rd')
    (k : Nat) (w : Word) (hw : readPair rd k = .ok w) : readPair rd' k = .ok w := by
  unfold readPair at *
  simp only [read_bind_ok] at *
  obtain ⟨hi, h1, lo, h2, h3⟩ := hw
  exact ⟨hi, h _ _ h1, lo, h _ _ h2, by simpa [read_pure_ok] using h3⟩

theorem readIndexed_extends {ε δ : Type} {rd : Nat → Except ε Byte} {rd' : Nat → Except δ Byte} (h : Extends rd rd')
    (f : IndexedForm) (hf : readIndexed rd = .ok f) : readIndexed rd' = .ok f := by
  unfold readIndexed at *
  rw [read_bind_ok] at *
  obtain ⟨xb, h1, h2⟩ := hf
  refine ⟨xb, h _ _ h1, ?_⟩
  split at h2
  · simpa [read_pure_ok] using h2
  · rw [read_bind_ok] at *
    obtain ⟨ff, h3, h4⟩ := h2
    exact ⟨ff, h _ _ h3, by simpa [read_pure_ok] using h4⟩
  · rw [read_bind_ok] at *
    obtain ⟨n, h3, h4⟩ := h2
    exact ⟨n, readPair_extends h _ _ h3, by simpa [read_pure_ok] using h4⟩

/-- The decoder answers the same from any reader that has the bytes. -/
theorem decodeFrom_extends {ε δ : Type} {rd : Nat → Except ε Byte} {rd' : Nat → Except δ Byte} (h : Extends rd rd')
    (ns : Byte → ε) (ns' : Byte → δ) (i : Instr) (hi : decodeFrom rd ns = .ok i) : decodeFrom rd' ns' = .ok i := by
  unfold decodeFrom at *
  rw [read_bind_ok] at *
  obtain ⟨op, h1, h2⟩ := hi
  refine ⟨op, h _ _ h1, ?_⟩
  split at h2
  · cases h2
  · simpa [read_pure_ok] using h2
  · rw [read_bind_ok] at *
    obtain ⟨ii, h3, h4⟩ := h2
    exact ⟨ii, h _ _ h3, by simpa [read_pure_ok] using h4⟩
  · rw [read_bind_ok] at *
    obtain ⟨dd, h3, h4⟩ := h2
    exact ⟨dd, h _ _ h3, by simpa [read_pure_ok] using h4⟩
  · rw [read_bind_ok] at *
    obtain ⟨a, h3, h4⟩ := h2
    exact ⟨a, readPair_extends h _ _ h3, by simpa [read_pure_ok] using h4⟩
  · rw [read_bind_ok] at *
    obtain ⟨f, h3, h4⟩ := h2
    exact ⟨f, readIndexed_extends h _ h3, by simpa [read_pure_ok] using h4⟩

theorem readPair_error {ε : Type} {rd : Nat → Except ε Byte} {k : Nat} {e : ε} (h : readPair rd k = .error e) :
    ∃ j, rd j = .error e := by
  unfold readPair at h
  simp only [read_bind_error, read_pure_error, and_false, exists_false, or_false] at h
  rcases h with h | ⟨_, _, h⟩ <;> exact ⟨_, h⟩

theorem readIndexed_error {ε : Type} {rd : Nat → Except ε Byte} {e : ε} (h : readIndexed rd = .error e) :
    ∃ j, rd j = .error e := by
  unfold readIndexed at h
  rw [read_bind_error] at h
  rcases h with h | ⟨xb, -, h⟩
  · exact ⟨_, h⟩
  · split at h
    · exact absurd h (read_pure_error _ _)
    · rw [read_bind_error] at h
      rcases h with h | ⟨_, _, h⟩
      · exact ⟨_, h⟩
      · exact absurd h (read_pure_error _ _)
    · rw [read_bind_error] at h
      rcases h with h | ⟨_, _, h⟩
      · exact readPair_error h
      · exact absurd h (read_pure_error _ _)

/-- Why the decoder rejects: a byte it cannot have, or an opcode byte that is not shown. -/
theorem decodeFrom_error {ε : Type} {rd : Nat → Except ε Byte} {ns : Byte → ε} {e : ε}
    (h : decodeFrom rd ns = .error e) :
    (∃ k, rd k = .error e) ∨ ∃ op, rd 0 = .ok op ∧ opcodeMap op = none ∧ e = ns op := by
  unfold decodeFrom at h
  rw [read_bind_error] at h
  rcases h with h | ⟨op, h0, h⟩
  · exact .inl ⟨_, h⟩
  · split at h
    · next hm => exact .inr ⟨op, h0, hm, by cases h; rfl⟩
    · exact absurd h (read_pure_error _ _)
    all_goals
      rw [read_bind_error] at h
      rcases h with h | ⟨_, _, h⟩
      · first
        | exact .inl ⟨_, h⟩
        | exact .inl (readPair_error h)
        | exact .inl (readIndexed_error h)
      · exact absurd h (read_pure_error _ _)

theorem decodeFrom_not_shown {ε : Type} {rd : Nat → Except ε Byte} {ns : Byte → ε} {op : Byte}
    (h0 : rd 0 = .ok op) (hm : opcodeMap op = none) : decodeFrom rd ns = .error (ns op) := by
  unfold decodeFrom
  rw [read_bind_error]
  refine .inr ⟨op, h0, ?_⟩
  rw [hm]
  rfl

theorem byteOfList_ok (bs : List Byte) (k : Nat) (b : Byte) : byteOfList bs k = .ok b ↔ bs[k]? = some b := by
  unfold byteOfList
  cases bs[k]? <;> simp

theorem byteOfList_error (bs : List Byte) (k : Nat) (e : DecodeError) (h : byteOfList bs k = .error e) :
    e = .truncated := by
  unfold byteOfList at h
  cases hb : bs[k]? <;> simp [hb] at h
  exact h.symm

/-- Where a list of bytes ends before the instruction does, the decoder asks any reader that has those bytes for the next one, and
answers the reason it cannot be had. -/
theorem decodeFrom_truncated {ε : Type} {rd : Nat → Except ε Byte} {ns : Byte → ε} {e : ε} (bs : List Byte)
    (h : ∀ k b, bs[k]? = some b → rd k = .ok b) (he : rd bs.length = .error e) (hd : decode bs = .error .truncated) :
    decodeFrom rd ns = .error e := by
  unfold decode at hd
  rcases bs with _ | ⟨b0, bs⟩
  · exact (read_bind_error ..).mpr (.inl he)
  have h0 : rd 0 = .ok b0 := h 0 b0 rfl
  refine (read_bind_error ..).mpr (.inr ⟨b0, h0, ?_⟩)
  obtain ⟨op, ho, hd⟩ := ((read_bind_error ..).mp hd).resolve_left (fun h => by cases h)
  cases ho
  rcases bs with _ | ⟨b1, bs⟩
  · have e1 : rd 1 = .error e := he
    split at hd <;> simp_all [readPair, readIndexed, byteOfList, bind, Except.bind, pure, Except.pure, throw, throwThe,
      MonadExceptOf.throw]
  have h1 : rd 1 = .ok b1 := h 1 b1 rfl
  rcases bs with _ | ⟨b2, bs⟩
  · have e2 : rd 2 = .error e := he
    split at hd <;> (try cases hp : postbyteShape b1) <;>
      simp_all [readPair, readIndexed, byteOfList, bind, Except.bind, pure, Except.pure, throw, throwThe,
        MonadExceptOf.throw]
  have h2 : rd 2 = .ok b2 := h 2 b2 rfl
  rcases bs with _ | ⟨b3, bs⟩
  · have e3 : rd 3 = .error e := he
    split at hd <;> (try cases hp : postbyteShape b1) <;>
      simp_all [readPair, readIndexed, byteOfList, bind, Except.bind, pure, Except.pure, throw, throwThe,
        MonadExceptOf.throw]
  · split at hd <;> (try cases hp : postbyteShape b1) <;>
      simp_all [readPair, readIndexed, byteOfList, bind, Except.bind, pure, Except.pure, throw, throwThe,
        MonadExceptOf.throw]

end Sys2Proof
end

