-- ==== Sys2Proof/Laws/Flags.lean ====
section
/-! SUPPORT. What each flag function does to each bit: proofs cite these and unfold none. -/

namespace Sys2Proof.Machine

theorem ccrBit_ccrPut (c : Byte) (k j : CcrBit) (b : Bool) :
    ccrBit (ccrPut c k b) j = if j = k then b else ccrBit c j := by
  cases k <;> cases j <;> cases b <;> simp [ccrBit, ccrPut, CcrBit.index]

@[simp] theorem ccrBit_ccrPut_same (c : Byte) (k : CcrBit) (b : Bool) : ccrBit (ccrPut c k b) k = b := by
  simp [ccrBit_ccrPut]

@[simp] theorem ccrBit_ccrPut_other (c : Byte) (k j : CcrBit) (b : Bool) (h : j ≠ k) :
    ccrBit (ccrPut c k b) j = ccrBit c j := by
  simp [ccrBit_ccrPut, h]

/-- A CCR is its eight bits. -/
theorem ccr_ext (c d : Byte) (h : ∀ k, ccrBit c k = ccrBit d k) : c = d := by
  apply BitVec.eq_of_getLsbD_eq
  intro i hi
  have hs := h .s; have hx := h .x; have hh := h .h; have hI := h .i
  have hn := h .n; have hz := h .z; have hv := h .v; have hc := h .c
  simp only [ccrBit, CcrBit.index] at *
  have : i = 0 ∨ i = 1 ∨ i = 2 ∨ i = 3 ∨ i = 4 ∨ i = 5 ∨ i = 6 ∨ i = 7 := by omega
  rcases this with rfl | rfl | rfl | rfl | rfl | rfl | rfl | rfl <;> assumption

/-- Writing back the value a bit has changes nothing. -/
theorem ccrPut_self (c : Byte) (k : CcrBit) : ccrPut c k (ccrBit c k) = c := by
  apply ccr_ext
  intro j
  rw [ccrBit_ccrPut]
  split
  · next h => rw [h]
  · rfl

theorem ccrBit_setNZ8 (c r : Byte) (k : CcrBit) :
    ccrBit (setNZ8 c r) k = if k = .z then r == 0x00#8 else if k = .n then r.getLsbD 7 else ccrBit c k := by
  cases k <;> simp [setNZ8]

theorem ccrBit_moveFlags (c r : Byte) (k : CcrBit) :
    ccrBit (moveFlags c r) k =
      match k with
      | .n => r.getLsbD 7
      | .z => r == 0x00#8
      | .v => false
      | _ => ccrBit c k := by
  cases k <;> simp [moveFlags, ccrBit_setNZ8]

theorem ccrBit_addFlags (c a m r : Byte) (k : CcrBit) :
    ccrBit (addFlags c a m r) k =
      match k with
      | .h => addHalfCarry a m r
      | .n => r.getLsbD 7
      | .z => r == 0x00#8
      | .v => addOverflow a m r
      | .c => addCarry a m r
      | _ => ccrBit c k := by
  cases k <;> simp [addFlags, ccrBit_setNZ8]

theorem ccrBit_incFlags (c old r : Byte) (k : CcrBit) :
    ccrBit (incFlags c old r) k =
      match k with
      | .n => r.getLsbD 7
      | .z => r == 0x00#8
      | .v => old == 0x7F#8
      | _ => ccrBit c k := by
  cases k <;> simp [incFlags, ccrBit_setNZ8]

theorem ccrBit_decFlags (c old r : Byte) (k : CcrBit) :
    ccrBit (decFlags c old r) k =
      match k with
      | .n => r.getLsbD 7
      | .z => r == 0x00#8
      | .v => old == 0x80#8
      | _ => ccrBit c k := by
  cases k <;> simp [decFlags, ccrBit_setNZ8]

theorem ccrBit_clrFlags (c : Byte) (k : CcrBit) :
    ccrBit (clrFlags c) k =
      match k with
      | .n => false
      | .z => true
      | .v => false
      | .c => false
      | _ => ccrBit c k := by
  cases k <;> simp [clrFlags]

theorem ccrBit_lsrFlags (c old r : Byte) (k : CcrBit) :
    ccrBit (lsrFlags c old r) k =
      match k with
      | .n => false
      | .z => r == 0x00#8
      | .v => old.getLsbD 0
      | .c => old.getLsbD 0
      | _ => ccrBit c k := by
  cases k <;> simp [lsrFlags]

theorem ccrBit_asrFlags (c old r : Byte) (k : CcrBit) :
    ccrBit (asrFlags c old r) k =
      match k with
      | .n => r.getLsbD 7
      | .z => r == 0x00#8
      | .v => xor (r.getLsbD 7) (old.getLsbD 0)
      | .c => old.getLsbD 0
      | _ => ccrBit c k := by
  cases k <;> simp [asrFlags, ccrBit_setNZ8]

end Sys2Proof.Machine
end

