-- ==== Sys2Proof/Laws/Memory.lean ====
section
/-! SUPPORT. The laws of memory as a canonical list: read after write, and every operation keeps the form. -/

namespace Sys2Proof.Machine

@[simp] theorem Memory.read_nil (a : Nat) : Memory.read [] a = none := rfl

theorem Memory.read_cons (k : Nat) (v : Byte) (m : List Host.Cell) (a : Nat) :
    Memory.read ((k, v) :: m) a = if k = a then some v else Memory.read m a := rfl

@[simp] theorem Memory.read_write_same (m : List Host.Cell) (a : Nat) (v : Byte) :
    Memory.read (Memory.write m a v) a = some v := by
  induction m with
  | nil => simp [Memory.write, Memory.read_cons]
  | cons c m ih =>
    obtain ⟨k, w⟩ := c
    simp only [Memory.write]
    split
    · simp [Memory.read_cons]
    · split
      · simp [Memory.read_cons]
      · rw [Memory.read_cons, if_neg (by omega), ih]

theorem Memory.read_write_other (m : List Host.Cell) (a b : Nat) (v : Byte) (h : b ≠ a) :
    Memory.read (Memory.write m a v) b = Memory.read m b := by
  induction m with
  | nil => simp [Memory.write, Memory.read_cons, Ne.symm h]
  | cons c m ih =>
    obtain ⟨k, w⟩ := c
    simp only [Memory.write]
    split
    · simp [Memory.read_cons, Ne.symm h]
    · split
      · next hk => subst hk; simp [Memory.read_cons, Ne.symm h]
      · simp only [Memory.read_cons, ih]

/-- Read after write at the machine's addresses. -/
theorem Memory.read_write_word (m : List Host.Cell) (a b : Word) (v : Byte) :
    Memory.read (Memory.write m a.toNat v) b.toNat = if b = a then some v else Memory.read m b.toNat := by
  split
  · next h => subst h; exact Memory.read_write_same ..
  · next h => exact Memory.read_write_other _ _ _ _ (fun hn => h (BitVec.eq_of_toNat_eq hn))

/-- A list whose addresses are above `k` keeps them so when an address above `k` is written. -/
theorem Memory.write_all_above (m : List Host.Cell) (k a : Nat) (v : Byte) (h : k < a)
    (hm : m.all (fun c => decide (k < c.1)) = true) : (Memory.write m a v).all (fun c => decide (k < c.1)) = true := by
  induction m with
  | nil => simp [Memory.write, h]
  | cons c m ih =>
    obtain ⟨j, w⟩ := c
    simp only [List.all_cons, Bool.and_eq_true, decide_eq_true_eq] at hm
    simp only [Memory.write]
    split
    · simp only [List.all_cons, Bool.and_eq_true, decide_eq_true_eq]; exact ⟨h, hm⟩
    · split
      · simp only [List.all_cons, Bool.and_eq_true, decide_eq_true_eq]; exact ⟨h, hm.2⟩
      · simp only [List.all_cons, Bool.and_eq_true, decide_eq_true_eq]; exact ⟨hm.1, ih hm.2⟩

theorem Memory.wf_cons (k : Nat) (v : Byte) (m : List Host.Cell) :
    Memory.wf ((k, v) :: m) = true ↔
      k < 65536 ∧ m.all (fun c => decide (k < c.1)) = true ∧ Memory.wf m = true := by
  simp [Memory.wf, Memory.unlisted, and_assoc]

/-- A write keeps the canonical form. -/
theorem Memory.write_wf (m : List Host.Cell) (a : Nat) (v : Byte) (ha : a < 65536) (hm : Memory.wf m = true) :
    Memory.wf (Memory.write m a v) = true := by
  induction m with
  | nil => exact (Memory.wf_cons ..).mpr ⟨ha, rfl, rfl⟩
  | cons c m ih =>
    obtain ⟨k, w⟩ := c
    have hm' := (Memory.wf_cons k w m).mp hm
    obtain ⟨hk, hall, hwf⟩ := hm'
    simp only [Memory.write]
    split
    · next hlt =>
      refine (Memory.wf_cons ..).mpr ⟨ha, ?_, hm⟩
      simp only [List.all_cons, Bool.and_eq_true, decide_eq_true_eq]
      refine ⟨hlt, ?_⟩
      rw [List.all_eq_true] at hall ⊢
      intro c hc
      have := hall c hc
      simp only [decide_eq_true_eq] at this ⊢
      omega
    · split
      · next heq => subst heq; exact (Memory.wf_cons ..).mpr ⟨hk, hall, hwf⟩
      · exact (Memory.wf_cons ..).mpr ⟨hk, Memory.write_all_above m k a v (by omega) hall, ih hwf⟩

/-- Dropping entries keeps the canonical form. -/
theorem Memory.filter_wf (m : List Host.Cell) (p : Host.Cell → Bool) (hm : Memory.wf m = true) :
    Memory.wf (m.filter p) = true := by
  induction m with
  | nil => rfl
  | cons c m ih =>
    obtain ⟨k, w⟩ := c
    obtain ⟨hk, hall, hwf⟩ := (Memory.wf_cons k w m).mp hm
    rw [List.filter_cons]
    split
    · refine (Memory.wf_cons ..).mpr ⟨hk, ?_, ih hwf⟩
      rw [List.all_eq_true] at hall ⊢
      intro c hc
      exact hall c (List.mem_filter.mp hc).1
    · exact ih hwf

/-- What a list reads as after entries were dropped by their address. -/
theorem Memory.read_filter (m : List Host.Cell) (p : Nat → Bool) (a : Nat) :
    Memory.read (m.filter (fun c => p c.1)) a = if p a then Memory.read m a else none := by
  induction m with
  | nil => simp
  | cons c m ih =>
    obtain ⟨k, w⟩ := c
    rw [List.filter_cons]
    split
    · next hp =>
      simp only at hp
      rw [Memory.read_cons, Memory.read_cons, ih]
      by_cases hk : k = a
      · subst hk; simp [hp]
      · simp [hk]
    · next hp =>
      simp only [Bool.not_eq_true] at hp
      rw [Memory.read_cons, ih]
      by_cases hk : k = a
      · subst hk; simp [hp]
      · simp [hk]

/-- Storing several bytes keeps the canonical form. -/
theorem storeBytes_wf (bs : List Byte) (m : List Host.Cell) (a : Word) (hm : Memory.wf m = true) :
    Memory.wf (storeBytes m a bs) = true := by
  induction bs generalizing m a with
  | nil => exact hm
  | cons v rest ih => exact ih _ _ (Memory.write_wf m _ v a.isLt hm)

end Sys2Proof.Machine
end

