-- ==== Sys2Proof/Laws/Ops.lean ====
section
/-! SUPPORT. One specification per shared operation: what it can answer, and when. Proofs cite these and unfold no operation. -/

namespace Sys2Proof.Machine

/-! ## The sequencing of operations that may refuse -/

theorem bind_eq_ok {ε α β : Type} (x : Except ε α) (f : α → Except ε β) (r : β) :
    (x >>= f) = .ok r ↔ ∃ a, x = .ok a ∧ f a = .ok r := by
  cases x <;> simp [bind, Except.bind]

theorem pure_eq_ok {ε α : Type} (a r : α) : (pure a : Except ε α) = .ok r ↔ a = r := by
  simp [pure, Except.pure]

@[simp] theorem ok_bind {ε α β : Type} (a : α) (f : α → Except ε β) : ((Except.ok a : Except ε α) >>= f) = f a := rfl

@[simp] theorem error_bind {ε α β : Type} (e : ε) (f : α → Except ε β) :
    ((Except.error e : Except ε α) >>= f) = .error e := rfl

@[simp] theorem toOutcome_ok (s : State) : toOutcome (.ok s) = .next s := rfl

@[simp] theorem toOutcome_error (e : Refusal) : toOutcome (.error e) = .refused e := rfl

@[simp] theorem toOutcome_pure (s : State) : toOutcome (pure s) = .next s := rfl

theorem toOutcome_eq_next (r : Except Refusal State) (t : State) : toOutcome r = .next t ↔ r = .ok t := by
  cases r <;> simp

theorem toOutcome_ne_fault (r : Except Refusal State) (f : Fault) : toOutcome r ≠ .fault f := by
  cases r <;> simp

/-! ## One byte -/

theorem storable_iff (s : State) (a : Word) :
    storable s a = true ↔
      kindAt s.platform a ≠ .absent ∧ kindAt s.platform a ≠ .readOnly ∧ inCode s.platform a = false := by
  simp [storable, and_assoc]

theorem storable_congr (s t : State) (a : Word) (h : t.platform = s.platform) : storable t a = storable s a := by
  simp only [storable, h]

/-- What a one-byte read would answer. -/
theorem valueAt_eq_ok (s : State) (a : Word) (v : Byte) :
    valueAt s a = .ok v ↔
      (isDevice s.platform a = true ∧ v = Config.deviceValue s.io a) ∨
      ((kindAt s.platform a = .plain ∨ kindAt s.platform a = .readOnly) ∧ s.byteAt a = some v) := by
  unfold valueAt isDevice
  cases kindAt s.platform a <;> cases s.byteAt a <;> simp <;> exact eq_comm

/-- What a one-byte read can answer: a value, and the state with the access noted where the location has side effects. -/
theorem readByte_eq_ok (s t : State) (a : Word) (v : Byte) :
    readByte s a = .ok (v, t) ↔ valueAt s a = .ok v ∧ t = { s with io := readEvents s.platform a ++ s.io } := by
  unfold readByte
  cases valueAt s a <;> simp [pure, Except.pure, eq_comm]

theorem readByte_eq_error (s : State) (a : Word) (e : Refusal) : readByte s a = .error e ↔ valueAt s a = .error e := by
  unfold readByte
  cases valueAt s a <;> simp [pure, Except.pure]

theorem readEvents_of_not_device (p : Platform) (a : Word) (h : isDevice p a = false) : readEvents p a = [] := by
  unfold isDevice at h
  unfold readEvents
  cases hk : kindAt p a <;> simp_all

theorem writeEvents_of_not_device (p : Platform) (a : Word) (v : Byte) (h : isDevice p a = false) :
    writeEvents p a v = [] := by
  unfold isDevice at h
  unfold writeEvents
  cases hk : kindAt p a <;> simp_all

theorem readEvents_of_device (p : Platform) (a : Word) (h : isDevice p a = true) : readEvents p a = [.read a] := by
  unfold isDevice at h
  unfold readEvents
  cases hk : kindAt p a <;> simp_all

theorem writeEvents_of_device (p : Platform) (a : Word) (v : Byte) (h : isDevice p a = true) :
    writeEvents p a v = [.write a v] := by
  unfold isDevice at h
  unfold writeEvents
  cases hk : kindAt p a <;> simp_all

/-- Memory after a one-byte write, read back: a location with side effects holds no byte. -/
theorem read_memAfter (p : Platform) (m : List Host.Cell) (a b : Word) (v : Byte) :
    Memory.read (memAfter p m a v) b.toNat =
      if b = a then (if isDevice p a then Memory.read m a.toNat else some v) else Memory.read m b.toNat := by
  have w := Memory.read_write_word m a b v
  unfold memAfter isDevice
  cases kindAt p a <;> simp only [w] <;> (by_cases h : b = a <;> simp [h])

theorem memAfter_wf (p : Platform) (m : List Host.Cell) (a : Word) (v : Byte) (h : Memory.wf m = true) :
    Memory.wf (memAfter p m a v) = true := by
  unfold memAfter
  split
  · exact h
  all_goals exact Memory.write_wf m _ v a.isLt h

/-- What a one-byte write can answer: exactly where the byte is storable, and then one byte of memory is replaced, or the access
is noted. -/
theorem writeByte_eq_ok (s t : State) (a : Word) (v : Byte) :
    writeByte s a v = .ok t ↔
      storable s a = true ∧
        t = { s with mem := memAfter s.platform s.mem a v, io := writeEvents s.platform a v ++ s.io } := by
  rw [storable_iff]
  unfold writeByte
  cases kindAt s.platform a <;> cases inCode s.platform a <;> simp [eq_comm]

/-- A one-byte write, in the words of statements. -/
theorem writeByte_byteWritten (s t : State) (a : Word) (v : Byte) (h : writeByte s a v = .ok t) : byteWritten s t a v := by
  obtain ⟨-, rfl⟩ := (writeByte_eq_ok ..).mp h
  have rd (b : Word) := read_memAfter s.platform s.mem a b v
  refine ⟨(rd a).trans ?_, fun b hb => (rd b).trans (if_neg hb), ?_⟩
  · rw [if_pos rfl]; rfl
  · cases hd : isDevice s.platform a
    · simp [writeEvents_of_not_device _ _ _ hd]
    · simp [writeEvents_of_device _ _ _ hd]

/-- What a one-byte read would answer depends on the map, the one byte and, for a device, what the devices saw. -/
theorem valueAt_congr (s t : State) (a : Word) (hp : t.platform = s.platform) (hb : t.byteAt a = s.byteAt a)
    (hd : isDevice s.platform a = true → t.io = s.io) : valueAt t a = valueAt s a := by
  unfold isDevice at hd
  simp only [valueAt, hp, hb]
  cases hk : kindAt s.platform a <;> simp_all

/-- A byte without side effects that admits stores and has a value is read, and the read changes nothing. -/
theorem readByte_of_storable (s : State) (a : Word) (v : Byte) (h : storable s a = true) (hd : isDevice s.platform a = false)
    (hb : s.byteAt a = some v) : readByte s a = .ok (v, s) := by
  rw [storable_iff] at h
  refine (readByte_eq_ok ..).mpr ⟨(valueAt_eq_ok ..).mpr (.inr ⟨?_, hb⟩), ?_⟩
  · unfold isDevice at hd
    cases hk : kindAt s.platform a <;> simp_all
  · rw [readEvents_of_not_device _ _ hd]; rfl

/-! ## Two bytes -/

/-- The state between the two accesses of a two-byte read. -/
def afterRead (s : State) (a : Word) : State := { s with io := readEvents s.platform a ++ s.io }

/-- What a two-byte read can answer. -/
theorem readWord_eq_ok (s t : State) (a v : Word) :
    readWord s a = .ok (v, t) ↔
      ∃ hi lo, valueAt s a = .ok hi ∧ valueAt (afterRead s a) (a + 1#16) = .ok lo ∧ v = wordOf hi lo ∧
        t = { s with io := wordReadEvents s.platform a ++ s.io } := by
  unfold readWord
  simp only [bind_eq_ok, pure_eq_ok, Prod.exists, readByte_eq_ok, Prod.mk.injEq, wordReadEvents, List.append_assoc]
  constructor
  · rintro ⟨hi, _, ⟨h1, rfl⟩, lo, _, ⟨h2, rfl⟩, rfl, rfl⟩; exact ⟨hi, lo, h1, h2, rfl, rfl⟩
  · rintro ⟨hi, lo, h1, h2, rfl, rfl⟩; exact ⟨hi, _, ⟨h1, rfl⟩, lo, _, ⟨h2, rfl⟩, rfl, rfl⟩

/-- A two-byte read of two bytes without side effects depends on the map and these two bytes, and changes nothing. -/
theorem readWord_congr (s t : State) (a v : Word) (hp : t.platform = s.platform) (hb : t.byteAt a = s.byteAt a)
    (hb' : t.byteAt (a + 1#16) = s.byteAt (a + 1#16)) (h : readWord s a = .ok (v, s)) : readWord t a = .ok (v, t) := by
  obtain ⟨hi, lo, h1, h2, rfl, hs⟩ := (readWord_eq_ok ..).mp h
  have hio : wordReadEvents s.platform a = [] := by
    have := congrArg (fun u => u.io.length) hs
    simp only [List.length_append] at this
    exact List.eq_nil_of_length_eq_zero (by omega)
  have hnil := List.append_eq_nil_iff.mp hio
  have nd (b : Word) (hr : readEvents s.platform b = []) : isDevice s.platform b = false := by
    cases hd : isDevice s.platform b
    · rfl
    · rw [readEvents_of_device _ _ hd] at hr; cases hr
  have d1 := nd _ hnil.2
  have d2 := nd _ hnil.1
  refine (readWord_eq_ok ..).mpr ⟨hi, lo, ?_, ?_, rfl, ?_⟩
  · rw [valueAt_congr s t a hp hb (fun h => by rw [d1] at h; cases h)]; exact h1
  · rw [valueAt_congr (afterRead s a) (afterRead t a) (a + 1#16) hp hb'
      (fun h => by rw [show isDevice (afterRead s a).platform (a + 1#16) = false from d2] at h; cases h)]
    exact h2
  · rw [show wordReadEvents t.platform a = [] from hp ▸ hio]; rfl

/-- What a two-byte write can answer: exactly where both bytes are storable. -/
theorem writeWord_eq_ok (s t : State) (a v : Word) :
    writeWord s a v = .ok t ↔
      storable s a = true ∧ storable s (a + 1#16) = true ∧
        t = { s with
          mem := memAfter s.platform (memAfter s.platform s.mem a (hiByte v)) (a + 1#16) (loByte v)
          io := wordWriteEvents s.platform a (hiByte v) (loByte v) ++ s.io } := by
  unfold writeWord
  simp only [bind_eq_ok, writeByte_eq_ok, wordWriteEvents, List.append_assoc]
  constructor
  · rintro ⟨u, ⟨h1, rfl⟩, h2, rfl⟩; exact ⟨h1, h2, rfl⟩
  · rintro ⟨h1, h2, rfl⟩; exact ⟨_, ⟨h1, rfl⟩, h2, rfl⟩

theorem wordOf_hi_lo (v : Word) : wordOf (hiByte v) (loByte v) = v := by
  apply BitVec.eq_of_getLsbD_eq
  intro i hi
  simp only [wordOf, hiByte, loByte, BitVec.getLsbD_append, BitVec.getLsbD_extractLsb']
  split
  · next h => simp [h]
  · next h =>
    have h1 : i - 8 < 8 := by omega
    have h2 : 8 + (i - 8) = i := by omega
    simp [h1, h2]

/-! ## The frame of an exception -/

/-- The memory after the nine bytes of R152 were stored, in the order of R163. -/
def framedMemory (s : State) (rtn : Word) : List Host.Cell :=
  let p := s.platform
  let m1 := memAfter p (memAfter p s.mem (s.sp - 2#16) (hiByte rtn)) (s.sp - 1#16) (loByte rtn)
  let m2 := memAfter p (memAfter p m1 (s.sp - 4#16) (hiByte s.y)) (s.sp - 3#16) (loByte s.y)
  let m3 := memAfter p (memAfter p m2 (s.sp - 6#16) (hiByte s.x)) (s.sp - 5#16) (loByte s.x)
  let m4 := memAfter p (memAfter p m3 (s.sp - 8#16) s.b) (s.sp - 7#16) s.a
  memAfter p m4 (s.sp - 9#16) s.ccr

theorem hiByte_wordOf (hi lo : Byte) : hiByte (wordOf hi lo) = hi := by
  apply BitVec.eq_of_getLsbD_eq
  intro i h
  rw [hiByte, wordOf, BitVec.getLsbD_extractLsb', BitVec.getLsbD_append]
  simp [h]

theorem loByte_wordOf (hi lo : Byte) : loByte (wordOf hi lo) = lo := by
  apply BitVec.eq_of_getLsbD_eq
  intro i h
  rw [loByte, wordOf, BitVec.getLsbD_extractLsb', BitVec.getLsbD_append]
  simp [h]

theorem stackRoom_iff (s : State) :
    stackRoom s = true ↔
      storable s (s.sp - 1#16) = true ∧ storable s (s.sp - 2#16) = true ∧ storable s (s.sp - 3#16) = true ∧
      storable s (s.sp - 4#16) = true ∧ storable s (s.sp - 5#16) = true ∧ storable s (s.sp - 6#16) = true ∧
      storable s (s.sp - 7#16) = true ∧ storable s (s.sp - 8#16) = true ∧ storable s (s.sp - 9#16) = true := by
  simp [stackRoom, List.range_succ]

theorem belowStackFree_iff (s : State) (a : Word) :
    belowStackFree s a = true ↔
      a ≠ s.sp - 1#16 ∧ a ≠ s.sp - 2#16 ∧ a ≠ s.sp - 3#16 ∧ a ≠ s.sp - 4#16 ∧ a ≠ s.sp - 5#16 ∧ a ≠ s.sp - 6#16 ∧
      a ≠ s.sp - 7#16 ∧ a ≠ s.sp - 8#16 ∧ a ≠ s.sp - 9#16 := by
  simp [belowStackFree, List.range_succ]

/-- The state after `SP <- SP - 2; MemWrite(SP, 2, v)`. -/
def pushedWord (s : State) (v : Word) : State :=
  { s with
    sp := s.sp - 2#16
    mem := memAfter s.platform (memAfter s.platform s.mem (s.sp - 2#16) (hiByte v)) (s.sp - 1#16) (loByte v)
    io := wordWriteEvents s.platform (s.sp - 2#16) (hiByte v) (loByte v) ++ s.io }

theorem storable_pushedWord (s : State) (v a : Word) : storable (pushedWord s v) a = storable s a := rfl

/-- What stacking a word can answer. -/
theorem pushWord_eq_ok (s t : State) (v : Word) :
    pushWord s v = .ok t ↔
      storable s (s.sp - 2#16) = true ∧ storable s (s.sp - 1#16) = true ∧ t = pushedWord s v := by
  have e : s.sp - 2#16 + 1#16 = s.sp - 1#16 := by bv_omega
  unfold pushWord
  rw [writeWord_eq_ok, e]
  rfl

/-- What stacking a byte can answer. -/
theorem pushByte_eq_ok (s t : State) (v : Byte) :
    pushByte s v = .ok t ↔
      storable s (s.sp - 1#16) = true ∧
        t = { s with
          sp := s.sp - 1#16
          mem := memAfter s.platform s.mem (s.sp - 1#16) v
          io := writeEvents s.platform (s.sp - 1#16) v ++ s.io } := by
  unfold pushByte
  rw [writeByte_eq_ok]
  rfl

/-- Offsets from SP add up. -/
theorem sp_sub_sub (p x y : Word) : p - x - y = p - (x + y) := sub_sub p x y

theorem sp_sub_add (p x y : Word) : p - x + y = p - (x - y) := (sub_sub_eq_add_sub p x y ▸ sub_add p x y)

theorem sp_sub_inj (p x y : Word) : p - x = p - y ↔ x = y := sub_right_inj

/-- The five stackings one after the other are the nine writes of `framedMemory`, with the entries of `frameEvents`. -/
theorem pushed_eq_framed (s u : State) (rtn : Word)
    (hu : u = pushedWord (pushedWord (pushedWord (pushedWord s rtn) s.y) s.x) (wordOf s.b s.a)) :
    ({ u with
        sp := u.sp - 1#16
        mem := memAfter u.platform u.mem (u.sp - 1#16) s.ccr
        io := writeEvents u.platform (u.sp - 1#16) s.ccr ++ u.io } : State) =
      { s with sp := s.sp - 9#16, mem := framedMemory s rtn, io := frameEvents s rtn ++ s.io } := by
  subst hu
  simp only [pushedWord, sp_sub_sub, BitVec.reduceAdd, hiByte_wordOf, loByte_wordOf, framedMemory, frameEvents,
    List.append_assoc]

/-- What stacking the frame can answer: exactly where the stack has room. -/
theorem pushFrame_eq_ok (s t : State) (rtn : Word) :
    pushFrame s rtn = .ok t ↔
      stackRoom s = true ∧ t = { s with sp := s.sp - 9#16, mem := framedMemory s rtn, io := frameEvents s rtn ++ s.io } := by
  rw [stackRoom_iff, ← pushed_eq_framed s _ rtn rfl]
  unfold pushFrame
  simp only [bind_eq_ok, pushWord_eq_ok, pushByte_eq_ok]
  constructor
  · rintro ⟨u1, ⟨h1, h2, rfl⟩, u2, ⟨h3, h4, rfl⟩, u3, ⟨h5, h6, rfl⟩, u4, ⟨h7, h8, rfl⟩, h9, rfl⟩
    simp only [storable_pushedWord] at h3 h4 h5 h6 h7 h8 h9
    simp only [pushedWord, sp_sub_sub, BitVec.reduceAdd] at h3 h4 h5 h6 h7 h8 h9
    exact ⟨⟨h2, h1, h4, h3, h6, h5, h8, h7, h9⟩, rfl⟩
  · rintro ⟨⟨h1, h2, h3, h4, h5, h6, h7, h8, h9⟩, rfl⟩
    refine ⟨_, ⟨h2, h1, rfl⟩, _, ⟨?_, ?_, rfl⟩, _, ⟨?_, ?_, rfl⟩, _, ⟨?_, ?_, rfl⟩, ?_, rfl⟩ <;>
      (simp only [storable_pushedWord]; simp only [pushedWord, sp_sub_sub, BitVec.reduceAdd]; assumption)

/-- The frame lies where R152 says. -/
theorem frameStored_framed (s : State) (rtn : Word) (t : State) (hsp : t.sp = s.sp - 9#16)
    (hmem : t.mem = framedMemory s rtn) : frameStored s t rtn := by
  have rd (a : Word) : t.byteAt a = Memory.read (framedMemory s rtn) a.toNat := by rw [State.byteAt, hmem]
  refine ⟨hsp, ?_, ?_, ?_, ?_, ?_, ?_, ?_, ?_, ?_, fun a ha => ?_⟩
  case refine_10 =>
    obtain ⟨h1, h2, h3, h4, h5, h6, h7, h8, h9⟩ := (belowStackFree_iff s a).mp ha
    rw [rd]
    simp only [framedMemory, read_memAfter, if_neg h1, if_neg h2, if_neg h3, if_neg h4, if_neg h5, if_neg h6,
      if_neg h7, if_neg h8, if_neg h9]
    rfl
  all_goals
    rw [rd, hsp]
    simp only [framedMemory, read_memAfter, sp_sub_add, sp_sub_inj, BitVec.reduceSub, BitVec.reduceEq, if_true,
      if_false, stacked, State.byteAt]

theorem framedMemory_wf (s : State) (rtn : Word) (h : Memory.wf s.mem = true) :
    Memory.wf (framedMemory s rtn) = true := by
  simp only [framedMemory]
  repeat' apply memAfter_wf
  exact h

/-- The state between the stacking and the vector read. -/
def framed (s : State) (rtn : Word) : State :=
  { s with
    sp := s.sp - 9#16, mem := framedMemory s rtn, io := frameEvents s rtn ++ s.io, ccr := ccrPut s.ccr .i true }

/-- What the exception sequence can answer: the frame, I, and PC from the vector as it reads after the stacking. -/
theorem takeException_eq_ok (s t : State) (rtn vec : Word) :
    takeException s rtn vec = .ok t ↔
      stackRoom s = true ∧
        ∃ target w, readWord (framed s rtn) vec = .ok (target, w) ∧ t = { w with pc := target } := by
  unfold takeException
  simp only [bind_eq_ok, pushFrame_eq_ok, pure_eq_ok, Prod.exists]
  constructor
  · rintro ⟨u, ⟨h, rfl⟩, target, w, h2, rfl⟩; exact ⟨h, target, w, h2, rfl⟩
  · rintro ⟨h, target, w, h2, rfl⟩; exact ⟨_, ⟨h, rfl⟩, target, w, h2, rfl⟩

/-- Where the stack has room, only the vector read decides. -/
theorem takeException_of_room (s : State) (rtn vec : Word) (h : stackRoom s = true) :
    takeException s rtn vec = (readWord (framed s rtn) vec).map (fun r => { r.2 with pc := r.1 }) := by
  have hp : pushFrame s rtn = .ok { s with sp := s.sp - 9#16, mem := framedMemory s rtn, io := frameEvents s rtn ++ s.io } :=
    (pushFrame_eq_ok ..).mpr ⟨h, rfl⟩
  unfold takeException
  rw [hp]
  simp only [ok_bind]
  show (readWord (framed s rtn) vec >>= fun r => pure { r.2 with pc := r.1 }) = _
  cases readWord (framed s rtn) vec <;> rfl

/-- A vector without side effects outside the frame reads as before the stacking. -/
theorem readWord_framed (s : State) (rtn vec target : Word) (h : readWord s vec = .ok (target, s))
    (h1 : belowStackFree s vec = true) (h2 : belowStackFree s (vec + 1#16) = true) :
    readWord (framed s rtn) vec = .ok (target, framed s rtn) := by
  have hf := frameStored_framed s rtn (framed s rtn) rfl rfl
  exact readWord_congr s _ vec target rfl (hf.2.2.2.2.2.2.2.2.2.2 vec h1) (hf.2.2.2.2.2.2.2.2.2.2 _ h2) h

/-- What the entry of an interrupt can answer: the exception sequence, and X set if X masks the member. -/
theorem takeInterrupt_eq_ok (s t : State) (v : IrqVector) :
    takeInterrupt s v = .ok t ↔
      ∃ u, takeException s s.pc v.vector = .ok u ∧
        t = match v.maskedBy with
          | .maskI => u
          | .maskX => { u with ccr := ccrPut u.ccr .x true } := by
  unfold takeInterrupt
  rw [bind_eq_ok]
  constructor
  · rintro ⟨u, h1, h2⟩
    refine ⟨u, h1, ?_⟩
    cases hm : v.maskedBy <;> simp only [hm, pure_eq_ok] at h2 <;> exact h2.symm
  · rintro ⟨u, h1, rfl⟩
    refine ⟨u, h1, ?_⟩
    cases hm : v.maskedBy <;> simp [pure_eq_ok]

/-- What undoing the exception sequence can answer: exactly where the nine bytes from SP up can be read, one after the other. -/
theorem returnFromException_eq_ok (s t : State) :
    returnFromException s = .ok t ↔
      ∃ ccr b a x y pc s1 s2 s3 s4 s5 s6, readByte s s.sp = .ok (ccr, s1) ∧ readByte s1 (s.sp + 1#16) = .ok (b, s2) ∧
        readByte s2 (s.sp + 2#16) = .ok (a, s3) ∧ readWord s3 (s.sp + 3#16) = .ok (x, s4) ∧
        readWord s4 (s.sp + 5#16) = .ok (y, s5) ∧ readWord s5 (s.sp + 7#16) = .ok (pc, s6) ∧
        t = { s6 with
          a := a, b := b, x := x, y := y, pc := pc, sp := s.sp + 9#16,
          ccr := ccrPut ccr .x (ccrBit ccr .x && s.flag .x) } := by
  unfold returnFromException
  simp only [bind_eq_ok, pure_eq_ok, Prod.exists]
  constructor
  · rintro ⟨ccr, s1, h1, b, s2, h2, a, s3, h3, x, s4, h4, y, s5, h5, pc, s6, h6, rfl⟩
    exact ⟨ccr, b, a, x, y, pc, s1, s2, s3, s4, s5, s6, h1, h2, h3, h4, h5, h6, rfl⟩
  · rintro ⟨ccr, b, a, x, y, pc, s1, s2, s3, s4, s5, s6, h1, h2, h3, h4, h5, h6, rfl⟩
    exact ⟨ccr, s1, h1, b, s2, h2, a, s3, h3, x, s4, h4, y, s5, h5, pc, s6, h6, rfl⟩

/-- What the reset sequence can answer. -/
theorem takeReset_eq_ok (s t : State) :
    takeReset s = .ok t ↔
      ∃ target w, readWord (resetRegisters s) s.platform.resetVector = .ok (target, w) ∧ t = { w with pc := target } := by
  unfold takeReset
  simp only [bind_eq_ok, pure_eq_ok, Prod.exists]
  exact ⟨fun ⟨target, w, h1, h2⟩ => ⟨target, w, h1, h2.symm⟩, fun ⟨target, w, h1, h2⟩ => ⟨target, w, h1, h2.symm⟩⟩

theorem resetRegisters_byteAt (s : State) (a : Word) :
    (resetRegisters s).byteAt a = if keptOverReset s.platform a then s.byteAt a else none := by
  have h := Memory.read_filter s.mem (fun k => keptOverReset s.platform (BitVec.ofNat 16 k)) a.toNat
  simpa [State.byteAt, resetRegisters] using h

theorem resetCcr_bits (u : Byte) (k : CcrBit) :
    ccrBit (resetCcr u) k = match k with
      | .s => true
      | .x => true
      | .i => true
      | _ => ccrBit u k := by
  cases k <;> simp [resetCcr]

end Sys2Proof.Machine
end

