-- ==== Sys2Proof/Laws/Operands.lean ====
section
/-! SUPPORT. What the address modes can answer, and that they change the index registers only. -/

namespace Sys2Proof.Machine

theorem autoValue_setAuto_same (s : State) (r : AutoReg) (v : Word) : autoValue (setAuto s r v) r = v := by
  cases r <;> rfl

theorem autoValue_setAuto_other (s : State) (r q : AutoReg) (v : Word) (h : q ≠ r) :
    autoValue (setAuto s r v) q = autoValue s q := by
  cases r <;> cases q <;> first | rfl | exact absurd rfl h

theorem setAuto_eq (s : State) (r : AutoReg) (v : Word) :
    setAuto s r v =
      { s with x := (setAuto s r v).x, y := (setAuto s r v).y, sp := (setAuto s r v).sp } := by
  cases r <;> rfl

/-- What an address mode leaves: the index registers as R77 says for the automatic form, else as before, the pointer reads of the
indirect forms noted where the location has side effects, and nothing else changed. -/
theorem effectiveAddress_state (s s1 : State) (o : Operand) (ea : Word) (h : effectiveAddress s o = .ok (ea, s1)) :
    s1 = { s with x := s1.x, y := s1.y, sp := s1.sp, io := s1.io } ∧ indexRegistersAfter o s s1 ∧
      s1.io = pointerEvents s o ++ s.io := by
  rcases o with d | a | f
  · cases h; exact ⟨rfl, ⟨rfl, rfl, rfl⟩, rfl⟩
  · cases h; exact ⟨rfl, ⟨rfl, rfl, rfl⟩, rfl⟩
  · rcases f with ⟨r, n⟩ | ⟨r, w, n⟩ | ⟨r, k⟩ | r | ⟨r, n⟩ | ⟨r, n⟩ | r | ⟨r, n⟩
    case auto =>
      refine ⟨?_, ?_, ?_⟩
      · cases w <;> cases r <;> cases h <;> rfl
      · cases w <;> cases h <;> exact ⟨autoValue_setAuto_same .., fun q hq => autoValue_setAuto_other _ _ _ _ hq⟩
      · cases w <;> cases r <;> cases h <;> rfl
    case indD | ind16 =>
      obtain ⟨hi, lo, -, -, -, rfl⟩ := (readWord_eq_ok _ _ _ _).mp h
      exact ⟨rfl, ⟨rfl, rfl, rfl⟩, rfl⟩
    all_goals cases h; exact ⟨rfl, ⟨rfl, rfl, rfl⟩, rfl⟩

theorem effectiveAddress_fields (s s1 : State) (o : Operand) (ea : Word) (h : effectiveAddress s o = .ok (ea, s1)) :
    s1.a = s.a ∧ s1.b = s.b ∧ s1.pc = s.pc ∧ s1.ccr = s.ccr ∧ s1.mem = s.mem ∧ s1.platform = s.platform ∧
      s1.agenda = s.agenda ∧ s1.freeIdx = s.freeIdx := by
  obtain ⟨h, -⟩ := effectiveAddress_state s s1 o ea h
  rw [h]
  exact ⟨rfl, rfl, rfl, rfl, rfl, rfl, rfl, rfl⟩

/-- What reading an operand in memory can answer. -/
theorem memoryOperand_eq_ok (s s2 : State) (o : Operand) (m : Byte) :
    memoryOperand s o = .ok (m, s2) ↔ ∃ ea s1, effectiveAddress s o = .ok (ea, s1) ∧ readByte s1 ea = .ok (m, s2) := by
  unfold memoryOperand
  simp only [bind_eq_ok, Prod.exists]

end Sys2Proof.Machine
end

