-- ==== Sys2Proof/Laws/Exec.lean ====
section
/-! SUPPORT. Everything an instruction and a step can do, said once. -/

namespace Sys2Proof.Machine

theorem exec_ldaaMem (o : Operand) (s : State) : exec (.ldaaMem o) s = loadA o s := by
  rcases o with d | a | f
  · rfl
  · rfl
  · rcases f with ⟨r, n⟩ | ⟨r, w, n⟩ | ⟨r, k⟩ | r | ⟨r, n⟩ | ⟨r, n⟩ | r | ⟨r, n⟩ <;> first | rfl | (cases r <;> rfl)

theorem exec_staaMem (o : Operand) (s : State) : exec (.staaMem o) s = storeAcc s.a o s := by
  rcases o with d | a | f
  · rfl
  · rfl
  · rcases f with ⟨r, n⟩ | ⟨r, w, n⟩ | ⟨r, k⟩ | r | ⟨r, n⟩ | ⟨r, n⟩ | r | ⟨r, n⟩ <;> first | rfl | (cases r <;> rfl)

theorem exec_stabMem (o : Operand) (s : State) : exec (.stabMem o) s = storeAcc s.b o s := by
  rcases o with d | a | f
  · rfl
  · rfl
  · rcases f with ⟨r, n⟩ | ⟨r, w, n⟩ | ⟨r, k⟩ | r | ⟨r, n⟩ | ⟨r, n⟩ | r | ⟨r, n⟩ <;> first | rfl | (cases r <;> rfl)

theorem exec_addaMem (o : Operand) (s : State) : exec (.addaMem o) s = addA o s := by
  rcases o with d | a | f
  · rfl
  · rfl
  · rcases f with ⟨r, n⟩ | ⟨r, w, n⟩ | ⟨r, k⟩ | r | ⟨r, n⟩ | ⟨r, n⟩ | r | ⟨r, n⟩ <;> first | rfl | (cases r <;> rfl)

/-- The meanings an instruction can have, by its mnemonic: the one case split over the 52 constructors. -/
inductive Shape (i : Instr) : Prop where
  | ldaaImm (v : Byte) (h : i = .ldaaImm v)
  | addaImm (v : Byte) (h : i = .addaImm v)
  | load (o : Operand) (hm : i.mnemonic = .ldaa) (hl : i.length = o.length) (h : ∀ s, exec i s = loadA o s)
  | add (o : Operand) (hm : i.mnemonic = .adda) (hl : i.length = o.length) (h : ∀ s, exec i s = addA o s)
  | storeA (o : Operand) (hm : i.mnemonic = .staa) (hl : i.length = o.length) (h : ∀ s, exec i s = storeAcc s.a o s)
  | storeB (o : Operand) (hm : i.mnemonic = .stab) (hl : i.length = o.length) (h : ∀ s, exec i s = storeAcc s.b o s)
  | inca (h : i = .inca)
  | clrb (h : i = .clrb)
  | decb (h : i = .decb)
  | lsra (h : i = .lsra)
  | asra (h : i = .asra)
  | swi (h : i = .swi)

theorem shape (i : Instr) : Shape i := by
  cases i
  case ldaaImm v => exact .ldaaImm v rfl
  case addaImm v => exact .addaImm v rfl
  case inca => exact .inca rfl
  case clrb => exact .clrb rfl
  case decb => exact .decb rfl
  case lsra => exact .lsra rfl
  case asra => exact .asra rfl
  case swi => exact .swi rfl
  all_goals
    first
    | exact .load _ rfl rfl (fun _ => rfl)
    | exact .add _ rfl rfl (fun _ => rfl)
    | exact .storeA _ rfl rfl (fun _ => rfl)
    | exact .storeB _ rfl rfl (fun _ => rfl)

/-- What LDAA of an operand in memory can answer. -/
theorem loadA_eq_next (o : Operand) (s t : State) :
    loadA o s = .next t ↔
      ∃ ea s1 m s2, effectiveAddress s o = .ok (ea, s1) ∧ readByte s1 ea = .ok (m, s2) ∧ t = finishLoadA m s2 o.length := by
  unfold loadA
  simp only [toOutcome_eq_next, bind_eq_ok, pure_eq_ok, Prod.exists, memoryOperand_eq_ok]
  constructor
  · rintro ⟨m, s2, ⟨ea, s1, h1, h2⟩, rfl⟩; exact ⟨ea, s1, m, s2, h1, h2, rfl⟩
  · rintro ⟨ea, s1, m, s2, h1, h2, rfl⟩; exact ⟨m, s2, ⟨ea, s1, h1, h2⟩, rfl⟩

/-- What ADDA of an operand in memory can answer. -/
theorem addA_eq_next (o : Operand) (s t : State) :
    addA o s = .next t ↔
      ∃ ea s1 m s2, effectiveAddress s o = .ok (ea, s1) ∧ readByte s1 ea = .ok (m, s2) ∧ t = finishAddA m s2 o.length := by
  unfold addA
  simp only [toOutcome_eq_next, bind_eq_ok, pure_eq_ok, Prod.exists, memoryOperand_eq_ok]
  constructor
  · rintro ⟨m, s2, ⟨ea, s1, h1, h2⟩, rfl⟩; exact ⟨ea, s1, m, s2, h1, h2, rfl⟩
  · rintro ⟨ea, s1, m, s2, h1, h2, rfl⟩; exact ⟨m, s2, ⟨ea, s1, h1, h2⟩, rfl⟩

/-- The state after a store of `v` at `ea`. -/
def stored (v : Byte) (ea : Word) (len : Nat) (s1 : State) : State :=
  { s1 with
    mem := memAfter s1.platform s1.mem ea v, io := writeEvents s1.platform ea v ++ s1.io
    ccr := moveFlags s1.ccr v, pc := nextPc s1 len }

/-- What STAA and STAB can answer. -/
theorem storeAcc_eq_next (v : Byte) (o : Operand) (s t : State) :
    storeAcc v o s = .next t ↔
      ∃ ea s1, effectiveAddress s o = .ok (ea, s1) ∧ storable s1 ea = true ∧ t = stored v ea o.length s1 := by
  unfold storeAcc
  simp only [toOutcome_eq_next, bind_eq_ok, pure_eq_ok, Prod.exists, writeByte_eq_ok]
  constructor
  · rintro ⟨ea, s1, h1, u, ⟨h2, rfl⟩, rfl⟩; exact ⟨ea, s1, h1, h2, rfl⟩
  · rintro ⟨ea, s1, h1, h2, rfl⟩; exact ⟨ea, s1, h1, _, ⟨h2, rfl⟩, rfl⟩

/-- What SWI can answer. -/
theorem execSwi_eq_next (s t : State) :
    execSwi s = .next t ↔
      stackRoom s = true ∧ ∃ target w, readWord (framed s (nextPc s 1)) s.platform.swiVector = .ok (target, w) ∧
        t = { w with pc := target } := by
  unfold execSwi
  rw [toOutcome_eq_next, takeException_eq_ok]

/-- No instruction ends in a fault: the machine has no fault but the end of a run. -/
theorem exec_ne_fault (i : Instr) (s : State) (f : Fault) : exec i s ≠ .fault f := by
  rcases shape i with ⟨v, rfl⟩ | ⟨v, rfl⟩ | ⟨o, -, -, h⟩ | ⟨o, -, -, h⟩ | ⟨o, -, -, h⟩ | ⟨o, -, -, h⟩ | rfl | rfl | rfl | rfl | rfl | rfl
  case load => rw [h]; exact toOutcome_ne_fault _ _
  case add => rw [h]; exact toOutcome_ne_fault _ _
  case storeA => rw [h]; exact toOutcome_ne_fault _ _
  case storeB => rw [h]; exact toOutcome_ne_fault _ _
  case swi => exact toOutcome_ne_fault _ _
  all_goals exact fun h => by cases h

theorem runInstruction_eq_next (s t : State) :
    runInstruction s = .next t ↔ ∃ i, fetchInstr s = .ok i ∧ exec i s = .next t := by
  unfold runInstruction
  cases fetchInstr s <;> simp

/-- What a step can do: execute an instruction, enter a handler, or reset. -/
theorem step_eq_next (s t : State) (h : step s = .next t) :
    (∃ i, fetchInstr s = .ok i ∧ exec i { s with agenda := s.agenda.tail } = .next t) ∨
    (∃ k rest v, s.agenda = .request k :: rest ∧ s.platform.irqVectors[k]? = some v ∧
      requestAllowed s v = true ∧ takeInterrupt { s with agenda := rest } v = .ok t) ∨
    (∃ rest, s.agenda = .reset :: rest ∧ takeReset { s with agenda := rest } = .ok t) := by
  have run (rest : List Boundary) (hr : runInstruction { s with agenda := rest } = .next t) (ht : rest = s.agenda.tail) :
      ∃ i, fetchInstr s = .ok i ∧ exec i { s with agenda := s.agenda.tail } = .next t := by
    obtain ⟨i, h1, h2⟩ := (runInstruction_eq_next _ _).mp hr
    subst ht
    exact ⟨i, h1, h2⟩
  unfold step boundaryStep at h
  split at h
  · cases h
  · split at h
    · next ha => exact .inl (run [] (by rwa [← ha]) (by simp [ha]))
    · next rest ha => exact .inl (run rest h (by simp [ha]))
    · next k rest ha =>
      unfold offerRequest at h
      split at h
      · exact .inl (run rest h (by simp [ha]))
      · next v hv =>
        split at h
        · next hal => exact .inr (.inl ⟨k, rest, v, ha, hv, hal, (toOutcome_eq_next ..).mp h⟩)
        · exact .inl (run rest h (by simp [ha]))
    · next rest ha => exact .inr (.inr ⟨rest, ha, (toOutcome_eq_next ..).mp h⟩)

end Sys2Proof.Machine
end

