-- ==== Sys2Proof/Laws/PerInstr.lean ====
section
/-! SUPPORT. Per instruction, as syntax: its encoding has the bytes that its address mode gives it (R60). -/

namespace Sys2Proof.Laws.EncodedLength

/-- The encoding is as long as the instruction (R60). -/
def Statement (i : Instr) : Prop := (encode i).length = i.length

theorem ldaaImm (u : Byte) : Statement (.ldaaImm u) := rfl

theorem ldaaDir (u : Byte) : Statement (.ldaaDir u) := rfl

theorem ldaaExt (u : Word) : Statement (.ldaaExt u) := rfl

theorem ldaaOff5 (u : BaseReg) (v : BitVec 5) : Statement (.ldaaOff5 u v) := rfl

theorem ldaaAutoXY (u : AutoReg) (v : AutoWhen) (w : BitVec 4) : Statement (.ldaaAutoXY u v w) := rfl

theorem ldaaAutoSp (u : AutoWhen) (v : BitVec 4) : Statement (.ldaaAutoSp u v) := rfl

theorem ldaaAcc (u : BaseReg) (v : Acc) : Statement (.ldaaAcc u v) := rfl

theorem ldaaAccD (u : BaseReg) : Statement (.ldaaAccD u) := rfl

theorem ldaaOff9 (u : BaseReg) (v : BitVec 9) : Statement (.ldaaOff9 u v) := rfl

theorem ldaaOff16 (u : BaseReg) (v : Word) : Statement (.ldaaOff16 u v) := rfl

theorem ldaaIndD (u : BaseReg) : Statement (.ldaaIndD u) := rfl

theorem ldaaInd16 (u : BaseReg) (v : Word) : Statement (.ldaaInd16 u v) := rfl

theorem staaDir (u : Byte) : Statement (.staaDir u) := rfl

theorem staaExt (u : Word) : Statement (.staaExt u) := rfl

theorem staaOff5 (u : BaseReg) (v : BitVec 5) : Statement (.staaOff5 u v) := rfl

theorem staaAutoXY (u : AutoReg) (v : AutoWhen) (w : BitVec 4) : Statement (.staaAutoXY u v w) := rfl

theorem staaAutoSp (u : AutoWhen) (v : BitVec 4) : Statement (.staaAutoSp u v) := rfl

theorem staaAcc (u : BaseReg) (v : Acc) : Statement (.staaAcc u v) := rfl

theorem staaAccD (u : BaseReg) : Statement (.staaAccD u) := rfl

theorem staaOff9 (u : BaseReg) (v : BitVec 9) : Statement (.staaOff9 u v) := rfl

theorem staaOff16 (u : BaseReg) (v : Word) : Statement (.staaOff16 u v) := rfl

theorem staaIndD (u : BaseReg) : Statement (.staaIndD u) := rfl

theorem staaInd16 (u : BaseReg) (v : Word) : Statement (.staaInd16 u v) := rfl

theorem stabDir (u : Byte) : Statement (.stabDir u) := rfl

theorem stabExt (u : Word) : Statement (.stabExt u) := rfl

theorem stabOff5 (u : BaseReg) (v : BitVec 5) : Statement (.stabOff5 u v) := rfl

theorem stabAutoXY (u : AutoReg) (v : AutoWhen) (w : BitVec 4) : Statement (.stabAutoXY u v w) := rfl

theorem stabAutoSp (u : AutoWhen) (v : BitVec 4) : Statement (.stabAutoSp u v) := rfl

theorem stabAcc (u : BaseReg) (v : Acc) : Statement (.stabAcc u v) := rfl

theorem stabAccD (u : BaseReg) : Statement (.stabAccD u) := rfl

theorem stabOff9 (u : BaseReg) (v : BitVec 9) : Statement (.stabOff9 u v) := rfl

theorem stabOff16 (u : BaseReg) (v : Word) : Statement (.stabOff16 u v) := rfl

theorem stabIndD (u : BaseReg) : Statement (.stabIndD u) := rfl

theorem stabInd16 (u : BaseReg) (v : Word) : Statement (.stabInd16 u v) := rfl

theorem addaImm (u : Byte) : Statement (.addaImm u) := rfl

theorem addaDir (u : Byte) : Statement (.addaDir u) := rfl

theorem addaExt (u : Word) : Statement (.addaExt u) := rfl

theorem addaOff5 (u : BaseReg) (v : BitVec 5) : Statement (.addaOff5 u v) := rfl

theorem addaAutoXY (u : AutoReg) (v : AutoWhen) (w : BitVec 4) : Statement (.addaAutoXY u v w) := rfl

theorem addaAutoSp (u : AutoWhen) (v : BitVec 4) : Statement (.addaAutoSp u v) := rfl

theorem addaAcc (u : BaseReg) (v : Acc) : Statement (.addaAcc u v) := rfl

theorem addaAccD (u : BaseReg) : Statement (.addaAccD u) := rfl

theorem addaOff9 (u : BaseReg) (v : BitVec 9) : Statement (.addaOff9 u v) := rfl

theorem addaOff16 (u : BaseReg) (v : Word) : Statement (.addaOff16 u v) := rfl

theorem addaIndD (u : BaseReg) : Statement (.addaIndD u) := rfl

theorem addaInd16 (u : BaseReg) (v : Word) : Statement (.addaInd16 u v) := rfl

theorem inca : Statement .inca := rfl

theorem clrb : Statement .clrb := rfl

theorem decb : Statement .decb := rfl

theorem lsra : Statement .lsra := rfl

theorem asra : Statement .asra := rfl

theorem swi : Statement .swi := rfl

end Sys2Proof.Laws.EncodedLength
end

