-- ==== Sys2Proof/Laws/State.lean ====
section
/-! SUPPORT. One lemma per field for every named update of the state: proofs rewrite with these and unfold no record. -/

namespace Sys2Proof.Machine

/-! ## LDAA and ADDA, after the operand was read -/

@[simp] theorem finishLoadA_a (m : Byte) (s : State) (len : Nat) : (finishLoadA m s len).a = m := rfl
@[simp] theorem finishLoadA_b (m : Byte) (s : State) (len : Nat) : (finishLoadA m s len).b = s.b := rfl
@[simp] theorem finishLoadA_x (m : Byte) (s : State) (len : Nat) : (finishLoadA m s len).x = s.x := rfl
@[simp] theorem finishLoadA_y (m : Byte) (s : State) (len : Nat) : (finishLoadA m s len).y = s.y := rfl
@[simp] theorem finishLoadA_sp (m : Byte) (s : State) (len : Nat) : (finishLoadA m s len).sp = s.sp := rfl
@[simp] theorem finishLoadA_pc (m : Byte) (s : State) (len : Nat) : (finishLoadA m s len).pc = nextPc s len := rfl
@[simp] theorem finishLoadA_ccr (m : Byte) (s : State) (len : Nat) : (finishLoadA m s len).ccr = moveFlags s.ccr m := rfl
@[simp] theorem finishLoadA_mem (m : Byte) (s : State) (len : Nat) : (finishLoadA m s len).mem = s.mem := rfl
@[simp] theorem finishLoadA_io (m : Byte) (s : State) (len : Nat) : (finishLoadA m s len).io = s.io := rfl
@[simp] theorem finishLoadA_platform (m : Byte) (s : State) (len : Nat) : (finishLoadA m s len).platform = s.platform := rfl
@[simp] theorem finishLoadA_agenda (m : Byte) (s : State) (len : Nat) : (finishLoadA m s len).agenda = s.agenda := rfl
@[simp] theorem finishLoadA_freeIdx (m : Byte) (s : State) (len : Nat) : (finishLoadA m s len).freeIdx = s.freeIdx := rfl

@[simp] theorem finishAddA_a (m : Byte) (s : State) (len : Nat) : (finishAddA m s len).a = s.a + m := rfl
@[simp] theorem finishAddA_b (m : Byte) (s : State) (len : Nat) : (finishAddA m s len).b = s.b := rfl
@[simp] theorem finishAddA_x (m : Byte) (s : State) (len : Nat) : (finishAddA m s len).x = s.x := rfl
@[simp] theorem finishAddA_y (m : Byte) (s : State) (len : Nat) : (finishAddA m s len).y = s.y := rfl
@[simp] theorem finishAddA_sp (m : Byte) (s : State) (len : Nat) : (finishAddA m s len).sp = s.sp := rfl
@[simp] theorem finishAddA_pc (m : Byte) (s : State) (len : Nat) : (finishAddA m s len).pc = nextPc s len := rfl
@[simp] theorem finishAddA_ccr (m : Byte) (s : State) (len : Nat) : (finishAddA m s len).ccr = addFlags s.ccr s.a m (s.a + m) := rfl
@[simp] theorem finishAddA_mem (m : Byte) (s : State) (len : Nat) : (finishAddA m s len).mem = s.mem := rfl
@[simp] theorem finishAddA_io (m : Byte) (s : State) (len : Nat) : (finishAddA m s len).io = s.io := rfl
@[simp] theorem finishAddA_platform (m : Byte) (s : State) (len : Nat) : (finishAddA m s len).platform = s.platform := rfl
@[simp] theorem finishAddA_agenda (m : Byte) (s : State) (len : Nat) : (finishAddA m s len).agenda = s.agenda := rfl
@[simp] theorem finishAddA_freeIdx (m : Byte) (s : State) (len : Nat) : (finishAddA m s len).freeIdx = s.freeIdx := rfl

/-! ## The terms of statements -/

@[simp] theorem withCcr_a (s : State) (c : Byte) : (withCcr s c).a = s.a := rfl
@[simp] theorem withCcr_b (s : State) (c : Byte) : (withCcr s c).b = s.b := rfl
@[simp] theorem withCcr_x (s : State) (c : Byte) : (withCcr s c).x = s.x := rfl
@[simp] theorem withCcr_y (s : State) (c : Byte) : (withCcr s c).y = s.y := rfl
@[simp] theorem withCcr_sp (s : State) (c : Byte) : (withCcr s c).sp = s.sp := rfl
@[simp] theorem withCcr_pc (s : State) (c : Byte) : (withCcr s c).pc = s.pc := rfl
@[simp] theorem withCcr_ccr (s : State) (c : Byte) : (withCcr s c).ccr = c := rfl
@[simp] theorem withCcr_mem (s : State) (c : Byte) : (withCcr s c).mem = s.mem := rfl
@[simp] theorem withCcr_io (s : State) (c : Byte) : (withCcr s c).io = s.io := rfl
@[simp] theorem withCcr_platform (s : State) (c : Byte) : (withCcr s c).platform = s.platform := rfl
@[simp] theorem withCcr_agenda (s : State) (c : Byte) : (withCcr s c).agenda = s.agenda := rfl
@[simp] theorem withCcr_freeIdx (s : State) (c : Byte) : (withCcr s c).freeIdx = s.freeIdx := rfl

@[simp] theorem withVariant_a (s : State) (v : CpuVariant) : (withVariant s v).a = s.a := rfl
@[simp] theorem withVariant_b (s : State) (v : CpuVariant) : (withVariant s v).b = s.b := rfl
@[simp] theorem withVariant_x (s : State) (v : CpuVariant) : (withVariant s v).x = s.x := rfl
@[simp] theorem withVariant_y (s : State) (v : CpuVariant) : (withVariant s v).y = s.y := rfl
@[simp] theorem withVariant_sp (s : State) (v : CpuVariant) : (withVariant s v).sp = s.sp := rfl
@[simp] theorem withVariant_pc (s : State) (v : CpuVariant) : (withVariant s v).pc = s.pc := rfl
@[simp] theorem withVariant_ccr (s : State) (v : CpuVariant) : (withVariant s v).ccr = s.ccr := rfl
@[simp] theorem withVariant_mem (s : State) (v : CpuVariant) : (withVariant s v).mem = s.mem := rfl
@[simp] theorem withVariant_io (s : State) (v : CpuVariant) : (withVariant s v).io = s.io := rfl
@[simp] theorem withVariant_platform (s : State) (v : CpuVariant) : (withVariant s v).platform = { s.platform with cpuVariant := v } := rfl
@[simp] theorem withVariant_agenda (s : State) (v : CpuVariant) : (withVariant s v).agenda = s.agenda := rfl
@[simp] theorem withVariant_freeIdx (s : State) (v : CpuVariant) : (withVariant s v).freeIdx = s.freeIdx := rfl

/-! ## Reset during a run (A, B, X, Y, SP and the CCR are free values) -/

@[simp] theorem resetRegisters_pc (s : State) : (resetRegisters s).pc = s.pc := rfl
@[simp] theorem resetRegisters_ccr (s : State) : (resetRegisters s).ccr = resetCcr ((Config.freeValue (s.freeIdx + 5)).setWidth 8) := rfl
@[simp] theorem resetRegisters_mem (s : State) : (resetRegisters s).mem = s.mem.filter (fun c => keptOverReset s.platform (BitVec.ofNat 16 c.1)) := rfl
@[simp] theorem resetRegisters_io (s : State) : (resetRegisters s).io = .reset :: s.io := rfl
@[simp] theorem resetRegisters_platform (s : State) : (resetRegisters s).platform = s.platform := rfl
@[simp] theorem resetRegisters_agenda (s : State) : (resetRegisters s).agenda = s.agenda := rfl
@[simp] theorem resetRegisters_freeIdx (s : State) : (resetRegisters s).freeIdx = s.freeIdx + 6 := rfl

/-! ## An instruction loaded at PC -/

@[simp] theorem loadAtPc_a (s : State) (bs : List Byte) : (loadAtPc s bs).a = s.a := rfl
@[simp] theorem loadAtPc_b (s : State) (bs : List Byte) : (loadAtPc s bs).b = s.b := rfl
@[simp] theorem loadAtPc_x (s : State) (bs : List Byte) : (loadAtPc s bs).x = s.x := rfl
@[simp] theorem loadAtPc_y (s : State) (bs : List Byte) : (loadAtPc s bs).y = s.y := rfl
@[simp] theorem loadAtPc_sp (s : State) (bs : List Byte) : (loadAtPc s bs).sp = s.sp := rfl
@[simp] theorem loadAtPc_pc (s : State) (bs : List Byte) : (loadAtPc s bs).pc = s.pc := rfl
@[simp] theorem loadAtPc_ccr (s : State) (bs : List Byte) : (loadAtPc s bs).ccr = s.ccr := rfl
@[simp] theorem loadAtPc_mem (s : State) (bs : List Byte) : (loadAtPc s bs).mem = storeBytes s.mem s.pc bs := rfl
@[simp] theorem loadAtPc_io (s : State) (bs : List Byte) : (loadAtPc s bs).io = s.io := rfl
@[simp] theorem loadAtPc_agenda (s : State) (bs : List Byte) : (loadAtPc s bs).agenda = [] := rfl
@[simp] theorem loadAtPc_freeIdx (s : State) (bs : List Byte) : (loadAtPc s bs).freeIdx = s.freeIdx := rfl

/-! ## The register of the automatic form -/

@[simp] theorem setAuto_a (s : State) (r : AutoReg) (v : Word) : (setAuto s r v).a = s.a := by cases r <;> rfl
@[simp] theorem setAuto_b (s : State) (r : AutoReg) (v : Word) : (setAuto s r v).b = s.b := by cases r <;> rfl
@[simp] theorem setAuto_pc (s : State) (r : AutoReg) (v : Word) : (setAuto s r v).pc = s.pc := by cases r <;> rfl
@[simp] theorem setAuto_ccr (s : State) (r : AutoReg) (v : Word) : (setAuto s r v).ccr = s.ccr := by cases r <;> rfl
@[simp] theorem setAuto_mem (s : State) (r : AutoReg) (v : Word) : (setAuto s r v).mem = s.mem := by cases r <;> rfl
@[simp] theorem setAuto_io (s : State) (r : AutoReg) (v : Word) : (setAuto s r v).io = s.io := by cases r <;> rfl
@[simp] theorem setAuto_platform (s : State) (r : AutoReg) (v : Word) : (setAuto s r v).platform = s.platform := by cases r <;> rfl
@[simp] theorem setAuto_agenda (s : State) (r : AutoReg) (v : Word) : (setAuto s r v).agenda = s.agenda := by cases r <;> rfl
@[simp] theorem setAuto_freeIdx (s : State) (r : AutoReg) (v : Word) : (setAuto s r v).freeIdx = s.freeIdx := by cases r <;> rfl

/-! ## After the frame of an exception, and after a store -/

@[simp] theorem framed_a (s : State) (rtn : Word) : (framed s rtn).a = s.a := rfl
@[simp] theorem framed_b (s : State) (rtn : Word) : (framed s rtn).b = s.b := rfl
@[simp] theorem framed_x (s : State) (rtn : Word) : (framed s rtn).x = s.x := rfl
@[simp] theorem framed_y (s : State) (rtn : Word) : (framed s rtn).y = s.y := rfl
@[simp] theorem framed_sp (s : State) (rtn : Word) : (framed s rtn).sp = s.sp - 9#16 := rfl
@[simp] theorem framed_pc (s : State) (rtn : Word) : (framed s rtn).pc = s.pc := rfl
@[simp] theorem framed_ccr (s : State) (rtn : Word) : (framed s rtn).ccr = ccrPut s.ccr .i true := rfl
@[simp] theorem framed_mem (s : State) (rtn : Word) : (framed s rtn).mem = framedMemory s rtn := rfl
@[simp] theorem framed_io (s : State) (rtn : Word) : (framed s rtn).io = frameEvents s rtn ++ s.io := rfl
@[simp] theorem framed_platform (s : State) (rtn : Word) : (framed s rtn).platform = s.platform := rfl
@[simp] theorem framed_agenda (s : State) (rtn : Word) : (framed s rtn).agenda = s.agenda := rfl
@[simp] theorem framed_freeIdx (s : State) (rtn : Word) : (framed s rtn).freeIdx = s.freeIdx := rfl

@[simp] theorem stored_a (v : Byte) (ea : Word) (len : Nat) (s : State) : (stored v ea len s).a = s.a := rfl
@[simp] theorem stored_b (v : Byte) (ea : Word) (len : Nat) (s : State) : (stored v ea len s).b = s.b := rfl
@[simp] theorem stored_x (v : Byte) (ea : Word) (len : Nat) (s : State) : (stored v ea len s).x = s.x := rfl
@[simp] theorem stored_y (v : Byte) (ea : Word) (len : Nat) (s : State) : (stored v ea len s).y = s.y := rfl
@[simp] theorem stored_sp (v : Byte) (ea : Word) (len : Nat) (s : State) : (stored v ea len s).sp = s.sp := rfl
@[simp] theorem stored_pc (v : Byte) (ea : Word) (len : Nat) (s : State) : (stored v ea len s).pc = nextPc s len := rfl
@[simp] theorem stored_ccr (v : Byte) (ea : Word) (len : Nat) (s : State) : (stored v ea len s).ccr = moveFlags s.ccr v := rfl
@[simp] theorem stored_mem (v : Byte) (ea : Word) (len : Nat) (s : State) : (stored v ea len s).mem = memAfter s.platform s.mem ea v := rfl
@[simp] theorem stored_io (v : Byte) (ea : Word) (len : Nat) (s : State) : (stored v ea len s).io = writeEvents s.platform ea v ++ s.io := rfl
@[simp] theorem stored_platform (v : Byte) (ea : Word) (len : Nat) (s : State) : (stored v ea len s).platform = s.platform := rfl
@[simp] theorem stored_agenda (v : Byte) (ea : Word) (len : Nat) (s : State) : (stored v ea len s).agenda = s.agenda := rfl
@[simp] theorem stored_freeIdx (v : Byte) (ea : Word) (len : Nat) (s : State) : (stored v ea len s).freeIdx = s.freeIdx := rfl

/-! ## Flags of a state are bits of its CCR -/

theorem flag_eq (s : State) (k : CcrBit) : s.flag k = ccrBit s.ccr k := rfl

end Sys2Proof.Machine
end

