-- ==== Sys2Proof/Machine/Timing.lean ====
section
/-! DEFINITION. The Access Detail strings (R201) and their legend (R200), as data: no step reads them (R2, R200, D15). -/

namespace Sys2Proof.Machine

/-- The strings of the loads and ADDA, character for character (R201). -/
def loadDetail (v : CpuVariant) (m : AddrMode) : String :=
  match m, v with
  | .imm, _ => "P"
  | .dir, .hcs12 => "rPf"
  | .dir, .m68hc12 => "rFP"
  | .ext, .hcs12 => "rPO"
  | .ext, .m68hc12 => "rOP"
  | .idx, .hcs12 => "rPF"
  | .idx, .m68hc12 => "rFP"
  | .idx1, _ => "rPO"
  | .idx2, _ => "frPP"
  | .indDIdx, .hcs12 => "fifrPF"
  | .indDIdx, .m68hc12 => "fifFP"
  | .indIdx2, .hcs12 => "fifrPF"
  | .indIdx2, .m68hc12 => "fifFP"
  | .inh, _ => ""

/-- The strings of the stores (R201). -/
def storeDetail (v : CpuVariant) (m : AddrMode) : String :=
  match m, v with
  | .dir, _ => "Pw"
  | .ext, .hcs12 => "PwO"
  | .ext, .m68hc12 => "wOP"
  | .idx, _ => "Pw"
  | .idx1, _ => "PwO"
  | .idx2, _ => "PwP"
  | .indDIdx, .hcs12 => "PIfW"
  | .indDIdx, .m68hc12 => "PIfPw"
  | .indIdx2, .hcs12 => "PIfW"
  | .indIdx2, .m68hc12 => "PIfPw"
  | .imm, _ => ""
  | .inh, _ => ""

/-- The Access Detail of an instruction on one implementation (R201); the five inherent rows have the digit zero. -/
def accessDetail (v : CpuVariant) (i : Instr) : String :=
  match i.mnemonic with
  | .ldaa => loadDetail v i.addrMode
  | .adda => loadDetail v i.addrMode
  | .staa => storeDetail v i.addrMode
  | .stab => storeDetail v i.addrMode
  | .inca => "0"
  | .clrb => "0"
  | .decb => "0"
  | .lsra => "0"
  | .asra => "0"
  | .swi => "VSPSPSPSP"

/-- The reset row of R201: "A variation of the sequence (VSPSPSP) is used for resets." -/
def resetDetail : String := "VSPSPSP"

/-- What a letter stands for (R200). PRESUMED (log 25): the legend is not in the source. -/
inductive BusCycle where
  | programFetch
  | optionalFetch
  | free
  | readByte
  | writeByte
  | writeWord
  | readPointer
  | stackWord
  | stackByte
  | vectorFetch
  deriving DecidableEq, Repr

/-- The legend of R200, with `F`, `i` and `0` read as `f`, `I` and `O` (conflict C5). -/
def busCycle (letter : Char) : Option BusCycle :=
  match letter with
  | 'P' => some .programFetch
  | 'O' => some .optionalFetch
  | '0' => some .optionalFetch
  | 'f' => some .free
  | 'F' => some .free
  | 'r' => some .readByte
  | 'w' => some .writeByte
  | 'W' => some .writeWord
  | 'I' => some .readPointer
  | 'i' => some .readPointer
  | 'S' => some .stackWord
  | 's' => some .stackByte
  | 'V' => some .vectorFetch
  | _ => none

/-- The cycle count under the one-letter-one-cycle reading (R200, R201). -/
def cycleCount (v : CpuVariant) (i : Instr) : Nat := (accessDetail v i).length

end Sys2Proof.Machine
end

