-- ==== Sys2Proof/Tests/Slice0.lean ====
section
/-! SUPPORT. Tests of the model. Expected results are the vectors of `95_test_vectors.md`, the examples of the rules, or worked
out by hand from a rule (said where so), never the model's own answer. -/

namespace Sys2Proof.Tests

open Sys2Proof.Machine

/-! ## Helpers -/

/-- Memory with data placed at several addresses. -/
def placed (m : List Host.Cell) (data : List (Word × List Byte)) : List Host.Cell :=
  match data with
  | [] => m
  | (a, bs) :: rest => placed (storeBytes m a bs) rest

/-- PC at `$4000` with `code` there, data elsewhere, CCR `$00`, every other register `$00`; code may lie in `$4000` to `$40FF`. -/
def launch (code : List Byte) (data : List (Word × List Byte)) : State :=
  { State.reset with
    pc := 0x4000#16
    ccr := 0x00#8
    mem := placed (storeBytes [] 0x4000#16 code) data
    platform := { Platform.default with codeRegion := [⟨0x4000#16, 0x40FF#16⟩] } }

/-- The next state of an outcome, if it is one. -/
def nextOf (o : Host.Outcome State Fault Refusal) : Option State :=
  match o with
  | .next t => some t
  | .fault _ => none
  | .refused _ => none

/-- The refusal of an outcome, if it is one. -/
def refusalOf (o : Host.Outcome State Fault Refusal) : Option Refusal :=
  match o with
  | .next _ => none
  | .fault _ => none
  | .refused r => some r

/-- The fault of an outcome, if it is one. -/
def faultOf (o : Host.Outcome State Fault Refusal) : Option Fault :=
  match o with
  | .next _ => none
  | .fault f => some f
  | .refused _ => none

/-- A, PC and CCR after one step. -/
def afterA (s : State) : Option (Byte × Word × Byte) := (nextOf (step s)).map (fun t => (t.a, t.pc, t.ccr))

/-- B, PC and CCR after one step. -/
def afterB (s : State) : Option (Byte × Word × Byte) := (nextOf (step s)).map (fun t => (t.b, t.pc, t.ccr))

/-- The byte at `a`, PC and CCR after one step. -/
def afterStore (s : State) (a : Word) : Option (Option Byte × Word × Byte) :=
  (nextOf (step s)).map (fun t => (t.byteAt a, t.pc, t.ccr))

/-- X, Y and SP after one step. -/
def afterIndex (s : State) : Option (Word × Word × Word) := (nextOf (step s)).map (fun t => (t.x, t.y, t.sp))

/-! ## Well-formedness: an ill-formed term for each check, and a well-formed one beside it -/

theorem test_wf_ldaa_auto_rejects_sp : (Instr.ldaaAutoXY .sp .pre 0#4).wellFormed = false := by decide

theorem test_wf_ldaa_auto_accepts_y : (Instr.ldaaAutoXY .y .post 15#4).wellFormed = true := by decide

theorem test_wf_staa_auto_rejects_sp : (Instr.staaAutoXY .sp .pre 0#4).wellFormed = false := by decide

theorem test_wf_staa_auto_accepts_y : (Instr.staaAutoXY .y .post 15#4).wellFormed = true := by decide

theorem test_wf_stab_auto_rejects_sp : (Instr.stabAutoXY .sp .pre 0#4).wellFormed = false := by decide

theorem test_wf_stab_auto_accepts_y : (Instr.stabAutoXY .y .post 15#4).wellFormed = true := by decide

theorem test_wf_adda_auto_rejects_sp : (Instr.addaAutoXY .sp .pre 0#4).wellFormed = false := by decide

theorem test_wf_adda_auto_accepts_y : (Instr.addaAutoXY .y .post 15#4).wellFormed = true := by decide

/-! ## Decoding: one word for each of the 52 rows, written out from R64, R74 and the examples of R76 to R82 -/

/-- V-LDAA-2. -/
theorem test_decode_ldaaImm : decode [0x86#8, 0x80#8] = .ok (.ldaaImm 0x80#8) := by decide

/-- V-LDAA-4. -/
theorem test_decode_ldaaDir : decode [0x96#8, 0x20#8] = .ok (.ldaaDir 0x20#8) := by decide

/-- V-LDAA-5. -/
theorem test_decode_ldaaExt : decode [0xB6#8, 0x12#8, 0x34#8] = .ok (.ldaaExt 0x1234#16) := by decide

/-- R76: LDAA -1,Y. -/
theorem test_decode_ldaaOff5 : decode [0xA6#8, 0x5F#8] = .ok (.ldaaOff5 .y (BitVec.ofInt 5 (-1))) := by decide

/-- R77: LDAA 2,+Y. -/
theorem test_decode_ldaaAutoXY : decode [0xA6#8, 0x61#8] = .ok (.ldaaAutoXY .y .pre 1#4) := by decide

/-- V-LDAA-13: LDAA 2,-SP. -/
theorem test_decode_ldaaAutoSp : decode [0xA6#8, 0xAE#8] = .ok (.ldaaAutoSp .pre (BitVec.ofInt 4 (-2))) := by decide

/-- R78: LDAA B,Y. -/
theorem test_decode_ldaaAcc : decode [0xA6#8, 0xED#8] = .ok (.ldaaAcc .y .b) := by decide

/-- R78: LDAA D,SP. -/
theorem test_decode_ldaaAccD : decode [0xA6#8, 0xF6#8] = .ok (.ldaaAccD .sp) := by decide

/-- R79: LDAA -100,SP. -/
theorem test_decode_ldaaOff9 : decode [0xA6#8, 0xF1#8, 0x9C#8] = .ok (.ldaaOff9 .sp (BitVec.ofInt 9 (-100))) := by decide

/-- R80: LDAA 1000,Y. -/
theorem test_decode_ldaaOff16 : decode [0xA6#8, 0xEA#8, 0x03#8, 0xE8#8] = .ok (.ldaaOff16 .y 1000#16) := by decide

/-- R81: LDAA [D,X]. -/
theorem test_decode_ldaaIndD : decode [0xA6#8, 0xE7#8] = .ok (.ldaaIndD .x) := by decide

/-- R82: LDAA [10,X]. -/
theorem test_decode_ldaaInd16 : decode [0xA6#8, 0xE3#8, 0x00#8, 0x0A#8] = .ok (.ldaaInd16 .x 10#16) := by decide

/-- V-STAA-1. -/
theorem test_decode_staaDir : decode [0x5A#8, 0x20#8] = .ok (.staaDir 0x20#8) := by decide

/-- V-STAA-2. -/
theorem test_decode_staaExt : decode [0x7A#8, 0x10#8, 0x00#8] = .ok (.staaExt 0x1000#16) := by decide

/-- section 2.7, postbyte 1F. -/
theorem test_decode_staaOff5 : decode [0x6A#8, 0x1F#8] = .ok (.staaOff5 .x (BitVec.ofInt 5 (-1))) := by decide

/-- P2: STAA 1,-Y. -/
theorem test_decode_staaAutoXY : decode [0x6A#8, 0x6F#8] = .ok (.staaAutoXY .y .pre (BitVec.ofInt 4 (-1))) := by decide

/-- R77: STAA 1,-SP. -/
theorem test_decode_staaAutoSp : decode [0x6A#8, 0xAF#8] = .ok (.staaAutoSp .pre (BitVec.ofInt 4 (-1))) := by decide

/-- R78: STAA A,X. -/
theorem test_decode_staaAcc : decode [0x6A#8, 0xE4#8] = .ok (.staaAcc .x .a) := by decide

/-- section 2.7, postbyte E6. -/
theorem test_decode_staaAccD : decode [0x6A#8, 0xE6#8] = .ok (.staaAccD .x) := by decide

/-- V-STAA-6. -/
theorem test_decode_staaOff9 : decode [0x6A#8, 0xE1#8, 0xFF#8] = .ok (.staaOff9 .x (BitVec.ofInt 9 (-1))) := by decide

/-- section 2.7, postbyte E2. -/
theorem test_decode_staaOff16 : decode [0x6A#8, 0xE2#8, 0x01#8, 0x02#8] = .ok (.staaOff16 .x 0x0102#16) := by decide

/-- V-STAA-5: STAA [D,Y]. -/
theorem test_decode_staaIndD : decode [0x6A#8, 0xEF#8] = .ok (.staaIndD .y) := by decide

/-- P2: STAA [0,Y]. -/
theorem test_decode_staaInd16 : decode [0x6A#8, 0xEB#8, 0x00#8, 0x00#8] = .ok (.staaInd16 .y 0#16) := by decide

/-- V-STAB-1. -/
theorem test_decode_stabDir : decode [0x5B#8, 0xFF#8] = .ok (.stabDir 0xFF#8) := by decide

/-- V-STAB-2. -/
theorem test_decode_stabExt : decode [0x7B#8, 0x20#8, 0x00#8] = .ok (.stabExt 0x2000#16) := by decide

/-- V-STAB-3: STAB 0,X. -/
theorem test_decode_stabOff5 : decode [0x6B#8, 0x00#8] = .ok (.stabOff5 .x 0#5) := by decide

/-- V-STAB-4: STAB 2,Y+. -/
theorem test_decode_stabAutoXY : decode [0x6B#8, 0x71#8] = .ok (.stabAutoXY .y .post 1#4) := by decide

/-- section 2.7, postbyte BF. -/
theorem test_decode_stabAutoSp : decode [0x6B#8, 0xBF#8] = .ok (.stabAutoSp .post (BitVec.ofInt 4 (-1))) := by decide

/-- V-STAB-5: STAB B,X. -/
theorem test_decode_stabAcc : decode [0x6B#8, 0xE5#8] = .ok (.stabAcc .x .b) := by decide

/-- section 2.7, postbytes F8 to FF. -/
theorem test_decode_stabAccD : decode [0x6B#8, 0xFE#8] = .ok (.stabAccD .pc) := by decide

/-- R79, base PC. -/
theorem test_decode_stabOff9 : decode [0x6B#8, 0xF9#8, 0x80#8] = .ok (.stabOff9 .pc (BitVec.ofInt 9 (-128))) := by decide

/-- R80, base PC. -/
theorem test_decode_stabOff16 : decode [0x6B#8, 0xFA#8, 0x12#8, 0x34#8] = .ok (.stabOff16 .pc 0x1234#16) := by decide

/-- R81: STAB [D,PC]. -/
theorem test_decode_stabIndD : decode [0x6B#8, 0xFF#8] = .ok (.stabIndD .pc) := by decide

/-- V-STAB-6: STAB [4,SP]. -/
theorem test_decode_stabInd16 : decode [0x6B#8, 0xF3#8, 0x00#8, 0x04#8] = .ok (.stabInd16 .sp 4#16) := by decide

/-- R121, worked example. -/
theorem test_decode_addaImm : decode [0x8B#8, 0x49#8] = .ok (.addaImm 0x49#8) := by decide

/-- V-ADDA-14. -/
theorem test_decode_addaDir : decode [0x9B#8, 0x40#8] = .ok (.addaDir 0x40#8) := by decide

/-- V-ADDA-15. -/
theorem test_decode_addaExt : decode [0xBB#8, 0x12#8, 0x34#8] = .ok (.addaExt 0x1234#16) := by decide

/-- R76, 2,PC. -/
theorem test_decode_addaOff5 : decode [0xAB#8, 0xC2#8] = .ok (.addaOff5 .pc 2#5) := by decide

/-- R77, 8,X-. -/
theorem test_decode_addaAutoXY : decode [0xAB#8, 0x38#8] = .ok (.addaAutoXY .x .post (BitVec.ofInt 4 (-8))) := by decide

/-- R77, 8,+SP. -/
theorem test_decode_addaAutoSp : decode [0xAB#8, 0xA7#8] = .ok (.addaAutoSp .pre 7#4) := by decide

/-- V-ADDA-17: ADDA A,X. -/
theorem test_decode_addaAcc : decode [0xAB#8, 0xE4#8] = .ok (.addaAcc .x .a) := by decide

/-- section 2.7, postbytes E8 to EF. -/
theorem test_decode_addaAccD : decode [0xAB#8, 0xEE#8] = .ok (.addaAccD .y) := by decide

/-- R79, base Y. -/
theorem test_decode_addaOff9 : decode [0xAB#8, 0xE8#8, 0x7F#8] = .ok (.addaOff9 .y 127#9) := by decide

/-- R80, base SP. -/
theorem test_decode_addaOff16 : decode [0xAB#8, 0xF2#8, 0xFF#8, 0xFF#8] = .ok (.addaOff16 .sp 0xFFFF#16) := by decide

/-- section 2.7, postbytes F0 to F7. -/
theorem test_decode_addaIndD : decode [0xAB#8, 0xF7#8] = .ok (.addaIndD .sp) := by decide

/-- R82, base PC. -/
theorem test_decode_addaInd16 : decode [0xAB#8, 0xFB#8, 0x80#8, 0x00#8] = .ok (.addaInd16 .pc 0x8000#16) := by decide

/-- R122. -/
theorem test_decode_inca : decode [0x42#8] = .ok (.inca) := by decide

/-- R123. -/
theorem test_decode_clrb : decode [0xC7#8] = .ok (.clrb) := by decide

/-- R124. -/
theorem test_decode_decb : decode [0x53#8] = .ok (.decb) := by decide

/-- R141. -/
theorem test_decode_lsra : decode [0x44#8] = .ok (.lsra) := by decide

/-- R142. -/
theorem test_decode_asra : decode [0x47#8] = .ok (.asra) := by decide

/-- R151. -/
theorem test_decode_swi : decode [0x3F#8] = .ok (.swi) := by decide

/-- Section 2.7: bytes that are no opcode of this spec, beside the accepted `86`, `C7` and `3F`. -/
theorem test_decode_rejects_by_name :
    [0x00#8, 0x0B#8, 0x18#8, 0x36#8, 0x87#8, 0xC6#8, 0xFF#8].map (fun b => decode [b, 0#8, 0#8, 0#8]) =
      [.error (.opcodeNotShown 0x00#8), .error (.opcodeNotShown 0x0B#8), .error (.opcodeNotShown 0x18#8),
        .error (.opcodeNotShown 0x36#8), .error (.opcodeNotShown 0x87#8), .error (.opcodeNotShown 0xC6#8),
        .error (.opcodeNotShown 0xFF#8)] := by decide

/-- Bytes that end before the instruction does (R61). -/
theorem test_decode_truncated : decode [0xA6#8, 0xE2#8, 0x01#8] = .error .truncated := by decide

/-- Section 2.7: the length by postbyte, after each of the four indexed opcode bytes. -/
theorem test_decode_length_by_postbyte :
    [(0x00#8, 2), (0x1F#8, 2), (0xC0#8, 2), (0x27#8, 2), (0x7F#8, 2), (0xBF#8, 2), (0xE0#8, 3), (0xE1#8, 3), (0xE2#8, 4),
      (0xE3#8, 4), (0xE4#8, 2), (0xE5#8, 2), (0xE6#8, 2), (0xE7#8, 2), (0xF9#8, 3), (0xFB#8, 4)].all (fun p =>
        indexedOpcodes.all (fun op =>
          match decode [op, p.1, 0x12#8, 0x34#8] with
          | .ok i => i.length == p.2
          | .error _ => false)) = true := by decide

/-- R69, numbered as the table numbers them: a two-digit mask (byte 0 in bits 7 to 0), a four-digit mask (`byte0 : byte1`), and a
row of three bytes whose operand is given. -/
theorem test_table_words :
    decodeTableWord 8 0x42 = some .inca ∧ decodeTableWord 16 0x8086 = some (.ldaaImm 0x80#8) ∧
    decodeTableWord 8 0x86 = some (.ldaaImm 0x00#8) ∧ decodeTableWord 16 0xA6E7 = some (.ldaaIndD .x) ∧
    decodeTableWord 16 0x6AE2 = some (.staaOff16 .x 0#16) ∧ decodeTableWord 24 0x3412B6 = some (.ldaaExt 0x1234#16) ∧
    decodeTableWord 8 0x18 = none := by decide

/-- An instruction placed at reset is the next step (R122: `$00` becomes `$01`), and it is refused where it stores into itself
(R55). -/
theorem test_placed_instruction_runs :
    (nextOf (step (State.reset.withFetchWord 8 0x42))).map (fun t => (t.a, t.pc)) = some (0x01#8, 0x0001#16) ∧
    refusalOf (step (State.reset.withFetchWord 16 0x005A)) = some (.storeToCode 0x0000#16) := by decide

/-! ## Instructions: the vectors of `95_test_vectors.md` sections 2.1 to 2.6 -/

/-- V-LDAA-1. -/
theorem test_ldaaImm_zero :
    afterA { launch [0x86#8, 0x00#8] [] with a := 0x55#8, ccr := 0xFF#8 } =
      some (0x00#8, 0x4002#16, 0xF5#8) := by decide

/-- V-LDAA-2. -/
theorem test_ldaaImm_negative :
    afterA { launch [0x86#8, 0x80#8] [] with a := 0x12#8, ccr := 0xD1#8 } =
      some (0x80#8, 0x4002#16, 0xD9#8) := by decide

/-- V-LDAA-4. -/
theorem test_ldaaDir :
    afterA { launch [0x96#8, 0x20#8] [(0x0020#16, [0xFF#8])] with ccr := 0x02#8 } =
      some (0xFF#8, 0x4002#16, 0x08#8) := by decide

/-- V-LDAA-5. -/
theorem test_ldaaExt :
    afterA { launch [0xB6#8, 0x12#8, 0x34#8] [(0x1234#16, [0x01#8])] with ccr := 0x0F#8 } =
      some (0x01#8, 0x4003#16, 0x01#8) := by decide

/-- V-LDAA-8. -/
theorem test_ldaaOff5_wraps :
    afterA (launch [0xA6#8, 0x1F#8] [(0xFFFF#16, [0x77#8])]) =
      some (0x77#8, 0x4002#16, 0x00#8) := by decide

/-- V-LDAA-9. -/
theorem test_ldaaOff5_pc :
    afterA (launch [0xA6#8, 0xC0#8, 0x3F#8] []) =
      some (0x3F#8, 0x4002#16, 0x00#8) := by decide

/-- V-LDAA-12. -/
theorem test_ldaaAutoXY_post :
    afterA { launch [0xA6#8, 0x38#8] [(0x2000#16, [0x33#8])] with x := 0x2000#16 } =
      some (0x33#8, 0x4002#16, 0x00#8) ∧
    afterIndex { launch [0xA6#8, 0x38#8] [(0x2000#16, [0x33#8])] with x := 0x2000#16 } =
      some (0x1FF8#16, 0x0000#16, 0x0000#16) := by decide

/-- V-LDAA-11. -/
theorem test_ldaaAutoXY_pre :
    afterA { launch [0xA6#8, 0x20#8] [(0x2001#16, [0x22#8])] with x := 0x2000#16 } =
      some (0x22#8, 0x4002#16, 0x00#8) ∧
    afterIndex { launch [0xA6#8, 0x20#8] [(0x2001#16, [0x22#8])] with x := 0x2000#16 } =
      some (0x2001#16, 0x0000#16, 0x0000#16) := by decide

/-- V-LDAA-13. -/
theorem test_ldaaAutoSp :
    afterA { launch [0xA6#8, 0xAE#8] [(0x1FFE#16, [0x44#8])] with sp := 0x2000#16 } =
      some (0x44#8, 0x4002#16, 0x00#8) ∧
    afterIndex { launch [0xA6#8, 0xAE#8] [(0x1FFE#16, [0x44#8])] with sp := 0x2000#16 } =
      some (0x0000#16, 0x0000#16, 0x1FFE#16) := by decide

/-- V-LDAA-14. -/
theorem test_ldaaAcc_a :
    afterA { launch [0xA6#8, 0xE4#8] [(0x20F0#16, [0x5A#8])] with a := 0xF0#8, x := 0x2000#16 } =
      some (0x5A#8, 0x4002#16, 0x00#8) := by decide

/-- V-LDAA-15. -/
theorem test_ldaaAcc_b :
    afterA { launch [0xA6#8, 0xED#8] [(0x30FF#16, [0x80#8])] with b := 0xFF#8, y := 0x3000#16 } =
      some (0x80#8, 0x4002#16, 0x08#8) := by decide

/-- V-LDAA-16. -/
theorem test_ldaaAccD :
    afterA { launch [0xA6#8, 0xF6#8] [(0x3234#16, [0x00#8])] with a := 0x12#8, b := 0x34#8, sp := 0x2000#16 } =
      some (0x00#8, 0x4002#16, 0x04#8) := by decide

/-- V-LDAA-19. -/
theorem test_ldaaOff9 :
    afterA { launch [0xA6#8, 0xE1#8, 0x00#8] [(0x1F00#16, [0x02#8])] with x := 0x2000#16 } =
      some (0x02#8, 0x4003#16, 0x00#8) := by decide

/-- V-LDAA-23. -/
theorem test_ldaaOff9_pc :
    afterA (launch [0xA6#8, 0xF8#8, 0x01#8] [(0x4004#16, [0x67#8])]) =
      some (0x67#8, 0x4003#16, 0x00#8) := by decide

/-- V-LDAA-21. -/
theorem test_ldaaOff16 :
    afterA { launch [0xA6#8, 0xE2#8, 0xFF#8, 0xFF#8] [(0x1FFF#16, [0x20#8])] with x := 0x2000#16 } =
      some (0x20#8, 0x4004#16, 0x00#8) := by decide

/-- V-LDAA-22. -/
theorem test_ldaaOff16_pc :
    afterA (launch [0xA6#8, 0xFA#8, 0x00#8, 0x04#8] [(0x4008#16, [0x66#8])]) =
      some (0x66#8, 0x4004#16, 0x00#8) := by decide

/-- V-LDAA-24. -/
theorem test_ldaaIndD :
    afterA { launch [0xA6#8, 0xE7#8] [(0x2010#16, [0x30#8, 0x00#8]), (0x3000#16, [0xC3#8])] with b := 0x10#8, x := 0x2000#16 } =
      some (0xC3#8, 0x4002#16, 0x08#8) := by decide

/-- V-LDAA-25. -/
theorem test_ldaaInd16 :
    afterA { launch [0xA6#8, 0xE3#8, 0x00#8, 0x0A#8] [(0x200A#16, [0x12#8, 0x34#8]), (0x1234#16, [0x00#8])] with x := 0x2000#16, ccr := 0x08#8 } =
      some (0x00#8, 0x4004#16, 0x04#8) := by decide

/-- V-STAA-1. -/
theorem test_staaDir :
    afterStore { launch [0x5A#8, 0x20#8] [] with a := 0x80#8, ccr := 0x07#8 } 0x0020#16 =
      some (some 0x80#8, 0x4002#16, 0x09#8) := by decide

/-- V-STAA-2. -/
theorem test_staaExt :
    afterStore { launch [0x7A#8, 0x10#8, 0x00#8] [] with a := 0x00#8, ccr := 0x0B#8 } 0x1000#16 =
      some (some 0x00#8, 0x4003#16, 0x05#8) := by decide

/-- R76 by hand, `STAA 2,SP` of P3. -/
theorem test_staaOff5 :
    afterStore { launch [0x6A#8, 0x82#8] [] with a := 0x3F#8, sp := 0x1FF7#16, ccr := 0xD1#8 } 0x1FF9#16 =
      some (some 0x3F#8, 0x4002#16, 0xD1#8) := by decide

/-- P2, `STAA 1,-Y`. -/
theorem test_staaAutoXY :
    afterStore { launch [0x6A#8, 0x6F#8] [] with a := 0x06#8, y := 0x3000#16, ccr := 0xD0#8 } 0x2FFF#16 =
      some (some 0x06#8, 0x4002#16, 0xD0#8) ∧
    afterIndex { launch [0x6A#8, 0x6F#8] [] with a := 0x06#8, y := 0x3000#16, ccr := 0xD0#8 } =
      some (0x0000#16, 0x2FFF#16, 0x0000#16) := by decide

/-- V-STAA-3. -/
theorem test_staaAutoSp :
    afterStore { launch [0x6A#8, 0xAF#8] [] with a := 0x7F#8, sp := 0x2000#16, ccr := 0x0E#8 } 0x1FFF#16 =
      some (some 0x7F#8, 0x4002#16, 0x00#8) ∧
    afterIndex { launch [0x6A#8, 0xAF#8] [] with a := 0x7F#8, sp := 0x2000#16, ccr := 0x0E#8 } =
      some (0x0000#16, 0x0000#16, 0x1FFF#16) := by decide

/-- V-STAA-4. -/
theorem test_staaAcc :
    afterStore { launch [0x6A#8, 0xE4#8] [] with a := 0x10#8, x := 0x2000#16 } 0x2010#16 =
      some (some 0x10#8, 0x4002#16, 0x00#8) := by decide

/-- R78 by hand. -/
theorem test_staaAccD :
    afterStore { launch [0x6A#8, 0xEE#8] [] with a := 0x81#8, b := 0x02#8, y := 0x3000#16 } 0xB102#16 =
      some (some 0x81#8, 0x4002#16, 0x08#8) := by decide

/-- V-STAA-6. -/
theorem test_staaOff9 :
    afterStore { launch [0x6A#8, 0xE1#8, 0xFF#8] [] with a := 0xFF#8, x := 0x2000#16, ccr := 0x01#8 } 0x1FFF#16 =
      some (some 0xFF#8, 0x4003#16, 0x09#8) := by decide

/-- R80 by hand. -/
theorem test_staaOff16 :
    afterStore { launch [0x6A#8, 0xEA#8, 0x03#8, 0xE8#8] [] with a := 0x01#8, y := 0x3000#16, ccr := 0x0F#8 } 0x33E8#16 =
      some (some 0x01#8, 0x4004#16, 0x01#8) := by decide

/-- V-STAA-5. -/
theorem test_staaIndD :
    afterStore { launch [0x6A#8, 0xEF#8] [(0x3105#16, [0x12#8, 0x00#8])] with a := 0x01#8, b := 0x05#8, y := 0x3000#16 } 0x1200#16 =
      some (some 0x01#8, 0x4002#16, 0x00#8) := by decide

/-- P2, `STAA [0,Y]`. -/
theorem test_staaInd16 :
    afterStore { launch [0x6A#8, 0xEB#8, 0x00#8, 0x00#8] [(0x3000#16, [0x12#8, 0x34#8])] with a := 0x05#8, y := 0x3000#16, ccr := 0xD0#8 } 0x1234#16 =
      some (some 0x05#8, 0x4004#16, 0xD0#8) := by decide

/-- V-STAB-1. -/
theorem test_stabDir :
    afterStore { launch [0x5B#8, 0xFF#8] [] with b := 0x00#8, ccr := 0x08#8 } 0x00FF#16 =
      some (some 0x00#8, 0x4002#16, 0x04#8) := by decide

/-- V-STAB-2. -/
theorem test_stabExt :
    afterStore { launch [0x7B#8, 0x20#8, 0x00#8] [] with b := 0x81#8, ccr := 0x06#8 } 0x2000#16 =
      some (some 0x81#8, 0x4003#16, 0x08#8) := by decide

/-- V-STAB-3. -/
theorem test_stabOff5 :
    afterStore { launch [0x6B#8, 0x00#8] [] with b := 0xFF#8, x := 0x2000#16, ccr := 0x04#8 } 0x2000#16 =
      some (some 0xFF#8, 0x4002#16, 0x08#8) := by decide

/-- V-STAB-4. -/
theorem test_stabAutoXY :
    afterStore { launch [0x6B#8, 0x71#8] [] with b := 0x01#8, y := 0x3000#16 } 0x3000#16 =
      some (some 0x01#8, 0x4002#16, 0x00#8) ∧
    afterIndex { launch [0x6B#8, 0x71#8] [] with b := 0x01#8, y := 0x3000#16 } =
      some (0x0000#16, 0x3002#16, 0x0000#16) := by decide

/-- R77 by hand, post-decrement of SP `$0000`. -/
theorem test_stabAutoSp :
    afterStore { launch [0x6B#8, 0xBF#8] [] with b := 0x01#8, sp := 0x0000#16 } 0x0000#16 =
      some (some 0x01#8, 0x4002#16, 0x00#8) ∧
    afterIndex { launch [0x6B#8, 0xBF#8] [] with b := 0x01#8, sp := 0x0000#16 } =
      some (0x0000#16, 0x0000#16, 0xFFFF#16) := by decide

/-- V-STAB-5. -/
theorem test_stabAcc :
    afterStore { launch [0x6B#8, 0xE5#8] [] with b := 0x40#8, x := 0x2000#16 } 0x2040#16 =
      some (some 0x40#8, 0x4002#16, 0x00#8) := by decide

/-- R78 by hand, base PC `$4002`. -/
theorem test_stabAccD :
    afterStore { launch [0x6B#8, 0xFE#8] [] with a := 0x10#8, b := 0x80#8 } 0x5082#16 =
      some (some 0x80#8, 0x4002#16, 0x08#8) := by decide

/-- R79 by hand, base PC `$4003`. -/
theorem test_stabOff9 :
    afterStore { launch [0x6B#8, 0xF9#8, 0x00#8] [] with b := 0x22#8 } 0x3F03#16 =
      some (some 0x22#8, 0x4003#16, 0x00#8) := by decide

/-- R80 by hand, base PC `$4004`, wraps. -/
theorem test_stabOff16 :
    afterStore { launch [0x6B#8, 0xFA#8, 0xC0#8, 0x00#8] [] with b := 0x22#8 } 0x0004#16 =
      some (some 0x22#8, 0x4004#16, 0x00#8) := by decide

/-- R81 by hand, base PC `$4002`. -/
theorem test_stabIndD :
    afterStore { launch [0x6B#8, 0xFF#8] [(0x4102#16, [0x18#8, 0x00#8])] with a := 0x01#8, b := 0x00#8 } 0x1800#16 =
      some (some 0x00#8, 0x4002#16, 0x04#8) := by decide

/-- V-STAB-6. -/
theorem test_stabInd16 :
    afterStore { launch [0x6B#8, 0xF3#8, 0x00#8, 0x04#8] [(0x2004#16, [0x18#8, 0x00#8])] with b := 0x7E#8, sp := 0x2000#16, ccr := 0x0F#8 } 0x1800#16 =
      some (some 0x7E#8, 0x4004#16, 0x01#8) := by decide

/-- V-ADDA-4. -/
theorem test_addaImm_overflow :
    afterA { launch [0x8B#8, 0x80#8] [] with a := 0x80#8 } =
      some (0x00#8, 0x4002#16, 0x07#8) := by decide

/-- V-ADDA-13. -/
theorem test_addaImm_half_carry :
    afterA { launch [0x8B#8, 0x01#8] [] with a := 0x01#8, ccr := 0xFF#8 } =
      some (0x02#8, 0x4002#16, 0xD0#8) := by decide

/-- V-ADDA-14. -/
theorem test_addaDir :
    afterA { launch [0x9B#8, 0x40#8] [(0x0040#16, [0x22#8])] with a := 0x11#8, ccr := 0x01#8 } =
      some (0x33#8, 0x4002#16, 0x00#8) := by decide

/-- V-ADDA-15. -/
theorem test_addaExt :
    afterA { launch [0xBB#8, 0x12#8, 0x34#8] [(0x1234#16, [0x90#8])] with a := 0x90#8 } =
      some (0x20#8, 0x4003#16, 0x03#8) := by decide

/-- P3, `ADDA 1,SP`. -/
theorem test_addaOff5 :
    afterA { launch [0xAB#8, 0x81#8] [(0x1FF8#16, [0xFF#8])] with a := 0x40#8, sp := 0x1FF7#16, ccr := 0xD3#8 } =
      some (0x3F#8, 0x4002#16, 0xD1#8) := by decide

/-- V-ADDA-16. -/
theorem test_addaAutoXY :
    afterA { launch [0xAB#8, 0x30#8] [(0x2000#16, [0x05#8])] with a := 0x0B#8, x := 0x2000#16 } =
      some (0x10#8, 0x4002#16, 0x20#8) ∧
    afterIndex { launch [0xAB#8, 0x30#8] [(0x2000#16, [0x05#8])] with a := 0x0B#8, x := 0x2000#16 } =
      some (0x2001#16, 0x0000#16, 0x0000#16) := by decide

/-- R77 and V-ADDA-2 by hand, `ADDA 8,+SP`. -/
theorem test_addaAutoSp :
    afterA { launch [0xAB#8, 0xA7#8] [(0x2008#16, [0x01#8])] with a := 0xFF#8, sp := 0x2000#16 } =
      some (0x00#8, 0x4002#16, 0x25#8) ∧
    afterIndex { launch [0xAB#8, 0xA7#8] [(0x2008#16, [0x01#8])] with a := 0xFF#8, sp := 0x2000#16 } =
      some (0x0000#16, 0x0000#16, 0x2008#16) := by decide

/-- V-ADDA-17. -/
theorem test_addaAcc :
    afterA { launch [0xAB#8, 0xE4#8] [(0x2003#16, [0xFD#8])] with a := 0x03#8, x := 0x2000#16 } =
      some (0x00#8, 0x4002#16, 0x25#8) := by decide

/-- R78 and V-ADDA-3 by hand, `ADDA D,X`. -/
theorem test_addaAccD :
    afterA { launch [0xAB#8, 0xE6#8] [(0x9F34#16, [0x01#8])] with a := 0x7F#8, b := 0x34#8, x := 0x2000#16 } =
      some (0x80#8, 0x4002#16, 0x2A#8) := by decide

/-- R79 and V-ADDA-9 by hand, `ADDA 255,Y`. -/
theorem test_addaOff9 :
    afterA { launch [0xAB#8, 0xE8#8, 0xFF#8] [(0x30FF#16, [0x7F#8])] with a := 0x80#8, y := 0x3000#16 } =
      some (0xFF#8, 0x4003#16, 0x08#8) := by decide

/-- R80 and V-ADDA-8 by hand. -/
theorem test_addaOff16 :
    afterA { launch [0xAB#8, 0xF2#8, 0xFF#8, 0xFF#8] [(0x1FFF#16, [0x10#8])] with a := 0xF0#8, sp := 0x2000#16 } =
      some (0x00#8, 0x4004#16, 0x05#8) := by decide

/-- V-ADDA-18. -/
theorem test_addaIndD :
    afterA { launch [0xAB#8, 0xE7#8] [(0x2102#16, [0x40#8, 0x00#8])] with a := 0x01#8, b := 0x02#8, x := 0x2000#16 } =
      some (0xAC#8, 0x4002#16, 0x08#8) := by decide

/-- R82 and V-ADDA-10 by hand. -/
theorem test_addaInd16 :
    afterA { launch [0xAB#8, 0xE3#8, 0x00#8, 0x0A#8] [(0x200A#16, [0x12#8, 0x34#8]), (0x1234#16, [0xFF#8])] with a := 0xFF#8, x := 0x2000#16 } =
      some (0xFE#8, 0x4004#16, 0x29#8) := by decide

/-- V-INCA-3. -/
theorem test_inca_overflow :
    afterA { launch [0x42#8] [] with a := 0x7F#8, ccr := 0x21#8 } =
      some (0x80#8, 0x4001#16, 0x2B#8) := by decide

/-- V-INCA-6. -/
theorem test_inca_wraps :
    afterA { launch [0x42#8] [] with a := 0xFF#8, ccr := 0x21#8 } =
      some (0x00#8, 0x4001#16, 0x25#8) := by decide

/-- V-CLRB-1. -/
theorem test_clrb :
    afterB { launch [0xC7#8] [] with b := 0x5A#8, ccr := 0xFB#8 } =
      some (0x00#8, 0x4001#16, 0xF4#8) := by decide

/-- V-DECB-5. -/
theorem test_decb_overflow :
    afterB { launch [0x53#8] [] with b := 0x80#8, ccr := 0x21#8 } =
      some (0x7F#8, 0x4001#16, 0x23#8) := by decide

/-- V-DECB-1. -/
theorem test_decb_wraps :
    afterB { launch [0x53#8] [] with b := 0x00#8, ccr := 0x21#8 } =
      some (0xFF#8, 0x4001#16, 0x29#8) := by decide

/-- V-LSRA-6. -/
theorem test_lsra_odd :
    afterA { launch [0x44#8] [] with a := 0x81#8, ccr := 0x08#8 } =
      some (0x40#8, 0x4001#16, 0x03#8) := by decide

/-- V-LSRA-2. -/
theorem test_lsra_to_zero :
    afterA { launch [0x44#8] [] with a := 0x01#8, ccr := 0x08#8 } =
      some (0x00#8, 0x4001#16, 0x07#8) := by decide

/-- V-ASRA-5. -/
theorem test_asra_negative :
    afterA { launch [0x47#8] [] with a := 0x80#8 } =
      some (0xC0#8, 0x4001#16, 0x0A#8) := by decide

/-- V-ASRA-7. -/
theorem test_asra_odd :
    afterA { launch [0x47#8] [] with a := 0x85#8 } =
      some (0xC2#8, 0x4001#16, 0x09#8) := by decide
/-! ## SWI, exceptions, reset and stops -/

/-- The state of V-SWI-1. -/
def swiState : State :=
  { launch [0x3F#8] [(0xFFF6#16, [0x50#8, 0x00#8])] with
    a := 0x12#8, b := 0x34#8, x := 0x5678#16, y := 0x9ABC#16, sp := 0x2000#16, ccr := 0xC1#8 }

/-- V-SWI-1: the frame, from the new SP up. -/
theorem test_swi_frame :
    (nextOf (step swiState)).map (fun t => (t.sp, t.pc, t.ccr, (List.range 9).map (fun k => t.byteAt (t.sp + BitVec.ofNat 16 k)))) =
      some (0x1FF7#16, 0x5000#16, 0xD1#8,
        [some 0xC1#8, some 0x34#8, some 0x12#8, some 0x56#8, some 0x78#8, some 0x9A#8, some 0xBC#8, some 0x40#8, some 0x01#8]) := by
  decide

/-- V-SWI-3: SP wraps below `$0000`. -/
theorem test_swi_wraps :
    (nextOf (step { swiState with a := 0x01#8, b := 0x02#8, x := 0x0304#16, y := 0x0506#16, sp := 0x0004#16, ccr := 0x00#8 })).map
      (fun t => (t.sp, t.pc, t.ccr, t.byteAt 0xFFFB#16, t.byteAt 0xFFFC#16, t.byteAt 0xFFFF#16, t.byteAt 0x0000#16, t.byteAt 0x0003#16)) =
      some (0xFFFB#16, 0x5000#16, 0x10#8, some 0x00#8, some 0x02#8, some 0x04#8, some 0x05#8, some 0x01#8) := by
  decide

/-- A platform that may interrupt: `$FFF2` (IRQ) holds `$6000`, `$FFF4` (XIRQ) holds `$7000`, an INCA at PC. -/
def irqState (k : Nat) (ccr : Byte) : State :=
  { launch [0x42#8] [(0xFFF2#16, [0x60#8, 0x00#8, 0x70#8, 0x00#8])] with sp := 0x2000#16, ccr := ccr, agenda := [.request k] }

/-- R166, R163 by hand: IRQ with I clear stacks the address of the INCA, sets I and leaves X. -/
theorem test_irq_entry :
    (nextOf (step (irqState 1 0x00#8))).map (fun t => (t.pc, t.sp, t.ccr, t.byteAt 0x1FFE#16, t.byteAt 0x1FFF#16)) =
      some (0x6000#16, 0x1FF7#16, 0x10#8, some 0x40#8, some 0x00#8) := by
  decide

/-- R163 by hand: XIRQ with X clear is taken while I is set, and sets X. -/
theorem test_xirq_entry :
    (nextOf (step (irqState 0 0x10#8))).map (fun t => (t.pc, t.ccr, t.byteAt 0x1FF7#16)) = some (0x7000#16, 0x50#8, some 0x10#8) := by
  decide

/-- R166 by hand: with I set, IRQ is not taken and the INCA runs. -/
theorem test_irq_masked :
    (nextOf (step (irqState 1 0x10#8))).map (fun t => (t.a, t.pc, t.sp)) = some (0x01#8, 0x4001#16, 0x2000#16) := by
  decide

/-- A reset is due; the map keeps `$8000` to `$FFFF`, where the reset vector holds `$C000`. -/
def resetDueState : State :=
  { launch [0x42#8] [(0xFFFE#16, [0xC0#8, 0x00#8])] with
    platform := { Platform.default with memMap := [⟨⟨0x8000#16, 0xFFFF#16⟩, .readOnly, true⟩] }
    agenda := [.reset] }

/-- R190 by hand: PC from the vector, nothing stacked, the bytes outside the kept region without a value. -/
theorem test_reset_event :
    (nextOf (step resetDueState)).map (fun t => (t.pc, t.byteAt 0xFFFE#16, t.byteAt 0x4000#16, t.agenda)) =
      some (0xC000#16, some 0xC0#8, none, []) := by
  decide

/-- R165 by hand: the trap's sequence, with the address after the two opcode bytes. -/
theorem test_trap_sequence :
    (takeUnimplementedOpcode { launch [] [(0xFFF8#16, [0x55#8, 0x00#8])] with sp := 0x2000#16 }).toOption.map
      (fun t => (t.pc, t.sp, t.byteAt 0x1FFE#16, t.byteAt 0x1FFF#16)) =
      some (0x5500#16, 0x1FF7#16, some 0x40#8, some 0x02#8) := by
  decide

/-- R172 by hand, on the frame of V-SWI-1, with the live X clear: A, Y, PC, SP and the CCR with X still clear. -/
theorem test_return_sequence :
    (returnFromException { launch [] [(0x1FF7#16, [0xC1#8, 0x34#8, 0x12#8, 0x56#8, 0x78#8, 0x9A#8, 0xBC#8, 0x40#8, 0x01#8])] with
      sp := 0x1FF7#16, ccr := 0x10#8 }).toOption.map (fun t => (t.a, t.y, t.pc, t.sp, t.ccr)) =
      some (0x12#8, 0x9ABC#16, 0x4001#16, 0x2000#16, 0x81#8) := by
  decide

/-- D12: at `HALT_PC` the run has ended, although the byte there decodes. -/
theorem test_halt :
    faultOf (step { launch [0x42#8] [] with
      platform := { Platform.default with codeRegion := [⟨0x4000#16, 0x40FF#16⟩], haltPc := some 0x4000#16 } }) = some .halted := by
  decide

/-- P4: the byte `0B` is refused by name. -/
theorem test_refused_opcode : refusalOf (step (launch [0x0B#8] [])) = some (.opcodeNotShown 0x0B#8) := by decide

/-- R55: a fetch from outside the code region, a store into it. -/
theorem test_refused_code :
    refusalOf (step { launch [0x42#8] [] with pc := 0x4100#16 }) = some (.fetchOutsideCode 0x4100#16) ∧
    refusalOf (step (launch [0x7A#8, 0x40#8, 0xFF#8] [])) = some (.storeToCode 0x40FF#16) := by
  decide

/-- R42: a byte without a value. -/
theorem test_refused_unwritten : refusalOf (step (launch [0x96#8, 0x20#8] [])) = some (.unwrittenMemory 0x0020#16) := by decide

/-- A map with every kind: nothing at `$0000` to `$000F`, a device at `$0010`, read-only at `$0011` and `$0012`. -/
def mappedState : State :=
  { launch [] [(0x0011#16, [0x99#8])] with
    platform := { Platform.default with
      memMap := [⟨⟨0x0000#16, 0x000F#16⟩, .absent, false⟩, ⟨⟨0x0010#16, 0x0010#16⟩, .device, false⟩,
        ⟨⟨0x0011#16, 0x0012#16⟩, .readOnly, false⟩]
      codeRegion := [⟨0x4000#16, 0x40FF#16⟩] } }

/-- R42, D17: the kinds at the ends of their ranges. -/
theorem test_map :
    readByte mappedState 0x0000#16 = .error (.unmappedAccess 0x0000#16) ∧
    readByte mappedState 0x000F#16 = .error (.unmappedAccess 0x000F#16) ∧
    readByte mappedState 0x0011#16 = .ok (0x99#8, mappedState) ∧
    readByte mappedState 0x0012#16 = .error (.unwrittenMemory 0x0012#16) ∧
    (writeByte mappedState 0x0012#16 0#8).toOption = none ∧
    ((writeByte mappedState 0x0013#16 7#8).toOption.map (fun t => t.byteAt 0x0013#16)) = some (some 7#8) := by
  decide

/-- Two devices at `$0010` and `$0011`; X is `$0010`, SP `$0013`, and the stack reaches down to `$000A`. -/
def deviceState (code : List Byte) : State :=
  { launch code [(0xFFF6#16, [0x50#8, 0x00#8])] with
    a := 0x12#8, b := 0x34#8, x := 0x0010#16, sp := 0x0013#16
    platform := { Platform.default with
      memMap := [⟨⟨0x0010#16, 0x0011#16⟩, .device, false⟩], codeRegion := [⟨0x4000#16, 0x40FF#16⟩] } }

/-- What the devices have seen after one step, PC, and the byte of memory at `$0010`. -/
def afterDevice (s : State) : Option (List DeviceEvent × Word × Option Byte) :=
  (nextOf (step s)).map (fun t => (t.io, t.pc, t.byteAt 0x0010#16))

/-- R42, R47, R102 by hand: `STAA $10` writes `$12` to the device, once, and no byte of memory. -/
theorem test_device_store :
    afterDevice (deviceState [0x5A#8, 0x10#8]) = some ([.write 0x0010#16 0x12#8], 0x4002#16, none) := by decide

/-- R42, R47, R101 by hand: `LDAA $10` reads the device, once, and A is what it answers. -/
theorem test_device_load :
    afterDevice (deviceState [0x96#8, 0x10#8]) = some ([.read 0x0010#16], 0x4002#16, none) ∧
    (nextOf (step (deviceState [0x96#8, 0x10#8]))).map (fun t => t.a) = some (Config.deviceValue [] 0x0010#16) :=
  ⟨rfl, rfl⟩

/-- R47, R82 by hand: the pointer of `[0,X]` is read from the devices, the lower address first. -/
theorem test_device_pointer :
    effectiveAddress (deviceState []) (.idx (.ind16 .x 0#16)) =
      .ok (wordOf (Config.deviceValue [] 0x0010#16) (Config.deviceValue [.read 0x0010#16] 0x0011#16),
        { deviceState [] with io := [.read 0x0011#16, .read 0x0010#16] }) := rfl

/-- R47, R151 by hand: of SWI's frame from `$000A` to `$0012` the devices see two writes, RTN_H (`$40`) at `$0011` and after it Y_L at
`$0010`. -/
theorem test_device_stack :
    afterDevice { deviceState [0x3F#8] with y := 0x9ABC#16 } =
      some ([.write 0x0010#16 0xBC#8, .write 0x0011#16 0x40#8], 0x5000#16, none) := by decide

/-! ## Timing (R201) and assembler text (R92, R93) -/

/-- R201: the cycle counts that the rule lists. -/
theorem test_cycle_counts :
    [Instr.ldaaImm 0#8, .ldaaDir 0#8, .ldaaExt 0#16, .ldaaOff5 .x 0#5, .ldaaOff9 .x 0#9, .ldaaOff16 .x 0#16, .ldaaIndD .x,
      .ldaaInd16 .x 0#16, .swi, .inca].map (cycleCount .hcs12) = [1, 3, 3, 3, 3, 4, 6, 6, 9, 1] ∧
    [Instr.staaDir 0#8, .staaExt 0#16, .staaOff5 .x 0#5, .staaOff9 .x 0#9, .staaOff16 .x 0#16, .staaIndD .x,
      .staaInd16 .x 0#16].map (cycleCount .m68hc12) = [2, 3, 2, 3, 3, 5, 5] := by
  decide

/-- R201: the two strings of STAB EXT. -/
theorem test_access_detail :
    accessDetail .hcs12 (.stabExt 0#16) = "PwO" ∧ accessDetail .m68hc12 (.stabExt 0#16) = "wOP" := by decide

/-- R92, R76 to R82: source lines of the rules' examples. -/
theorem test_source_lines :
    sourceLine (.ldaaOff5 .y (BitVec.ofInt 5 (-1))) = "LDAA -1,Y" ∧ sourceLine (.ldaaAutoXY .x .post (BitVec.ofInt 4 (-8))) = "LDAA 8,X-" ∧
    sourceLine (.staaAutoSp .pre (BitVec.ofInt 4 (-1))) = "STAA 1,-SP" ∧ sourceLine (.ldaaInd16 .x 10#16) = "LDAA [10,X]" ∧
    sourceLine (.ldaaAccD .sp) = "LDAA D,SP" ∧ sourceLine (.addaImm 1#8) = "ADDA #1" := by
  decide

/-- R90 to R93: lines of the vectors and of R91, read back. -/
theorem test_read_lines :
    readLine "LDAA -16,Y".toList = some (.ldaaOff5 .y (BitVec.ofInt 5 (-16))) ∧
    readLine "lda a #$80".toList = some (.ldaaImm 0x80#8) ∧ readLine "LDA A,X".toList = some (.ldaaAcc .x .a) ∧
    readLine "STAA 1,-SP".toList = some (.staaAutoSp .pre (BitVec.ofInt 4 (-1))) ∧
    readLine "STAB $FF".toList = some (.stabDir 0xFF#8) ∧ readLine "LDAA $1234".toList = some (.ldaaExt 0x1234#16) ∧
    readLine "LDAA ,X".toList = some (.ldaaOff5 .x 0#5) ∧ readLine "SWI".toList = some .swi := by
  decide

/-- R90 to R93: the indirect and automatic lines, and lines that are none. -/
theorem test_read_more_lines :
    readLine "LDAA [10,X]".toList = some (.ldaaInd16 .x 10#16) ∧ readLine "STAB [D,PC]".toList = some (.stabIndD .pc) ∧
    readLine "LDAA 8,X-".toList = some (.ldaaAutoXY .x .post (BitVec.ofInt 4 (-8))) ∧
    readLine "LDAA -100,SP".toList = some (.ldaaOff9 .sp (BitVec.ofInt 9 (-100))) ∧
    readLine "LDAA 9,X+".toList = none ∧ readLine "STAA #1".toList = none ∧ readLine "RTI".toList = none := by
  decide

/-- R93: the ends of the ranges. -/
theorem test_encoding_choice :
    [-257, -256, -17, -16, 15, 16, 255, 256].map chooseOffset =
      [.sixteenBit, .nineBit, .nineBit, .fiveBit, .fiveBit, .nineBit, .nineBit, .sixteenBit] ∧
    chosenAddress 0x00FF#16 = .dir 0xFF#8 ∧ chosenAddress 0x0100#16 = .ext 0x0100#16 := by
  decide

/-! ## Witnesses: for every obligation with hypotheses, a state and operands that meet all of them -/

theorem exists_next {o : Host.Outcome State Fault Refusal} (h : (nextOf o).isSome = true) : ∃ t, o = .next t := by
  cases o with
  | next t => exact ⟨t, rfl⟩
  | fault f => cases h
  | refused r => cases h

theorem test_witness_decodeOfEncode : (Instr.stabAutoXY .y .post 15#4).wellFormed = true := by decide

theorem test_witness_decodedBytesAreTheEncoding :
    decode [0x6B#8, 0xF9#8, 0x80#8, 0x42#8] = .ok (.stabOff9 .pc (BitVec.ofInt 9 (-128))) := by decide

theorem test_witness_everyPostbyteDecodes : 0xA6#8 ∈ indexedOpcodes ∧ 0x6B#8 ∈ indexedOpcodes := by decide

theorem test_witness_onlyShownOpcodesDecode : 0x0B#8 ∉ shownOpcodes ∧ 0xFF#8 ∉ shownOpcodes ∧ 0xC7#8 ∈ shownOpcodes := by decide

theorem test_witness_stepRefusesOpcodeNotShown :
    running (launch [0x0B#8] []) ∧ executesNext (launch [0x0B#8] []) ∧
    executesNext { launch [0x0B#8] [] with agenda := [.execute, .reset] } ∧
    fetch (launch [0x0B#8] []) (launch [0x0B#8] []).pc = .ok 0x0B#8 ∧ 0x0B#8 ∉ shownOpcodes := by
  refine ⟨?_, .inl rfl, .inr ⟨_, rfl⟩, by decide, by decide⟩
  unfold running; decide

/-- Code from `$FFFF` on, which wraps to `$0000`. -/
def wrapState (agenda : List Boundary) : State :=
  { launch [] [(0xFFFF#16, [0x86#8, 0x80#8])] with
    pc := 0xFFFF#16
    platform := { Platform.default with codeRegion := [⟨0xFFFF#16, 0xFFFF#16⟩, ⟨0x0000#16, 0x0000#16⟩] }
    agenda := agenda }

theorem test_witness_stepRunsDecodedInstruction :
    running (wrapState [.execute]) ∧ executesNext (wrapState [.execute]) ∧ executesNext (wrapState []) ∧
    (∀ (k : Nat) (b : Byte), [0x86#8, 0x80#8][k]? = some b →
      fetch (wrapState [.execute]) ((wrapState [.execute]).pc + BitVec.ofNat 16 k) = .ok b) ∧
    decode [0x86#8, 0x80#8] = .ok (.ldaaImm 0x80#8) := by
  refine ⟨?_, .inr ⟨_, rfl⟩, .inl rfl, ?_, by decide⟩
  · unfold running; decide
  · intro k b h
    match k with
    | 0 => cases h; decide
    | 1 => cases h; decide
    | _ + 2 => cases h

/-- Bytes at `$40FF`, the last address of the code, and a byte without a value at `$4000`. -/
def edgeState (bs : List Byte) : State := { launch [] [(0x40FF#16, bs)] with pc := 0x40FF#16 }

/-- The opcode byte (`bs` empty), outside the code, and where it is code without a value. -/
theorem test_witness_stepRefusesFetchOutsideCode_opcode :
    running State.reset ∧ executesNext State.reset ∧ decode [] = .error .truncated ∧
    inCode State.reset.platform (State.reset.pc + BitVec.ofNat 16 0) = false ∧
    fetch (launch [] []) ((launch [] []).pc + BitVec.ofNat 16 0) = .error (.unwrittenMemory 0x4000#16) := by
  refine ⟨?_, .inl rfl, by decide, by decide, by decide⟩
  unfold running; decide

/-- A byte after the opcode byte: of LDAA immediate, of an address, a postbyte. -/
theorem test_witness_stepRefusesFetchOutsideCode_operand :
    running (edgeState [0x86#8]) ∧ executesNext (edgeState [0x86#8]) ∧
    (∀ (k : Nat) (b : Byte), [0x86#8][k]? = some b →
      fetch (edgeState [0x86#8]) ((edgeState [0x86#8]).pc + BitVec.ofNat 16 k) = .ok b) ∧
    [[0x86#8], [0xB6#8], [0x6A#8], [0xB6#8, 0x12#8], [0xA6#8, 0xE0#8], [0xA6#8, 0xE2#8, 0x01#8]].all
      (fun bs => decode bs = .error .truncated) = true ∧
    inCode (edgeState [0x86#8]).platform ((edgeState [0x86#8]).pc + BitVec.ofNat 16 1) = false := by
  refine ⟨?_, .inl rfl, ?_, by decide, by decide⟩
  · unfold running; decide
  · intro k b h
    match k with
    | 0 => cases h; decide
    | _ + 1 => cases h

/-- R31, log 40: after a reset event the code outside the kept region has no value. -/
theorem test_reset_drops_code :
    (nextOf (step resetDueState)).map (fun t => fetch { t with
      platform := { t.platform with codeRegion := [⟨0x4000#16, 0x40FF#16⟩] } } 0x4000#16) =
      some (.error (.unwrittenMemory 0x4000#16)) := by decide

/-- R71, R55 by hand: the immediate byte at `$4100` lies outside the code. -/
theorem test_refused_code_operand :
    refusalOf (step (edgeState [0x86#8, 0x80#8])) = some (.fetchOutsideCode 0x4100#16) := by decide

/-- The vector readable and kept; and, with the default map, not kept, so that it has no value when it is read. -/
theorem test_witness_resetEventLoadsVector :
    running resetDueState ∧ resetDueState.agenda = .reset :: [] ∧
    readWord resetDueState resetDueState.platform.resetVector = .ok (0xC000#16, resetDueState) ∧
    keptOverReset resetDueState.platform resetDueState.platform.resetVector = true ∧
    keptOverReset resetDueState.platform (resetDueState.platform.resetVector + 1#16) = true ∧
    refusalOf (step { resetDueState with platform := Platform.default }) = some (.unwrittenMemory 0xFFFE#16) := by
  refine ⟨?_, rfl, by decide, by decide, by decide, by decide⟩
  unfold running; decide

theorem test_witness_byteWriteChangesOneByte :
    storable mappedState 0x0013#16 = true ∧ storable mappedState 0xFFFF#16 = true ∧
    isDevice mappedState.platform 0x0010#16 = true ∧ storable mappedState 0x0010#16 = true := by decide

theorem test_witness_byteAccessRefusals :
    kindAt mappedState.platform 0x000F#16 = .absent ∧ kindAt mappedState.platform 0x0012#16 = .readOnly ∧
    kindAt mappedState.platform 0x0013#16 = .plain ∧
    mappedState.byteAt 0x0013#16 = none ∧ mappedState.byteAt 0x0011#16 = some 0x99#8 ∧
    kindAt mappedState.platform 0x40FF#16 = .plain ∧ inCode mappedState.platform 0x40FF#16 = true := by
  decide

/-- At `$FFFF`, where the second byte is at `$0000`. -/
theorem test_witness_wordAccessIsBigEndian :
    storable (launch [] []) 0xFFFF#16 = true ∧ storable (launch [] []) (0xFFFF#16 + 1#16) = true ∧
    isDevice (launch [] []).platform 0xFFFF#16 = false ∧ isDevice (launch [] []).platform (0xFFFF#16 + 1#16) = false := by
  decide

theorem test_witness_deviceAccessIsNoted :
    kindAt (deviceState []).platform 0x0010#16 = .device ∧ inCode (deviceState []).platform 0x0010#16 = false := by decide

/-- Two bytes, two devices, and a write whose first or second byte is code. -/
theorem test_witness_wordAccessIsTwoByteAccesses :
    readWord (launch [] [(0xFFFF#16, [0x12#8, 0x34#8])]) 0xFFFF#16 =
      .ok (0x1234#16, launch [] [(0xFFFF#16, [0x12#8, 0x34#8])]) ∧
    kindAt (deviceState []).platform 0x0010#16 = .device ∧ kindAt (deviceState []).platform (0x0010#16 + 1#16) = .device ∧
    inCode (deviceState []).platform 0x0010#16 = false ∧ inCode (deviceState []).platform (0x0010#16 + 1#16) = false ∧
    refusalOf (toOutcome (writeByte (launch [] []) 0x40FF#16 0x12#8)) = some (.storeToCode 0x40FF#16) ∧
    refusalOf (toOutcome (writeWord (launch [] []) 0x3FFF#16 0x1234#16)) = some (.storeToCode 0x4000#16) := by
  decide

theorem test_witness_stepExtendsDeviceHistory : ∃ t, step (deviceState [0x96#8, 0x10#8]) = .next t := ⟨_, rfl⟩

theorem test_witness_plainMapHasNoSideEffects :
    (∀ a : Word, isDevice swiState.platform a = false) ∧ noResetDue swiState ∧ ∃ t, step swiState = .next t := by
  refine ⟨fun a => rfl, ?_, exists_next (by decide)⟩
  intro rest h
  cases h

/-- A step that stores, for the invariants of every step. -/
theorem test_witness_steps_from_launch :
    Memory.wf swiState.mem = true ∧ (∃ t, step swiState = .next t) ∧ noResetDue swiState ∧
    inCode swiState.platform 0x4000#16 = true := by
  refine ⟨by decide, exists_next (by decide), ?_, by decide⟩
  intro rest h
  cases h

/-- Both masks set, and a step by a platform that offers a request. -/
theorem test_witness_stepKeepsMasksShut :
    masksShut (irqState 1 0x50#8) ∧ ∃ t, step (irqState 1 0x50#8) = .next t := by
  refine ⟨?_, exists_next (by decide)⟩
  unfold masksShut; decide

theorem test_witness_maskedRequestIsNotTaken_byI :
    (irqState 1 0x10#8).agenda = .request 1 :: [] ∧
    ∀ v, (irqState 1 0x10#8).platform.irqVectors[1]? = some v →
      (v.maskedBy = .maskI ∧ (irqState 1 0x10#8).flag .i = true) ∨ (v.maskedBy = .maskX ∧ (irqState 1 0x10#8).flag .x = true) := by
  refine ⟨rfl, fun v h => ?_⟩
  cases h
  decide

theorem test_witness_maskedRequestIsNotTaken_byX :
    (irqState 0 0x40#8).agenda = .request 0 :: [] ∧
    ∀ v, (irqState 0 0x40#8).platform.irqVectors[0]? = some v →
      (v.maskedBy = .maskI ∧ (irqState 0 0x40#8).flag .i = true) ∨ (v.maskedBy = .maskX ∧ (irqState 0 0x40#8).flag .x = true) := by
  refine ⟨rfl, fun v h => ?_⟩
  cases h
  decide

/-- A request of no member. -/
theorem test_witness_maskedRequestIsNotTaken_noMember :
    (irqState 2 0x00#8).agenda = .request 2 :: [] ∧
    ∀ v, (irqState 2 0x00#8).platform.irqVectors[2]? = some v →
      (v.maskedBy = .maskI ∧ (irqState 2 0x00#8).flag .i = true) ∨ (v.maskedBy = .maskX ∧ (irqState 2 0x00#8).flag .x = true) := by
  refine ⟨rfl, fun v h => ?_⟩
  cases h

theorem test_witness_unmaskedRequestEntersHandler_byI :
    running (irqState 1 0x40#8) ∧ (irqState 1 0x40#8).agenda = .request 1 :: [] ∧
    (irqState 1 0x40#8).platform.irqVectors[1]? = some ⟨0xFFF2#16, .maskI⟩ ∧ (irqState 1 0x40#8).flag .i = false ∧
    stackRoom (irqState 1 0x40#8) = true ∧ vectorReady (irqState 1 0x40#8) 0xFFF2#16 0x6000#16 := by
  refine ⟨?_, rfl, rfl, by decide, by decide, by decide, by decide, by decide⟩
  unfold running; decide

theorem test_witness_unmaskedRequestEntersHandler_byX :
    running (irqState 0 0x10#8) ∧ (irqState 0 0x10#8).agenda = .request 0 :: [] ∧
    (irqState 0 0x10#8).platform.irqVectors[0]? = some ⟨0xFFF4#16, .maskX⟩ ∧ (irqState 0 0x10#8).flag .x = false ∧
    stackRoom (irqState 0 0x10#8) = true ∧ vectorReady (irqState 0 0x10#8) 0xFFF4#16 0x7000#16 := by
  refine ⟨?_, rfl, rfl, by decide, by decide, by decide, by decide, by decide⟩
  unfold running; decide

/-- No room (a byte of the stack is code); no value at the vector; the frame over the vector (SP `$FFFB`: `$FFF2` is CCR, `$FFF3`
is B, so PC is `$4000`, by hand from R48, R152 and R166); a vector with side effects. -/
theorem test_witness_unmaskedRequestStacksAndTakesVector :
    running (irqState 1 0x40#8) ∧ (irqState 1 0x40#8).agenda = .request 1 :: [] ∧
    (irqState 1 0x40#8).platform.irqVectors[1]? = some ⟨0xFFF2#16, .maskI⟩ ∧ (irqState 1 0x40#8).flag .i = false ∧
    stackRoom (irqState 1 0x40#8) = true ∧ stackRoom { irqState 1 0x40#8 with sp := 0x4108#16 } = false ∧
    refusalOf (step { irqState 1 0x40#8 with mem := [] }) = some (.unwrittenMemory 0xFFF2#16) ∧
    (nextOf (step { irqState 1 0x40#8 with sp := 0xFFFB#16 })).map (fun t => t.pc) = some 0x4000#16 ∧
    (nextOf (step { deviceState [0x42#8] with
      agenda := [.request 0]
      platform := { (deviceState []).platform with irqVectors := [⟨0x0010#16, .maskX⟩] }
      sp := 0x2000#16 })).map (fun t => (t.io, t.ccr)) = some ([.read 0x0011#16, .read 0x0010#16], 0x50#8) := by
  refine ⟨?_, rfl, rfl, by decide, by decide, by decide, by decide, by decide, rfl⟩
  unfold running; decide

theorem test_witness_returnUndoesExceptionEntry :
    stackIsPlain swiState = true ∧ ∃ t, takeException swiState 0x4001#16 0xFFF6#16 = .ok t := by
  have h : (takeException swiState 0x4001#16 0xFFF6#16).toOption.isSome = true := by decide
  generalize takeException swiState 0x4001#16 0xFFF6#16 = r at h
  cases r with
  | ok t => exact ⟨by decide, t, rfl⟩
  | error e => cases h

/-- Room on the stack, once with the vector ready and once with nothing at the vector, so that the step is refused for it; and no
room, the lowest of the nine bytes being code. -/
theorem test_witness_swiStacksFrameAndTakesVector :
    stackRoom { swiState with sp := 0x4108#16 } = false ∧
    stackRoom swiState = true ∧ stackIsPlain swiState = true ∧ (nextOf (exec .swi swiState)).isSome = true ∧
    stackRoom { launch [0x3F#8] [] with sp := 0x2000#16 } = true ∧
    refusalOf (exec .swi { launch [0x3F#8] [] with sp := 0x2000#16 }) = some (.unwrittenMemory 0xFFF6#16) := by
  decide

theorem test_witness_swiCompletesThroughReadyVector :
    stackRoom swiState = true ∧ vectorReady swiState swiState.platform.swiVector 0x5000#16 :=
  ⟨by decide, by decide, by decide, by decide⟩

theorem test_witness_swiIsNotMasked :
    (∃ t, exec .swi { swiState with ccr := 0x10#8 } = .next t) ∧
    belowStackFree swiState swiState.platform.swiVector = true ∧
    belowStackFree swiState (swiState.platform.swiVector + 1#16) = true ∧
    isDevice swiState.platform swiState.platform.swiVector = false ∧
    isDevice swiState.platform (swiState.platform.swiVector + 1#16) = false :=
  ⟨exists_next (by decide), by decide, by decide, by decide, by decide⟩

/-- The frame overlaps the vector: with SP `$FFFF` the nine bytes are `$FFF6` to `$FFFE`, so PC is `CCR : B` (R48, R152, by
hand). -/
theorem test_witness_swiVectorSeesStackedBytes :
    isDevice swiState.platform swiState.platform.swiVector = false ∧
    isDevice swiState.platform (swiState.platform.swiVector + 1#16) = false ∧
    (nextOf (exec .swi { swiState with sp := 0xFFFF#16 })).map (fun t => t.pc) = some 0xC134#16 := by decide

theorem test_witness_swiFrame :
    (∃ t, exec .swi swiState = .next t) ∧ (∃ t, exec .swi (deviceState [0x3F#8]) = .next t) ∧
    belowStackFree swiState 0x2000#16 = true ∧ belowStackFree swiState 0x1FF6#16 = true :=
  ⟨exists_next (by decide), exists_next (by decide), by decide, by decide⟩

theorem test_witness_statements_over_all_instructions :
    (∃ t, exec (.addaImm 1#8) swiState = .next t) ∧ Instr.addaImm 1#8 ≠ .swi ∧
    (∃ t, exec .clrb { swiState with pc := 0xFFFF#16 } = .next t) ∧ Instr.clrb ≠ .swi :=
  ⟨exists_next (by decide), by decide, exists_next (by decide), by decide⟩

/-- X is `$2000`, which holds `$42`. -/
def dataState : State :=
  { launch [] [(0x2000#16, [0x42#8]), (0x3000#16, [0x20#8, 0x00#8])] with x := 0x2000#16, y := 0x3000#16 }

/-- A plain, an automatic and an indirect form. -/
theorem test_witness_ldaaLoadsOperandByte :
    effectiveAddress dataState (.ext 0x2000#16) = .ok (0x2000#16, dataState) ∧
    effectiveAddress dataState (.idx (.auto .x .post 0#4)) = .ok (0x2000#16, { dataState with x := 0x2001#16 }) ∧
    effectiveAddress dataState (.idx (.indD .y)) = .ok (0x2000#16, dataState) ∧
    readByte dataState 0x2000#16 = .ok (0x42#8, dataState) ∧
    readByte { dataState with x := 0x2001#16 } 0x2000#16 = .ok (0x42#8, { dataState with x := 0x2001#16 }) := by
  decide

/-- A location with side effects. -/
theorem test_witness_ldaaLoadsOperandByte_device :
    effectiveAddress (deviceState []) (.dir 0x10#8) = .ok (0x0010#16, deviceState []) ∧
    readByte (deviceState []) 0x0010#16 =
      .ok (Config.deviceValue [] 0x0010#16, { deviceState [] with io := [.read 0x0010#16] }) :=
  ⟨rfl, rfl⟩

theorem test_witness_staaStoresAccumulatorA :
    effectiveAddress dataState (.idx (.auto .x .pre 15#4)) = .ok (0x1FFF#16, { dataState with x := 0x1FFF#16 }) ∧
    storable dataState 0x1FFF#16 = true ∧ isDevice dataState.platform 0x1FFF#16 = false ∧
    effectiveAddress dataState (.ext 0x4000#16) = .ok (0x4000#16, dataState) ∧
    kindAt dataState.platform 0x4000#16 = .plain ∧ inCode dataState.platform 0x4000#16 = true ∧
    effectiveAddress (deviceState []) (.dir 0x10#8) = .ok (0x0010#16, deviceState []) ∧
    storable (deviceState []) 0x0010#16 = true ∧ isDevice (deviceState []).platform 0x0010#16 = true := by
  decide

theorem test_witness_stabStoresAccumulatorB :
    effectiveAddress dataState (.idx (.ind16 .y 0#16)) = .ok (0x2000#16, dataState) ∧ storable dataState 0x2000#16 = true ∧
    isDevice dataState.platform 0x2000#16 = false ∧
    effectiveAddress dataState (.ext 0x40FF#16) = .ok (0x40FF#16, dataState) ∧
    kindAt dataState.platform 0x40FF#16 = .plain ∧ inCode dataState.platform 0x40FF#16 = true := by
  decide

theorem test_witness_ldaaFrame :
    (∃ t, exec (.ldaaImm 1#8) dataState = .next t) ∧
    (∃ t, exec (.ldaaMem (.idx (.auto .x .post 0#4))) dataState = .next t) ∧
    effectiveAddress dataState (.idx (.auto .x .post 0#4)) = .ok (0x2000#16, { dataState with x := 0x2001#16 }) :=
  ⟨exists_next (by decide), exists_next (by decide), by decide⟩

theorem test_witness_storeFrame :
    (∃ t, exec (.staaMem (.idx (.auto .x .pre 15#4))) dataState = .next t) ∧
    (∃ t, exec (.stabMem (.ext 0x2000#16)) dataState = .next t) ∧
    effectiveAddress dataState (.ext 0x2000#16) = .ok (0x2000#16, dataState) :=
  ⟨exists_next (by decide), exists_next (by decide), by decide⟩

/-- A byte without a value, a byte of the code, and a pointer that cannot be read. -/
theorem test_witness_refusedAccessStopsInstruction :
    effectiveAddress dataState (.dir 0x00#8) = .ok (0x0000#16, dataState) ∧
    readByte dataState 0x0000#16 = .error (.unwrittenMemory 0x0000#16) ∧
    effectiveAddress dataState (.ext 0x40FF#16) = .ok (0x40FF#16, dataState) ∧
    refusalOf (toOutcome (writeByte dataState 0x40FF#16 dataState.a)) = some (.storeToCode 0x40FF#16) ∧
    refusalOf (toOutcome (writeByte dataState 0x40FF#16 dataState.b)) = some (.storeToCode 0x40FF#16) ∧
    storable dataState 0x40FF#16 = false ∧
    effectiveAddress dataState (.idx (.ind16 .y 0x2000#16)) = .error (.unwrittenMemory 0x5000#16) := by
  decide

theorem test_witness_addaAddsOperandByte :
    effectiveAddress dataState (.idx (.acc .x .a)) = .ok (0x2000#16, dataState) ∧
    readByte dataState 0x2000#16 = .ok (0x42#8, dataState) := by
  decide

theorem test_witness_addaFrame :
    (∃ t, exec (.addaImm 1#8) dataState = .next t) ∧
    (∃ t, exec (.addaMem (.idx (.auto .x .post 0#4))) dataState = .next t) ∧
    effectiveAddress dataState (.idx (.auto .x .post 0#4)) = .ok (0x2000#16, { dataState with x := 0x2001#16 }) :=
  ⟨exists_next (by decide), exists_next (by decide), by decide⟩

theorem test_witness_inherentFrame :
    (∃ t, exec .inca dataState = .next t) ∧ (∃ t, exec .decb dataState = .next t) ∧ (∃ t, exec .clrb dataState = .next t) ∧
    (∃ t, exec .lsra dataState = .next t) ∧ ∃ t, exec .asra dataState = .next t :=
  ⟨⟨_, rfl⟩, ⟨_, rfl⟩, ⟨_, rfl⟩, ⟨_, rfl⟩, ⟨_, rfl⟩⟩

/-- The pointer at `$3000` for both forms (D is `$0000`), and one that cannot be read. -/
theorem test_witness_indirectAddressIsPointer :
    (0x3000#16).toNat = (dataState.y.toNat + 256 * dataState.a.toNat + dataState.b.toNat) % 65536 ∧
    (0x3000#16).toNat = (dataState.y.toNat + (0x0000#16).toNat) % 65536 ∧ 
    readWord dataState 0x3000#16 = .ok (0x2000#16, dataState) ∧
    (0x5000#16).toNat = (dataState.y.toNat + (0x2000#16).toNat) % 65536 ∧
    readWord dataState 0x5000#16 = .error (.unwrittenMemory 0x5000#16) ∧
    (0x2000#16).toNat = (dataState.x.toNat + 256 * dataState.a.toNat + dataState.b.toNat) % 65536 ∧
    readWord dataState 0x2000#16 = .error (.unwrittenMemory 0x2001#16) := by
  decide

theorem test_witness_offsetEncodingsAgree : BaseReg.sp ≠ .pc := by decide

/-- The ends of each range, with PC as the base (R79, R80, by hand: PC `$4000`, the instruction 2, 3 or 4 bytes long). -/
theorem test_witness_assemblerChoiceReachesOperand :
    (-32768 : Int) ≤ -32768 ∧ (65535 : Int) ≤ 65535 ∧
    [-16, 15, -17, 16, -256, 255, -257, 256].map (fun n =>
        match effectiveAddress (launch [] []) (.idx (chosenForm .pc n)) with
        | .ok (ea, _) => ea
        | .error _ => 0#16) =
      [0x3FF2#16, 0x4011#16, 0x3FF2#16, 0x4013#16, 0x3F03#16, 0x4102#16, 0x3F03#16, 0x4104#16] := by
  decide

end Sys2Proof.Tests
end

/-! # LDAA, STAA, STAB (`40_load_store.md`) -/

namespace Sys2Proof.Machine

/-! ## The encoder agrees with the opcode map -/

/-- The rows that a postbyte follows (R62, R64). -/
theorem opcodeMap_eq_indexed {op : Byte} {row : Operand → Instr} (h : opcodeMap op = some (.indexed row)) :
    (op = 0x6A#8 ∧ row = .staaMem) ∨ (op = 0x6B#8 ∧ row = .stabMem) ∨
      (op = 0xA6#8 ∧ row = .ldaaMem) ∨ (op = 0xAB#8 ∧ row = .addaMem) := by
  unfold opcodeMap at h
  split at h <;> cases h
  · next hop => exact .inl ⟨BitVec.eq_of_toNat_eq hop, rfl⟩
  · next hop => exact .inr (.inl ⟨BitVec.eq_of_toNat_eq hop, rfl⟩)
  · next hop => exact .inr (.inr (.inl ⟨BitVec.eq_of_toNat_eq hop, rfl⟩))
  · next hop => exact .inr (.inr (.inr ⟨BitVec.eq_of_toNat_eq hop, rfl⟩))

/-- An indexed instruction of any row is encoded as that row's opcode byte, the postbyte and its extension (R61). -/
theorem encode_indexed {op : Byte} {row : Operand → Instr} (h : opcodeMap op = some (.indexed row))
    (f : IndexedForm) : encode (row (.idx f)) = op :: f.postbyte :: f.extension := by
  obtain ⟨rfl, rfl⟩ | ⟨rfl, rfl⟩ | ⟨rfl, rfl⟩ | ⟨rfl, rfl⟩ := opcodeMap_eq_indexed h
  all_goals
    cases f with
    | auto r w n => cases r <;> rfl
    | _ => rfl

/-! ## The flags of a move, and what a byte access keeps -/

/-- What R100 says of the CCR, for any state whose CCR is the old one after a move of `m`. -/
theorem flags_after_move {s t : State} {m : Byte} (h : t.ccr = moveFlags s.ccr m) :
    t.flag .n = m.getLsbD 7 ∧ (t.flag .z = true ↔ m = 0x00#8) ∧ t.flag .v = false ∧
      keeps s t [.s, .x, .h, .i, .c] := by
  have bit (k : CcrBit) : t.flag k = ccrBit (moveFlags s.ccr m) k := by rw [flag_eq, h]
  simp [bit, keeps, ccrBit_moveFlags, flag_eq]

theorem readByte_fields {s t : State} {a : Word} {m : Byte} (h : readByte s a = .ok (m, t)) :
    t.pc = s.pc ∧ t.ccr = s.ccr := by
  obtain ⟨-, rfl⟩ := (readByte_eq_ok ..).mp h
  exact ⟨rfl, rfl⟩

/-- A write into the code that the map admits is refused as that (R55, log 26). -/
theorem writeByte_storeToCode {s : State} {a : Word} (v : Byte) (habs : kindAt s.platform a ≠ .absent)
    (hro : kindAt s.platform a ≠ .readOnly) (hcode : inCode s.platform a = true) :
    writeByte s a v = .error (.storeToCode a) := by
  unfold writeByte
  split <;> simp_all

/-! ## Storing an accumulator -/

section
variable {s s1 : State} {o : Operand} {ea : Word} (hea : effectiveAddress s o = .ok (ea, s1))
include hea

theorem storeAcc_storeToCode (v : Byte) (habs : kindAt s.platform ea ≠ .absent)
    (hro : kindAt s.platform ea ≠ .readOnly) (hcode : inCode s.platform ea = true) :
    storeAcc v o s = .refused (.storeToCode ea) := by
  obtain ⟨-, -, -, -, -, hp, -, -⟩ := effectiveAddress_fields _ _ _ _ hea
  rw [← hp] at habs hro hcode
  simp [storeAcc, hea, writeByte_storeToCode v habs hro hcode]

/-- A store of either accumulator where the byte admits it: what R102 and R103 say in common. -/
theorem storeAcc_of_storable (v : Byte) (hst : storable s ea = true) :
    ∃ u t : State, writeByte s1 ea v = .ok u ∧ storeAcc v o s = .next t ∧
      (isDevice s.platform ea = false → t.byteAt ea = some v) ∧ (∀ a : Word, a ≠ ea → t.byteAt a = s.byteAt a) ∧
      t.a = s.a ∧ t.b = s.b ∧ t.flag .n = v.getLsbD 7 ∧ (t.flag .z = true ↔ v = 0x00#8) ∧ t.flag .v = false ∧
      keeps s t [.s, .x, .h, .i, .c] ∧ t.pc = s.pc + BitVec.ofNat 16 o.length ∧
      t = { u with ccr := t.ccr, pc := t.pc } := by
  obtain ⟨ha, hb, hpc, hccr, hmem, hp, -, -⟩ := effectiveAddress_fields _ _ _ _ hea
  have hst1 : storable s1 ea = true := (storable_congr s s1 ea hp).trans hst
  have hrun : storeAcc v o s = .next (stored v ea o.length s1) :=
    (storeAcc_eq_next ..).mpr ⟨ea, s1, hea, hst1, rfl⟩
  have hread (b : Word) := read_memAfter s.platform s.mem ea b v
  have hbyte (b : Word) : (stored v ea o.length s1).byteAt b = Memory.read (memAfter s.platform s.mem ea v) b.toNat := by
    rw [State.byteAt, stored_mem, hp, hmem]
  obtain ⟨hn, hz, hv, hk⟩ := flags_after_move (s := s) (t := stored v ea o.length s1) (m := v) (by rw [stored_ccr, hccr])
  refine ⟨_, _, (writeByte_eq_ok ..).mpr ⟨hst1, rfl⟩, hrun, fun hd => ?_, fun a hne => ?_, ha, hb, hn, hz, hv, hk, ?_, rfl⟩
  · rw [hbyte, hread, if_pos rfl, hd]; rfl
  · rw [hbyte, hread, if_neg hne]; rfl
  · rw [stored_pc, nextPc, hpc]

end

/-! ## The statements -/

/-- Settles O37: the immediate form and the memory forms end in the same `finishLoadA`, whose flags are those of a move. -/
theorem ldaaLoadsOperandByte : Obligations.LdaaLoadsOperandByte := by
  refine ⟨fun _ => rfl, fun o => ?_, fun s m => ?_, fun s s1 s2 o ea m hea hrd => ?_⟩
  · match o with
    | .dir _ | .ext _ => rfl
    | .idx f => exact encode_indexed (op := 0xA6#8) rfl f
  · obtain ⟨hn, hz, hv, hk⟩ := flags_after_move (s := s) (finishLoadA_ccr m s 2)
    exact ⟨finishLoadA m s 2, rfl, rfl, hn, hz, hv, hk, rfl, rfl⟩
  · obtain ⟨-, -, hpc1, hccr1, -⟩ := effectiveAddress_fields _ _ _ _ hea
    obtain ⟨hpc2, hccr2⟩ := readByte_fields hrd
    have hrun : exec (.ldaaMem o) s = .next (finishLoadA m s2 o.length) := by
      rw [exec_ldaaMem]; exact (loadA_eq_next ..).mpr ⟨ea, s1, m, s2, hea, hrd, rfl⟩
    obtain ⟨hn, hz, hv, hk⟩ := flags_after_move (s := s) (t := finishLoadA m s2 o.length) (m := m)
      (by rw [finishLoadA_ccr, hccr2, hccr1])
    refine ⟨_, hrun, rfl, hn, hz, hv, hk, ?_, rfl⟩
    rw [finishLoadA_pc, nextPc, hpc2, hpc1]

/-- Settles O38: STAA is the common store of an accumulator, with A. -/
theorem staaStoresAccumulatorA : Obligations.StaaStoresAccumulatorA := by
  refine ⟨fun o => ?_, fun s s1 o ea hea habs hro hcode => ?_, fun s s1 o ea hea hst => ?_⟩
  · match o with
    | .dir _ | .ext _ => rfl
    | .idx f => exact encode_indexed (op := 0x6A#8) rfl f
  · rw [exec_staaMem]; exact storeAcc_storeToCode hea s.a habs hro hcode
  · obtain ⟨u, t, hw, hrun, hea', hother, ha, -, hflags⟩ := storeAcc_of_storable hea s.a hst
    exact ⟨u, t, hw, (exec_staaMem o s).trans hrun, hea', hother, ha, hflags⟩

/-- Settles O39: STAB is the common store of an accumulator, with B. -/
theorem stabStoresAccumulatorB : Obligations.StabStoresAccumulatorB := by
  refine ⟨fun o => ?_, fun s s1 o ea hea habs hro hcode => ?_, fun s s1 o ea hea hst => ?_⟩
  · match o with
    | .dir _ | .ext _ => rfl
    | .idx f => exact encode_indexed (op := 0x6B#8) rfl f
  · rw [exec_stabMem]; exact storeAcc_storeToCode hea s.b habs hro hcode
  · obtain ⟨u, t, hw, hrun, hea', hother, -, hb, hflags⟩ := storeAcc_of_storable hea s.b hst
    exact ⟨u, t, hw, (exec_stabMem o s).trans hrun, hea', hother, hb, hflags⟩

end Sys2Proof.Machine

/-! # ADDA, INCA, CLRB, DECB (`41_arithmetic.md`) -/

namespace Sys2Proof.Machine

/-! ## The flags of each operation, for any state that holds them -/

/-- INCA and DECB set N and Z by the result and differ in the value of V only (R122, R124). -/
theorem flags_after_setNZ8_v {s t : State} {r : Byte} {v : Bool} (h : t.ccr = ccrPut (setNZ8 s.ccr r) .v v) :
    t.flag .n = r.getLsbD 7 ∧ (t.flag .z = true ↔ r = 0x00#8) ∧ t.flag .v = v ∧
      keeps s t [.s, .x, .h, .i, .c] := by
  have bit (k : CcrBit) : t.flag k = ccrBit (ccrPut (setNZ8 s.ccr r) .v v) k := by rw [flag_eq, h]
  simp [bit, keeps, ccrBit_setNZ8, flag_eq]

/-- What R121 says of the CCR after an addition of `m` to `a`. -/
theorem flags_after_add {s t : State} {a m r : Byte} (h : t.ccr = addFlags s.ccr a m r) :
    t.flag .h = addHalfCarry a m r ∧ t.flag .n = r.getLsbD 7 ∧ (t.flag .z = true ↔ r = 0x00#8) ∧
      t.flag .v = addOverflow a m r ∧ t.flag .c = addCarry a m r ∧ keeps s t [.s, .x, .i] := by
  have bit (k : CcrBit) : t.flag k = ccrBit (addFlags s.ccr a m r) k := by rw [flag_eq, h]
  simp [bit, keeps, ccrBit_addFlags, flag_eq]

/-- What R123 says of the CCR after CLRB. -/
theorem flags_after_clr {s t : State} (h : t.ccr = clrFlags s.ccr) :
    t.flag .n = false ∧ t.flag .z = true ∧ t.flag .v = false ∧ t.flag .c = false ∧
      keeps s t [.s, .x, .h, .i] := by
  have bit (k : CcrBit) : t.flag k = ccrBit (clrFlags s.ccr) k := by rw [flag_eq, h]
  simp [bit, keeps, ccrBit_clrFlags, flag_eq]

/-! ## Reading an operand keeps what the addition reads -/

theorem operandRead_fields {s s1 s2 : State} {o : Operand} {ea : Word} {m : Byte}
    (hea : effectiveAddress s o = .ok (ea, s1)) (hrd : readByte s1 ea = .ok (m, s2)) :
    s2.a = s.a ∧ s2.pc = s.pc ∧ s2.ccr = s.ccr := by
  obtain ⟨ha, -, hpc, hccr, -⟩ := effectiveAddress_fields _ _ _ _ hea
  obtain ⟨-, rfl⟩ := (readByte_eq_ok ..).mp hrd
  exact ⟨ha, hpc, hccr⟩

/-! ## The statements -/

/-- Settles O43: the immediate form and the memory forms end in the same `finishAddA`, and reading the operand keeps A, the CCR
and PC, so the sum and the flags are those of the old A. -/
theorem addaAddsOperandByte : Obligations.AddaAddsOperandByte := by
  refine ⟨fun _ => rfl, fun o => ?_, fun s m => ?_, fun s s1 s2 o ea m hea hrd => ?_⟩
  · match o with
    | .dir _ | .ext _ => rfl
    | .idx f => exact encode_indexed (op := 0xAB#8) rfl f
  · obtain ⟨hh, hn, hz, hv, hc, hk⟩ := flags_after_add (s := s) (finishAddA_ccr m s 2)
    exact ⟨finishAddA m s 2, rfl, BitVec.toNat_add .., hh, hn, hz, hv, hc, hk, rfl, rfl⟩
  · obtain ⟨ha, hpc, hccr⟩ := operandRead_fields hea hrd
    have hrun : exec (.addaMem o) s = .next (finishAddA m s2 o.length) := by
      rw [exec_addaMem]; exact (addA_eq_next ..).mpr ⟨ea, s1, m, s2, hea, hrd, rfl⟩
    obtain ⟨hh, hn, hz, hv, hc, hk⟩ := flags_after_add (s := s) (t := finishAddA m s2 o.length) (a := s.a) (m := m)
      (r := (finishAddA m s2 o.length).a) (by rw [finishAddA_ccr, finishAddA_a, hccr, ha])
    refine ⟨_, hrun, ?_, hh, hn, hz, hv, hc, hk, ?_, rfl⟩
    · rw [finishAddA_a, ha]; exact BitVec.toNat_add ..
    · rw [finishAddA_pc, nextPc, hpc]

/-- Settles O46: V is the test of the old A against `$7F`, the other flags are the ones that INCA and DECB share. -/
theorem incaAddsOne : Obligations.IncaAddsOne := by
  refine ⟨rfl, fun s => ?_⟩
  obtain ⟨hn, hz, hv, hk⟩ := flags_after_setNZ8_v (s := s) (t := withCcr s (incFlags s.ccr s.a (s.a + 1#8))) rfl
  exact ⟨_, rfl, BitVec.toNat_add .., hn, hz, (Bool.eq_iff_iff.mp hv).trans beq_iff_eq, hk, rfl, rfl⟩

/-- Settles O47: neither the result nor a written flag depends on the state. -/
theorem clrbClears : Obligations.ClrbClears := by
  refine ⟨rfl, fun s => ?_⟩
  obtain ⟨hn, hz, hv, hc, hk⟩ := flags_after_clr (s := s) (t := withCcr s (clrFlags s.ccr)) rfl
  exact ⟨_, rfl, rfl, hn, hz, hv, hc, hk, rfl, rfl⟩

/-- Settles O48: B minus one is B plus 255 modulo 256, and V is the test of the old B against `$80`. -/
theorem decbSubtractsOne : Obligations.DecbSubtractsOne := by
  refine ⟨rfl, fun s => ?_⟩
  have hb : (s.b - 1#8).toNat = (s.b.toNat + 255) % 256 := by rw [BitVec.toNat_sub, Nat.add_comm]; rfl
  obtain ⟨hn, hz, hv, hk⟩ := flags_after_setNZ8_v (s := s) (t := withCcr s (decFlags s.ccr s.b (s.b - 1#8))) rfl
  exact ⟨_, rfl, hb, hn, hz, (Bool.eq_iff_iff.mp hv).trans beq_iff_eq, hk, rfl, rfl⟩

end Sys2Proof.Machine

/-! # LSRA, ASRA (`42_shift.md`) -/

namespace Sys2Proof.Machine

/-! ## The result, bit by bit -/

/-- Both shifts put one bit above the bits 7 to 1 of A and differ in that bit only (R141, R142). -/
theorem getLsbD_shiftedUnder (top : BitVec 1) (a : Byte) (k : Nat) :
    (top ++ a.extractLsb' 1 7).getLsbD k = if k < 7 then a.getLsbD (k + 1) else top.getLsbD (k - 7) := by
  rw [BitVec.getLsbD_append, BitVec.getLsbD_extractLsb', Nat.add_comm 1 k]
  by_cases hk : k < 7 <;> simp [hk]

theorem shiftRightLogical_bit7 (a : Byte) : (shiftRightLogical a).getLsbD 7 = false :=
  getLsbD_shiftedUnder 0#1 a 7

theorem shiftRightLogical_lowerBit (a : Byte) {k : Nat} (hk : k < 7) :
    (shiftRightLogical a).getLsbD k = a.getLsbD (k + 1) :=
  (getLsbD_shiftedUnder 0#1 a k).trans (if_pos hk)

theorem shiftRightArithmetic_bit7 (a : Byte) : (shiftRightArithmetic a).getLsbD 7 = a.getLsbD 7 :=
  (getLsbD_shiftedUnder (a.extractLsb' 7 1) a 7).trans (BitVec.getLsbD_extractLsb' ..)

theorem shiftRightArithmetic_lowerBit (a : Byte) {k : Nat} (hk : k < 7) :
    (shiftRightArithmetic a).getLsbD k = a.getLsbD (k + 1) :=
  (getLsbD_shiftedUnder (a.extractLsb' 7 1) a k).trans (if_pos hk)

/-! ## The flags of each shift, for any state that holds them -/

/-- What R141 says of the CCR after `old` was shifted to `r`. -/
theorem flags_after_lsr {s t : State} {old r : Byte} (h : t.ccr = lsrFlags s.ccr old r) :
    t.flag .c = old.getLsbD 0 ∧ t.flag .n = false ∧ (t.flag .z = true ↔ r = 0x00#8) ∧
      t.flag .v = xor (t.flag .n) (t.flag .c) ∧ keeps s t [.s, .x, .h, .i] := by
  have bit (k : CcrBit) : t.flag k = ccrBit (lsrFlags s.ccr old r) k := by rw [flag_eq, h]
  simp [bit, keeps, ccrBit_lsrFlags, flag_eq]

/-- What R142 says of the CCR after `old` was shifted to `r`. -/
theorem flags_after_asr {s t : State} {old r : Byte} (h : t.ccr = asrFlags s.ccr old r) :
    t.flag .c = old.getLsbD 0 ∧ t.flag .n = r.getLsbD 7 ∧ (t.flag .z = true ↔ r = 0x00#8) ∧
      t.flag .v = xor (t.flag .n) (t.flag .c) ∧ keeps s t [.s, .x, .h, .i] := by
  have bit (k : CcrBit) : t.flag k = ccrBit (asrFlags s.ccr old r) k := by rw [flag_eq, h]
  simp [bit, keeps, ccrBit_asrFlags, flag_eq]

/-! ## The statements -/

/-- Settles O49: a 0 stands above the old bits 7 to 1, and the flags are those of R141 for that result. -/
theorem lsraShiftsRight : Obligations.LsraShiftsRight := by
  refine ⟨rfl, fun s => ?_⟩
  obtain ⟨hc, hn, hz, hv, hk⟩ :=
    flags_after_lsr (s := s) (t := withCcr s (lsrFlags s.ccr s.a (shiftRightLogical s.a))) rfl
  exact ⟨_, rfl, shiftRightLogical_bit7 s.a, fun _ => shiftRightLogical_lowerBit s.a, hc, hn, hz, hv, hk, rfl, rfl⟩

/-- Settles O50: the old bit 7 stands above the old bits 7 to 1, and the flags are those of R142 for that result. -/
theorem asraShiftsRight : Obligations.AsraShiftsRight := by
  refine ⟨rfl, fun s => ?_⟩
  obtain ⟨hc, hn, hz, hv, hk⟩ :=
    flags_after_asr (s := s) (t := withCcr s (asrFlags s.ccr s.a (shiftRightArithmetic s.a))) rfl
  exact ⟨_, rfl, shiftRightArithmetic_bit7 s.a, fun _ => shiftRightArithmetic_lowerBit s.a, hc, hn, hz, hv, hk, rfl, rfl⟩

end Sys2Proof.Machine

/-! # SWI (`43_swi.md`) -/

namespace Sys2Proof.Machine

/-! ## What SWI answers, with and without room on the stack -/

theorem exec_swi (s : State) : exec .swi s = execSwi s := rfl

/-- Where the stack has no room the exception sequence does not complete, and SWI is that sequence (R151). -/
theorem execSwi_refused_of_no_room {s : State} (h : stackRoom s = false) : ∃ e : Refusal, execSwi s = .refused e := by
  unfold execSwi
  cases ht : takeException s (nextPc s 1) s.platform.swiVector with
  | error e => exact ⟨e, rfl⟩
  | ok t =>
    have hroom := ((takeException_eq_ok ..).mp ht).1
    exact absurd hroom (by simp [h])

/-- Where the stack has room, only the vector read in the stacked state decides what SWI answers (R48, R151). -/
theorem execSwi_of_room {s : State} (h : stackRoom s = true) :
    execSwi s = toOutcome ((readWord (framed s (nextPc s 1)) s.platform.swiVector).map fun r => { r.2 with pc := r.1 }) := by
  rw [execSwi, takeException_of_room _ _ _ h]

/-- Stacking ends with I set and every other CCR bit as it was (R163). -/
theorem framed_flags (s : State) (rtn : Word) :
    (framed s rtn).flag .i = true ∧ keeps s (framed s rtn) [.s, .x, .h, .n, .z, .v, .c] := by
  simp [keeps, flag_eq]

/-- Stacking leaves every byte outside the frame as it was (R152). -/
theorem byteAt_framed_of_free {s : State} {a : Word} (rtn : Word) (h : belowStackFree s a = true) :
    (framed s rtn).byteAt a = s.byteAt a := by
  obtain ⟨-, -, -, -, -, -, -, -, -, -, hfree⟩ := frameStored_framed s rtn (framed s rtn) rfl rfl
  exact hfree a h

/-! ## When a read completes, and when it changes nothing -/

/-- Whether a one-byte read completes depends on the map and on whether the byte has a value, not on which value that is. -/
theorem valueAt_ok_of_isSome {s t : State} {a : Word} {v : Byte} (hp : t.platform = s.platform)
    (hb : (s.byteAt a).isSome → (t.byteAt a).isSome) (h : valueAt s a = .ok v) : ∃ w, valueAt t a = .ok w := by
  rcases (valueAt_eq_ok ..).mp h with ⟨hd, -⟩ | ⟨hk, hv⟩
  · exact ⟨_, (valueAt_eq_ok ..).mpr (.inl ⟨hp ▸ hd, rfl⟩)⟩
  · obtain ⟨w, hw⟩ := Option.isSome_iff_exists.mp (hb (by simp [hv]))
    exact ⟨w, (valueAt_eq_ok ..).mpr (.inr ⟨hp ▸ hk, hw⟩)⟩

/-- A two-byte read that completes also does so in a state with the same map where at least the same bytes have a value. -/
theorem readWord_ok_of_isSome {s t w : State} {a v : Word} (hp : t.platform = s.platform)
    (hb : ∀ b : Word, (s.byteAt b).isSome → (t.byteAt b).isSome) (h : readWord s a = .ok (v, w)) :
    ∃ v', readWord t a = .ok (v', { t with io := wordReadEvents t.platform a ++ t.io }) := by
  obtain ⟨_, _, hhi, hlo, -, -⟩ := (readWord_eq_ok ..).mp h
  obtain ⟨hi, hhi'⟩ := valueAt_ok_of_isSome hp (hb a) hhi
  obtain ⟨lo, hlo'⟩ := valueAt_ok_of_isSome (s := afterRead s a) (t := afterRead t a) hp (hb (a + 1#16)) hlo
  exact ⟨_, (readWord_eq_ok ..).mpr ⟨hi, lo, hhi', hlo', rfl, rfl⟩⟩

/-- A two-byte read of two bytes without side effects changes nothing (R47). -/
theorem readWord_state_of_not_device {s w : State} {a v : Word} (hd : isDevice s.platform a = false)
    (hd' : isDevice s.platform (a + 1#16) = false) (h : readWord s a = .ok (v, w)) : w = s := by
  obtain ⟨_, _, -, -, -, rfl⟩ := (readWord_eq_ok ..).mp h
  simp [wordReadEvents, readEvents_of_not_device _ _ hd, readEvents_of_not_device _ _ hd']

/-! ## What the stacked bytes owe to the CCR -/

/-- The CCR is stacked last, over memory that does not depend on it (R151). -/
theorem framedMemory_withCcr (s : State) (rtn : Word) :
    ∃ m, ∀ c : Byte, framedMemory (withCcr s c) rtn = memAfter s.platform m (s.sp - 9#16) c := by
  simp only [framedMemory, withCcr_a, withCcr_b, withCcr_x, withCcr_y, withCcr_sp, withCcr_ccr, withCcr_mem, withCcr_platform]
  exact ⟨_, fun _ => rfl⟩

/-- The CCR decides the lowest byte of the frame and no other byte (R152). -/
theorem byteAt_framed_withCcr (s : State) (c : Byte) (rtn a : Word) :
    (framed (withCcr s c) rtn).byteAt a =
      if a = s.sp - 9#16 then stacked (framed s rtn) a c else (framed s rtn).byteAt a := by
  obtain ⟨m, hm⟩ := framedMemory_withCcr s rtn
  have hs : framedMemory s rtn = memAfter s.platform m (s.sp - 9#16) s.ccr := hm s.ccr
  simp only [State.byteAt, stacked, framed_mem, framed_platform, hm, hs, read_memAfter]
  by_cases ha : a = s.sp - 9#16
  · cases hd : isDevice s.platform (s.sp - 9#16) <;> simp [ha, hd]
  · simp [ha]

/-- Under another CCR the stacked state has a value at every byte where it has one under this CCR. -/
theorem byteAt_framed_withCcr_isSome (s : State) (c : Byte) (rtn a : Word) (h : ((framed s rtn).byteAt a).isSome) :
    ((framed (withCcr s c) rtn).byteAt a).isSome := by
  rw [byteAt_framed_withCcr, stacked]
  split
  · split
    · exact h
    · rfl
  · exact h

/-- Outside the frame, the stacked bytes do not depend on the CCR. -/
theorem byteAt_framed_withCcr_of_free {s : State} {a : Word} (c : Byte) (rtn : Word) (h : belowStackFree s a = true) :
    (framed (withCcr s c) rtn).byteAt a = (framed s rtn).byteAt a :=
  (byteAt_framed_of_free (s := withCcr s c) rtn h).trans (byteAt_framed_of_free rtn h).symm

/-! ## The statements -/

/-- Settles O29: `framed` is the stacked state; it lies as R152 says, and the vector read in it decides the outcome. -/
theorem swiStacksFrameAndTakesVector : Obligations.SwiStacksFrameAndTakesVector := by
  refine ⟨rfl, fun s hroom => execSwi_refused_of_no_room hroom, fun s hroom => ?_⟩
  obtain ⟨hi, hkeeps⟩ := framed_flags s (nextPc s 1)
  refine ⟨framed s (nextPc s 1), fun _ => frameStored_framed s _ _ rfl rfl, rfl, fun _ => byteAt_framed_of_free _, hi,
    hkeeps, rfl, fun target w hread => ?_, fun e hread => ?_⟩
  · rw [exec_swi, execSwi_of_room hroom, hread]; rfl
  · rw [exec_swi, execSwi_of_room hroom, hread]; rfl

/-- Settles O31: another CCR changes the lowest stacked byte only, so the vector still reads, and reads the same where neither of
its bytes is in the frame or has side effects. -/
theorem swiIsNotMasked : Obligations.SwiIsNotMasked := by
  intro s t c hrun
  obtain ⟨hroom, target, w, hread, rfl⟩ := (execSwi_eq_next ..).mp hrun
  obtain ⟨target', hread'⟩ := readWord_ok_of_isSome (s := framed s (nextPc s 1)) (t := framed (withCcr s c) (nextPc s 1)) rfl
    (byteAt_framed_withCcr_isSome s c (nextPc s 1)) hread
  obtain ⟨hi, -⟩ := framed_flags (withCcr s c) (nextPc s 1)
  refine ⟨_, (execSwi_eq_next ..).mpr ⟨hroom, target', _, hread', rfl⟩, ?_, hi, fun hf hf' hd hd' => ?_⟩
  · obtain ⟨_, _, -, -, -, rfl⟩ := (readWord_eq_ok ..).mp hread
    rfl
  · have hw := readWord_state_of_not_device (s := framed s (nextPc s 1)) hd hd' hread
    subst hw
    have hsame := readWord_congr (framed s (nextPc s 1)) (framed (withCcr s c) (nextPc s 1)) _ _ rfl
      (byteAt_framed_withCcr_of_free c _ hf) (byteAt_framed_withCcr_of_free c _ hf') hread
    exact congrArg Prod.fst (Except.ok.inj (hread'.symm.trans hsame))

end Sys2Proof.Machine

/-! # The encoding (`30_encoding.md`) -/

namespace Sys2Proof.Machine

/-! ## The postbyte and the form it selects (R74) -/

/-- What a form's postbyte says of it before any extension byte is read. -/
def shapeOf : IndexedForm → PostbyteShape
  | .off9 r n => .wantsByte r (n.extractLsb' 8 1)
  | .off16 r _ => .wantsWord r false
  | .ind16 r _ => .wantsWord r true
  | f => .whole f

/-- The row of R74 that a shape stands for. -/
def shapeByte : PostbyteShape → Byte
  | .whole f => f.postbyte
  | .wantsByte r s => 7#3 ++ r.code ++ 0#2 ++ s
  | .wantsWord r false => 7#3 ++ r.code ++ 2#3
  | .wantsWord r true => 7#3 ++ r.code ++ 3#3

theorem shapeByte_shapeOf (f : IndexedForm) : shapeByte (shapeOf f) = f.postbyte := by
  cases f <;> rfl

/-- No bit of a postbyte is ignored: the 256 values have 256 shapes (R68, R83). -/
theorem shapeByte_postbyteShape : ∀ xb : Byte, shapeByte (postbyteShape xb) = xb := by
  decide

theorem postbyteShape_wantsByte (r : BaseReg) (s : BitVec 1) :
    postbyteShape (shapeByte (.wantsByte r s)) = .wantsByte r s := by
  cases r <;> revert s <;> decide

theorem postbyteShape_wantsWord (r : BaseReg) (indirect : Bool) :
    postbyteShape (shapeByte (.wantsWord r indirect)) = .wantsWord r indirect := by
  cases r <;> cases indirect <;> decide

/-- Each form is the one that its own postbyte selects (R74 to R83). -/
theorem postbyteShape_postbyte (f : IndexedForm) : postbyteShape f.postbyte = shapeOf f := by
  cases f with
  | off5 r n => cases r <;> revert n <;> decide
  | auto r w n => cases r <;> cases w <;> revert n <;> decide
  | acc r k => cases r <;> cases k <;> decide
  | accD r | indD r => cases r <;> decide
  | off9 r n => exact postbyteShape_wantsByte r _
  | off16 r n => exact postbyteShape_wantsWord r false
  | ind16 r n => exact postbyteShape_wantsWord r true

/-! ## The 9-bit offset as a sign bit and a byte (R79) -/

theorem signBit_append (s : BitVec 1) (ff : Byte) : (s ++ ff).extractLsb' 8 1 = s := by
  apply BitVec.eq_of_getLsbD_eq
  intro i hi
  rw [BitVec.getLsbD_extractLsb', BitVec.getLsbD_append]
  simp [hi]

theorem lowByte_append (s : BitVec 1) (ff : Byte) : (s ++ ff).setWidth 8 = ff := by
  apply BitVec.eq_of_getLsbD_eq
  intro i hi
  rw [BitVec.getLsbD_setWidth, BitVec.getLsbD_append]
  simp [hi]

theorem signBit_append_lowByte (n : BitVec 9) : n.extractLsb' 8 1 ++ n.setWidth 8 = n := by
  apply BitVec.eq_of_getLsbD_eq
  intro i hi
  rw [BitVec.getLsbD_append, BitVec.getLsbD_setWidth, BitVec.getLsbD_extractLsb']
  obtain h | rfl : i < 8 ∨ i = 8 := by omega
  · simp [h]
  · simp

/-! ## What the decoder answers, from any source of bytes -/

/-- The reader has the bytes `bs` from offset `k` on. -/
def Supplies {ε : Type} (rd : Nat → Except ε Byte) (k : Nat) (bs : List Byte) : Prop :=
  match bs with
  | [] => True
  | b :: rest => rd k = .ok b ∧ Supplies rd (k + 1) rest

/-- A list of bytes supplies those that it begins with. -/
theorem supplies_byteOfList (bs : List Byte) (k : Nat) (l : List Byte) :
    Supplies (byteOfList bs) k l ↔ l <+: bs.drop k := by
  induction l generalizing k with
  | nil => simp [Supplies]
  | cons b l ih =>
    rw [Supplies, ih, byteOfList_ok]
    by_cases hk : k < bs.length
    · rw [List.drop_eq_getElem_cons hk, List.cons_prefix_cons, List.getElem?_eq_getElem hk, Option.some_inj]
      exact and_congr_left fun _ => eq_comm
    · simp [List.getElem?_eq_none (not_lt.mp hk), List.drop_eq_nil_of_le (not_lt.mp hk)]

section
variable {ε : Type} {rd : Nat → Except ε Byte}

theorem readPair_eq_ok (k : Nat) (w : Word) :
    readPair rd k = .ok w ↔ Supplies rd k [hiByte w, loByte w] := by
  simp only [readPair, bind_eq_ok, pure_eq_ok, Supplies, and_true]
  constructor
  · rintro ⟨hi, h1, lo, h2, rfl⟩
    rw [hiByte_wordOf, loByte_wordOf]
    exact ⟨h1, h2⟩
  · rintro ⟨h1, h2⟩
    exact ⟨_, h1, _, h2, wordOf_hi_lo w⟩

/-- A shape that is a whole form has no extension byte. -/
theorem extension_of_whole {xb : Byte} {f : IndexedForm} (h : postbyteShape xb = .whole f) : f.extension = [] := by
  have hxb : f.postbyte = xb := by rw [← shapeByte_postbyteShape xb, h]; rfl
  have hf : shapeOf f = .whole f := by rw [← postbyteShape_postbyte, hxb, h]
  cases f <;> first | rfl | cases hf

/-- The decoder reads an indexed form exactly from that form's postbyte and extension. -/
theorem readIndexed_eq_ok (f : IndexedForm) :
    readIndexed rd = .ok f ↔ Supplies rd 1 (f.postbyte :: f.extension) := by
  rw [readIndexed, bind_eq_ok, Supplies]
  constructor
  · rintro ⟨xb, h1, h⟩
    have hxb := shapeByte_postbyteShape xb
    split at h
    · next g hs =>
      obtain rfl := (pure_eq_ok ..).mp h
      rw [hs] at hxb
      rw [extension_of_whole hs]
      subst hxb
      exact ⟨h1, trivial⟩
    · next r s hs =>
      obtain ⟨ff, h2, h3⟩ := (bind_eq_ok ..).mp h
      obtain rfl := (pure_eq_ok ..).mp h3
      rw [hs] at hxb
      refine ⟨?_, ?_, trivial⟩
      · rw [← shapeByte_shapeOf, shapeOf, signBit_append, hxb, h1]
      · rw [lowByte_append, h2]
    · next r indirect hs =>
      obtain ⟨n, h2, h3⟩ := (bind_eq_ok ..).mp h
      obtain rfl := (pure_eq_ok ..).mp h3
      rw [hs] at hxb
      subst hxb
      cases indirect <;> exact ⟨h1, (readPair_eq_ok ..).mp h2⟩
  · rintro ⟨h1, h2⟩
    refine ⟨_, h1, ?_⟩
    rw [postbyteShape_postbyte]
    cases f with
    | off9 r n =>
      simp only [shapeOf, bind_eq_ok, pure_eq_ok]
      exact ⟨_, h2.1, by rw [signBit_append_lowByte]⟩
    | off16 r n | ind16 r n =>
      simp only [shapeOf, bind_eq_ok]
      exact ⟨n, (readPair_eq_ok ..).mpr h2, rfl⟩
    | _ => rfl

/-- `i` is what an opcode's entry makes of the bytes `tail` after the opcode byte (R61). -/
def EntryReads (e : OpcodeEntry) (tail : List Byte) (i : Instr) : Prop :=
  match e with
  | .inh j => tail = [] ∧ i = j
  | .imm row => ∃ v, tail = [v] ∧ i = row v
  | .dir row => ∃ d, tail = [d] ∧ i = row (.dir d)
  | .ext row => ∃ a, tail = [hiByte a, loByte a] ∧ i = row (.ext a)
  | .indexed row => ∃ f : IndexedForm, tail = f.postbyte :: f.extension ∧ i = row (.idx f)

/-- What the decoder can answer: a row of the opcode map with the operand bytes that this row has. -/
theorem decodeFrom_eq_ok (ns : Byte → ε) (i : Instr) :
    decodeFrom rd ns = .ok i ↔
      ∃ op e tail, opcodeMap op = some e ∧ EntryReads e tail i ∧ Supplies rd 0 (op :: tail) := by
  rw [decodeFrom, bind_eq_ok]
  constructor
  · rintro ⟨op, h0, h⟩
    split at h
    · cases h
    · next j hm => exact ⟨op, _, [], hm, ⟨rfl, ((pure_eq_ok ..).mp h).symm⟩, h0, trivial⟩
    · next row hm =>
      obtain ⟨v, h1, h2⟩ := (bind_eq_ok ..).mp h
      exact ⟨op, _, _, hm, ⟨v, rfl, ((pure_eq_ok ..).mp h2).symm⟩, h0, h1, trivial⟩
    · next row hm =>
      obtain ⟨d, h1, h2⟩ := (bind_eq_ok ..).mp h
      exact ⟨op, _, _, hm, ⟨d, rfl, ((pure_eq_ok ..).mp h2).symm⟩, h0, h1, trivial⟩
    · next row hm =>
      obtain ⟨a, h1, h2⟩ := (bind_eq_ok ..).mp h
      exact ⟨op, _, _, hm, ⟨a, rfl, ((pure_eq_ok ..).mp h2).symm⟩, h0, (readPair_eq_ok ..).mp h1⟩
    · next row hm =>
      obtain ⟨f, h1, h2⟩ := (bind_eq_ok ..).mp h
      exact ⟨op, _, _, hm, ⟨f, rfl, ((pure_eq_ok ..).mp h2).symm⟩, h0, (readIndexed_eq_ok f).mp h1⟩
  · rintro ⟨op, e, tail, hm, he, h0, h1⟩
    refine ⟨op, h0, ?_⟩
    rw [hm]
    cases e with
    | inh j => exact congrArg Except.ok he.2.symm
    | imm row => obtain ⟨v, rfl, rfl⟩ := he; exact (bind_eq_ok ..).mpr ⟨v, h1.1, rfl⟩
    | dir row => obtain ⟨d, rfl, rfl⟩ := he; exact (bind_eq_ok ..).mpr ⟨d, h1.1, rfl⟩
    | ext row => obtain ⟨a, rfl, rfl⟩ := he; exact (bind_eq_ok ..).mpr ⟨a, (readPair_eq_ok ..).mpr h1, rfl⟩
    | indexed row => obtain ⟨f, rfl, rfl⟩ := he; exact (bind_eq_ok ..).mpr ⟨f, (readIndexed_eq_ok f).mpr h1, rfl⟩

end

/-- A list decodes exactly if it begins with an opcode byte of the map and that entry's operand bytes. -/
theorem decode_eq_ok (bs : List Byte) (i : Instr) :
    decode bs = .ok i ↔ ∃ op e tail, opcodeMap op = some e ∧ EntryReads e tail i ∧ op :: tail <+: bs := by
  simp only [decode, decodeFrom_eq_ok, supplies_byteOfList, List.drop_zero]

/-! ## The encoder agrees with the opcode map, both ways -/

theorem wellFormed_indexed {op : Byte} {row : Operand → Instr} (h : opcodeMap op = some (.indexed row))
    (f : IndexedForm) : (row (.idx f)).wellFormed = true := by
  obtain ⟨-, rfl⟩ | ⟨-, rfl⟩ | ⟨-, rfl⟩ | ⟨-, rfl⟩ := opcodeMap_eq_indexed h
  all_goals
    cases f with
    | auto r w n => cases r <;> rfl
    | _ => rfl

/-- What an entry of the opcode map reads is well-formed and encoded as the bytes it was read from. -/
theorem encode_of_entryReads {op : Byte} {e : OpcodeEntry} {tail : List Byte} {i : Instr}
    (hm : opcodeMap op = some e) (he : EntryReads e tail i) : i.wellFormed = true ∧ encode i = op :: tail := by
  cases e
  case indexed row =>
    obtain ⟨f, rfl, rfl⟩ := he
    exact ⟨wellFormed_indexed hm f, encode_indexed hm f⟩
  case' inh j => obtain ⟨rfl, rfl⟩ := he
  case' imm row | dir row | ext row => obtain ⟨v, rfl, rfl⟩ := he
  all_goals
    unfold opcodeMap at hm
    split at hm <;> cases hm <;>
      (next hop => exact ⟨rfl, List.cons_eq_cons.mpr ⟨BitVec.eq_of_toNat_eq hop.symm, rfl⟩⟩)

/-- The instruction is a row of the opcode map, with the operand bytes of that row. -/
def HasRow (i : Instr) : Prop := ∃ op e tail, opcodeMap op = some e ∧ EntryReads e tail i

/-- The four instructions with an operand in memory have a row for each of its forms (R64). -/
theorem hasRow_of_memory {i : Instr} (o : Operand)
    (h : i = .ldaaMem o ∨ i = .staaMem o ∨ i = .stabMem o ∨ i = .addaMem o) : HasRow i := by
  cases o with
  | dir d =>
    obtain rfl | rfl | rfl | rfl := h
    · exact ⟨0x96#8, _, _, rfl, d, rfl, rfl⟩
    · exact ⟨0x5A#8, _, _, rfl, d, rfl, rfl⟩
    · exact ⟨0x5B#8, _, _, rfl, d, rfl, rfl⟩
    · exact ⟨0x9B#8, _, _, rfl, d, rfl, rfl⟩
  | ext a =>
    obtain rfl | rfl | rfl | rfl := h
    · exact ⟨0xB6#8, _, _, rfl, a, rfl, rfl⟩
    · exact ⟨0x7A#8, _, _, rfl, a, rfl, rfl⟩
    · exact ⟨0x7B#8, _, _, rfl, a, rfl, rfl⟩
    · exact ⟨0xBB#8, _, _, rfl, a, rfl, rfl⟩
  | idx f =>
    obtain rfl | rfl | rfl | rfl := h
    · exact ⟨0xA6#8, _, _, rfl, f, rfl, rfl⟩
    · exact ⟨0x6A#8, _, _, rfl, f, rfl, rfl⟩
    · exact ⟨0x6B#8, _, _, rfl, f, rfl, rfl⟩
    · exact ⟨0xAB#8, _, _, rfl, f, rfl, rfl⟩

/-- Every well-formed instruction has a row: the automatic form with SP is the row `101pnnnn` and no other (R69). -/
theorem hasRow_of_wellFormed {i : Instr} (h : i.wellFormed = true) : HasRow i := by
  cases i
  case ldaaImm v => exact ⟨0x86#8, _, _, rfl, v, rfl, rfl⟩
  case addaImm v => exact ⟨0x8B#8, _, _, rfl, v, rfl, rfl⟩
  case inca => exact ⟨0x42#8, _, _, rfl, rfl, rfl⟩
  case clrb => exact ⟨0xC7#8, _, _, rfl, rfl, rfl⟩
  case decb => exact ⟨0x53#8, _, _, rfl, rfl, rfl⟩
  case lsra => exact ⟨0x44#8, _, _, rfl, rfl, rfl⟩
  case asra => exact ⟨0x47#8, _, _, rfl, rfl, rfl⟩
  case swi => exact ⟨0x3F#8, _, _, rfl, rfl, rfl⟩
  case' ldaaDir d | staaDir d | stabDir d | addaDir d => apply hasRow_of_memory (.dir d)
  case' ldaaExt a | staaExt a | stabExt a | addaExt a => apply hasRow_of_memory (.ext a)
  case' ldaaOff5 r n | staaOff5 r n | stabOff5 r n | addaOff5 r n => apply hasRow_of_memory (.idx (.off5 r n))
  case' ldaaAutoXY r w n | staaAutoXY r w n | stabAutoXY r w n | addaAutoXY r w n =>
    apply hasRow_of_memory (.idx (.auto r w n))
    cases r
    case sp => cases h
  case' ldaaAutoSp w n | staaAutoSp w n | stabAutoSp w n | addaAutoSp w n =>
    apply hasRow_of_memory (.idx (.auto .sp w n))
  case' ldaaAcc r k | staaAcc r k | stabAcc r k | addaAcc r k => apply hasRow_of_memory (.idx (.acc r k))
  case' ldaaAccD r | staaAccD r | stabAccD r | addaAccD r => apply hasRow_of_memory (.idx (.accD r))
  case' ldaaOff9 r n | staaOff9 r n | stabOff9 r n | addaOff9 r n => apply hasRow_of_memory (.idx (.off9 r n))
  case' ldaaOff16 r n | staaOff16 r n | stabOff16 r n | addaOff16 r n => apply hasRow_of_memory (.idx (.off16 r n))
  case' ldaaIndD r | staaIndD r | stabIndD r | addaIndD r => apply hasRow_of_memory (.idx (.indD r))
  case' ldaaInd16 r n | staaInd16 r n | stabInd16 r n | addaInd16 r n => apply hasRow_of_memory (.idx (.ind16 r n))
  all_goals simp [Instr.ldaaMem, Instr.staaMem, Instr.stabMem, Instr.addaMem]

/-! ## Every postbyte, and every opcode byte -/

/-- The bytes that a shape gives an instruction: opcode byte, postbyte and extension. -/
def shapeLength : PostbyteShape → Nat
  | .whole _ => 2
  | .wantsByte _ _ => 3
  | .wantsWord _ _ => 4

/-- R62's test on the postbyte tells the shapes apart by their length. -/
theorem lengthByPostbyte_eq : ∀ xb : Byte, lengthByPostbyte xb = shapeLength (postbyteShape xb) := by
  decide

theorem length_indexed {op : Byte} {row : Operand → Instr} (h : opcodeMap op = some (.indexed row))
    (f : IndexedForm) : (row (.idx f)).length = shapeLength (shapeOf f) := by
  obtain ⟨-, rfl⟩ | ⟨-, rfl⟩ | ⟨-, rfl⟩ | ⟨-, rfl⟩ := opcodeMap_eq_indexed h
  all_goals
    cases f with
    | auto r w n => cases r <;> rfl
    | _ => rfl

/-- Every postbyte, with the two bytes after it, begins with the bytes of a form that it selects. -/
theorem exists_form_of_postbyte (xb e f : Byte) :
    ∃ fm : IndexedForm, shapeOf fm = postbyteShape xb ∧ fm.postbyte :: fm.extension <+: [xb, e, f] := by
  have hxb := shapeByte_postbyteShape xb
  cases hs : postbyteShape xb with
  | whole g =>
    have hg : g.postbyte = xb := by rw [← hxb, hs]; rfl
    refine ⟨g, by rw [← postbyteShape_postbyte, hg, hs], ?_⟩
    rw [extension_of_whole hs, hg]
    exact ⟨[e, f], rfl⟩
  | wantsByte r s =>
    have hshape : shapeOf (.off9 r (s ++ e)) = .wantsByte r s := by rw [shapeOf, signBit_append]
    refine ⟨.off9 r (s ++ e), hshape, ?_⟩
    rw [← shapeByte_shapeOf, hshape, ← hs, hxb, IndexedForm.extension, lowByte_append]
    exact ⟨[f], rfl⟩
  | wantsWord r indirect =>
    rw [hs] at hxb
    have hword : [hiByte (wordOf e f), loByte (wordOf e f)] = [e, f] := by rw [hiByte_wordOf, loByte_wordOf]
    cases indirect with
    | false => exact ⟨.off16 r (wordOf e f), rfl, [], by rw [← hxb, ← hword]; rfl⟩
    | true => exact ⟨.ind16 r (wordOf e f), rfl, [], by rw [← hxb, ← hword]; rfl⟩

/-- The opcode map and the list of R64 have the same bytes. -/
theorem opcodeMap_eq_none_iff (op : Byte) : opcodeMap op = none ↔ op ∉ shownOpcodes := by
  have same : ∀ op : Byte, (opcodeMap op).isNone = !shownOpcodes.contains op := by decide
  rw [← Option.isNone_iff_eq_none, same, Bool.not_eq_true', ← Bool.not_eq_true, List.contains_iff_mem]

/-! ## The statements -/

/-- Settles O1: a well-formed instruction has a row of the opcode map, its encoding is that row's bytes, and the decoder reads a
row back from its bytes. -/
theorem decodeOfEncodeIsInstruction : Obligations.DecodeOfEncodeIsInstruction := by
  intro i rest h
  obtain ⟨op, e, tail, hm, he⟩ := hasRow_of_wellFormed h
  obtain ⟨-, henc⟩ := encode_of_entryReads hm he
  exact (decode_eq_ok ..).mpr ⟨op, e, tail, hm, he, henc ▸ List.prefix_append ..⟩

/-- Settles O2: what decodes is a row of the opcode map with its operand bytes, and these are the instruction's encoding. -/
theorem decodedBytesAreTheEncoding : Obligations.DecodedBytesAreTheEncoding := by
  intro bs i h
  obtain ⟨op, e, tail, hm, he, rest, hbs⟩ := (decode_eq_ok ..).mp h
  obtain ⟨hwf, henc⟩ := encode_of_entryReads hm he
  exact ⟨hwf, rest, by rw [henc, hbs]⟩

/-- Settles O3: the postbyte selects a form whose bytes come next, and the test of R62 gives that form's length. -/
theorem everyPostbyteDecodes : Obligations.EveryPostbyteDecodes := by
  intro op xb e f hop
  obtain ⟨row, hm⟩ : ∃ row, opcodeMap op = some (.indexed row) := by
    simp only [indexedOpcodes, List.mem_cons, List.not_mem_nil, or_false] at hop
    obtain rfl | rfl | rfl | rfl := hop <;> exact ⟨_, rfl⟩
  obtain ⟨fm, hshape, hbytes⟩ := exists_form_of_postbyte xb e f
  refine ⟨row (.idx fm), (decode_eq_ok ..).mpr ⟨op, _, _, hm, ⟨fm, rfl, rfl⟩, ?_⟩, ?_⟩
  · exact (List.cons_prefix_cons).mpr ⟨rfl, hbytes⟩
  · rw [length_indexed hm, hshape, lengthByPostbyte_eq]

/-- Settles O4: a list of bytes can only end too early, so a rejection by name is the opcode map's. -/
theorem onlyShownOpcodesDecode : Obligations.OnlyShownOpcodesDecode := by
  intro op rest
  rw [← opcodeMap_eq_none_iff]
  constructor
  · intro h
    obtain ⟨k, hk⟩ | ⟨op', -, hnone, hop⟩ := decodeFrom_error h
    · cases byteOfList_error _ _ _ hk
    · cases hop
      exact hnone
  · exact decodeFrom_not_shown rfl

/-- Settles O6: one word per family, run through the decoder. -/
theorem sampleWordsDecode : Obligations.SampleWordsDecode := by
  refine ⟨?_, ?_, ?_, ?_, ?_, ?_, ?_, ?_, ?_, ?_, ?_⟩ <;> rfl

end Sys2Proof.Machine

/-! # The step (`60_exceptions.md`) -/

namespace Sys2Proof.Machine

/-! ## What a step is, for each thing that can be due at the boundary (R166 to R169, D12) -/

theorem step_of_halted {s : State} (h : s.platform.haltPc = some s.pc) : step s = .fault .halted := by
  rw [step, boundaryStep, if_pos h]

theorem step_of_executesNext {s : State} (hr : running s) (he : executesNext s) :
    step s = runInstruction { s with agenda := s.agenda.tail } := by
  rw [step, boundaryStep, if_neg hr]
  obtain ha | ⟨rest, ha⟩ := he
  · have hs : ({ s with agenda := s.agenda.tail } : State) = s := by rw [ha, List.tail_nil, ← ha]
    rw [hs, ha]
  · rw [ha, List.tail_cons]

theorem step_of_request {s : State} {k : Nat} {rest : List Boundary} (hr : running s) (ha : s.agenda = .request k :: rest) :
    step s = offerRequest { s with agenda := rest } k := by
  rw [step, boundaryStep, if_neg hr, ha]

theorem step_of_reset {s : State} {rest : List Boundary} (hr : running s) (ha : s.agenda = .reset :: rest) :
    step s = toOutcome (takeReset { s with agenda := rest }) := by
  rw [step, boundaryStep, if_neg hr, ha]

/-- At a boundary the instruction executes, a request is offered or reset is due. -/
theorem agenda_cases (s : State) :
    executesNext s ∨ (∃ k rest, s.agenda = .request k :: rest) ∨ ∃ rest, s.agenda = .reset :: rest := by
  rcases ha : s.agenda with _ | ⟨_ | k | _, rest⟩
  · exact .inl (.inl ha)
  · exact .inl (.inr ⟨rest, ha⟩)
  · exact .inr (.inl ⟨k, rest, rfl⟩)
  · exact .inr (.inr ⟨rest, rfl⟩)

/-! ## Executing the instruction at PC -/

theorem runInstruction_of_ok {s : State} {i : Instr} (h : fetchInstr s = .ok i) : runInstruction s = exec i s := by
  rw [runInstruction, h]

theorem runInstruction_of_error {s : State} {e : Refusal} (h : fetchInstr s = .error e) :
    runInstruction s = .refused e := by
  rw [runInstruction, h]

/-- A fetch that is refused is the refusal of the step that executes (R84, D18). -/
theorem step_of_fetch_error {s : State} {e : Refusal} (hr : running s) (he : executesNext s)
    (h : fetchInstr s = .error e) : step s = .refused e :=
  (step_of_executesNext hr he).trans (runInstruction_of_error h)

theorem fetch_of_outside {s : State} {a : Word} (h : inCode s.platform a = false) :
    fetch s a = .error (.fetchOutsideCode a) := by
  rw [fetch, h]
  rfl

/-! ## Offering a request (R166) -/

theorem offerRequest_of_taken {s : State} {k : Nat} {v : IrqVector} (hv : s.platform.irqVectors[k]? = some v)
    (hal : requestAllowed s v = true) : offerRequest s k = toOutcome (takeInterrupt s v) := by
  simp only [offerRequest, hv, hal, if_true]

theorem offerRequest_of_not_taken {s : State} {k : Nat}
    (h : ∀ v, s.platform.irqVectors[k]? = some v → requestAllowed s v = false) : offerRequest s k = runInstruction s := by
  cases hv : s.platform.irqVectors[k]? with
  | none => simp only [offerRequest, hv]
  | some v => simp [offerRequest, hv, h v hv]

/-- A request is taken or it is not. -/
theorem request_cases (s : State) (k : Nat) :
    (∃ v, s.platform.irqVectors[k]? = some v ∧ requestAllowed s v = true) ∨
      ∀ v, s.platform.irqVectors[k]? = some v → requestAllowed s v = false := by
  by_cases h : ∃ v, s.platform.irqVectors[k]? = some v ∧ requestAllowed s v = true
  · exact .inl h
  · exact .inr fun v hv => Bool.eq_false_iff.mpr fun hal => h ⟨v, hv, hal⟩

/-! ## No operation ends in a fault -/

theorem runInstruction_ne_fault (s : State) (f : Fault) : runInstruction s ≠ .fault f := by
  cases h : fetchInstr s with
  | ok i => rw [runInstruction_of_ok h]; exact exec_ne_fault i s f
  | error e => rw [runInstruction_of_error h]; nofun

theorem offerRequest_ne_fault (s : State) (k : Nat) (f : Fault) : offerRequest s k ≠ .fault f := by
  obtain ⟨v, hv, hal⟩ | hno := request_cases s k
  · rw [offerRequest_of_taken hv hal]; exact toOutcome_ne_fault _ f
  · rw [offerRequest_of_not_taken hno]; exact runInstruction_ne_fault s f

theorem step_ne_fault_of_running {s : State} (hr : running s) (f : Fault) : step s ≠ .fault f := by
  obtain he | ⟨k, rest, ha⟩ | ⟨rest, ha⟩ := agenda_cases s
  · rw [step_of_executesNext hr he]; exact runInstruction_ne_fault _ f
  · rw [step_of_request hr ha]; exact offerRequest_ne_fault _ k f
  · rw [step_of_reset hr ha]; exact toOutcome_ne_fault _ f

/-! ## The statements -/

/-- Settles O5: the decoder rejects the opcode byte by name, and the rejected fetch is the step's refusal. -/
theorem stepRefusesOpcodeNotShown : Obligations.StepRefusesOpcodeNotShown := by
  intro s op hr he hop hshown
  have h0 : fetch s (s.pc + BitVec.ofNat 16 0) = .ok op := (congrArg (fetch s) (BitVec.add_zero s.pc)).trans hop
  exact step_of_fetch_error hr he (decodeFrom_not_shown h0 ((opcodeMap_eq_none_iff op).mpr hshown))

/-- Settles O7: the fetches at PC have every byte of the list, so the decoder answers from them what it answers from the list. -/
theorem stepRunsDecodedInstruction : Obligations.StepRunsDecodedInstruction := by
  intro s bs i hr he hbytes hdec
  have hfetch : fetchInstr s = .ok i :=
    decodeFrom_extends (fun k b hk => hbytes k b ((byteOfList_ok ..).mp hk)) _ _ i hdec
  rw [step_of_executesNext hr he]
  exact runInstruction_of_ok hfetch

/-- Settles O8: the decoder asks for the byte after the list, and the refusal of that fetch is the step's. -/
theorem stepRefusesFetchOutsideCode : Obligations.StepRefusesFetchOutsideCode := by
  intro s bs hr he hbytes hdec
  have next (e : Refusal) (hnext : fetch s (s.pc + BitVec.ofNat 16 bs.length) = .error e) : step s = .refused e :=
    step_of_fetch_error hr he (decodeFrom_truncated bs hbytes hnext hdec)
  exact ⟨fun hout => next _ (fetch_of_outside hout), next⟩

/-- Settles O9: at `HALT_PC` the step is the fault, and elsewhere it is an operation that has none. -/
theorem stepFaultsExactlyAtHaltPc : Obligations.StepFaultsExactlyAtHaltPc := by
  intro s f
  by_cases hr : s.platform.haltPc = some s.pc
  · rw [step_of_halted hr]
    cases f
    simp [hr]
  · exact ⟨fun h => absurd h (step_ne_fault_of_running hr f), fun h => absurd h.2 hr⟩

end Sys2Proof.Machine

/-! # Memory (`20_memory.md`) -/

namespace Sys2Proof.Machine

/-! ## A word and its two bytes as numbers (R43) -/

theorem toNat_hiByte (v : Word) : (hiByte v).toNat = v.toNat / 256 := by
  rw [hiByte, BitVec.extractLsb'_toNat, Nat.shiftRight_eq_div_pow]
  exact Nat.mod_eq_of_lt (by omega)

theorem toNat_loByte (v : Word) : (loByte v).toNat = v.toNat % 256 := by
  rw [loByte, BitVec.extractLsb'_toNat]
  rfl

theorem toNat_wordOf (hi lo : Byte) : (wordOf hi lo).toNat = 256 * hi.toNat + lo.toNat := by
  rw [wordOf, BitVec.toNat_append, ← Nat.shiftLeft_add_eq_or_of_lt lo.isLt, Nat.shiftLeft_eq, Nat.mul_comm]

theorem eq_wordOf_iff (w : Word) (hi lo : Byte) : w = wordOf hi lo ↔ w.toNat = 256 * hi.toNat + lo.toNat := by
  rw [← toNat_wordOf, BitVec.toNat_inj]

theorem ne_add_one (a : Word) : a ≠ a + 1#16 := by bv_omega

/-! ## Accesses to an address, by what the map says of it -/

theorem isDevice_iff (p : Platform) (a : Word) : isDevice p a = true ↔ kindAt p a = .device := by
  simp [isDevice]

theorem storable_of_device {s : State} {a : Word} (hk : kindAt s.platform a = .device)
    (hc : inCode s.platform a = false) : storable s a = true := by
  simp [storable, hk, hc]

theorem memAfter_of_device {p : Platform} (m : List Host.Cell) {a : Word} (v : Byte) (hk : kindAt p a = .device) :
    memAfter p m a v = m := by
  rw [memAfter, hk]

theorem valueAt_of_absent {s : State} {a : Word} (hk : kindAt s.platform a = .absent) :
    valueAt s a = .error (.unmappedAccess a) := by
  rw [valueAt, hk]

theorem valueAt_of_unwritten {s : State} {a : Word} (hk : kindAt s.platform a = .plain ∨ kindAt s.platform a = .readOnly)
    (hb : s.byteAt a = none) : valueAt s a = .error (.unwrittenMemory a) := by
  obtain hk | hk := hk <;> simp [valueAt, hk, hb]

theorem readByte_of_written {s : State} {a : Word} {b : Byte}
    (hk : kindAt s.platform a = .plain ∨ kindAt s.platform a = .readOnly) (hb : s.byteAt a = some b) :
    readByte s a = .ok (b, s) := by
  refine (readByte_eq_ok ..).mpr ⟨(valueAt_eq_ok ..).mpr (.inr ⟨hk, hb⟩), ?_⟩
  have hd : isDevice s.platform a = false := by obtain hk | hk := hk <;> simp [isDevice, hk]
  rw [readEvents_of_not_device _ _ hd, List.nil_append]

theorem readByte_of_device {s : State} {a : Word} (hk : kindAt s.platform a = .device) :
    readByte s a = .ok (Config.deviceValue s.io a, { s with io := .read a :: s.io }) := by
  have hd := (isDevice_iff ..).mpr hk
  refine (readByte_eq_ok ..).mpr ⟨(valueAt_eq_ok ..).mpr (.inl ⟨hd, rfl⟩), ?_⟩
  rw [readEvents_of_device _ _ hd, List.singleton_append]

theorem writeByte_of_not_writable {s : State} {a : Word} (v : Byte)
    (hk : kindAt s.platform a = .absent ∨ kindAt s.platform a = .readOnly) :
    writeByte s a v = .error (.unmappedAccess a) := by
  obtain hk | hk := hk <;> rw [writeByte, hk]

theorem writeByte_of_device {s : State} {a : Word} (v : Byte) (hk : kindAt s.platform a = .device)
    (hc : inCode s.platform a = false) : writeByte s a v = .ok { s with io := .write a v :: s.io } := by
  refine (writeByte_eq_ok ..).mpr ⟨storable_of_device hk hc, ?_⟩
  rw [memAfter_of_device _ _ hk, writeEvents_of_device _ _ _ ((isDevice_iff ..).mpr hk), List.singleton_append]

/-! ## Two bytes as two accesses -/

theorem readWord_eq_ok_iff_readByte (s t : State) (a w : Word) :
    readWord s a = .ok (w, t) ↔
      ∃ hi lo u, readByte s a = .ok (hi, u) ∧ readByte u (a + 1#16) = .ok (lo, t) ∧ w = wordOf hi lo := by
  simp only [readWord, bind_eq_ok, pure_eq_ok, Prod.exists, Prod.mk.injEq]
  constructor
  · rintro ⟨hi, u, h1, lo, _, h2, rfl, rfl⟩; exact ⟨hi, lo, u, h1, h2, rfl⟩
  · rintro ⟨hi, lo, u, h1, h2, rfl⟩; exact ⟨hi, u, h1, lo, t, h2, rfl, rfl⟩

theorem writeWord_of_error {s : State} {a v : Word} {e : Refusal} (h : writeByte s a (hiByte v) = .error e) :
    writeWord s a v = .error e := by
  rw [writeWord, h, error_bind]

theorem writeWord_of_ok {s u : State} {a v : Word} (h : writeByte s a (hiByte v) = .ok u) :
    writeWord s a v = writeByte u (a + 1#16) (loByte v) := by
  rw [writeWord, h, ok_bind]

/-! ## The statements -/

/-- Settles O14: where the byte is storable the write answers, and it is the write of that one byte. -/
theorem byteWriteChangesOneByte : Obligations.ByteWriteChangesOneByte := by
  intro s a v h
  have hw := (writeByte_eq_ok s _ a v).mpr ⟨h, rfl⟩
  exact ⟨_, hw, writeByte_byteWritten _ _ _ _ hw, rfl⟩

/-- Settles O15: one refusal per kind of address, and the read of a byte of memory by whether it has a value. -/
theorem byteAccessRefusals : Obligations.ByteAccessRefusals := by
  intro s a v
  refine ⟨fun hk => ⟨?_, writeByte_of_not_writable v (.inl hk)⟩, fun hk => writeByte_of_not_writable v (.inr hk),
    fun hk => ?_, fun hk hc => ?_⟩
  · exact (readByte_eq_error ..).mpr (valueAt_of_absent hk)
  · cases hb : s.byteAt a with
    | some b => exact readByte_of_written hk hb
    | none => exact (readByte_eq_error ..).mpr (valueAt_of_unwritten hk hb)
  · obtain hk | hk := hk <;> exact writeByte_storeToCode v (by simp [hk]) (by simp [hk]) hc

/-- Settles O16: a device holds no byte of memory, so the access adds its entry and changes nothing else. -/
theorem deviceAccessIsNoted : Obligations.DeviceAccessIsNoted :=
  fun _ _ v hk => ⟨readByte_of_device hk, writeByte_of_device v hk⟩

/-- Settles O17: the second byte is written after the first and at another address, so both read back. -/
theorem wordAccessIsBigEndian : Obligations.WordAccessIsBigEndian := by
  intro s a v h1 h2 hd1 hd2
  have hwrite := (writeWord_eq_ok s _ a v).mpr ⟨h1, h2, rfl⟩
  generalize ht : ({ s with mem := _, io := _ } : State) = t at hwrite
  have hne := ne_add_one a
  have hev : wordWriteEvents s.platform a (hiByte v) (loByte v) = [] := by
    simp [wordWriteEvents, writeEvents_of_not_device _ _ _ hd1, writeEvents_of_not_device _ _ _ hd2]
  have rd (b : Word) : t.byteAt b =
      if b = a + 1#16 then some (loByte v) else if b = a then some (hiByte v) else s.byteAt b := by
    simp [← ht, State.byteAt, read_memAfter, hd1, hd2]
  have hp : t.platform = s.platform := by rw [← ht]
  have hhi : t.byteAt a = some (hiByte v) := by rw [rd, if_neg hne, if_pos rfl]
  have hlo : t.byteAt (a + 1#16) = some (loByte v) := by rw [rd, if_pos rfl]
  refine ⟨t, hiByte v, loByte v, hwrite, toNat_hiByte v, toNat_loByte v, hhi, hlo,
    fun b hb hb' => by rw [rd, if_neg hb', if_neg hb], ?_, ?_⟩
  · refine (readWord_eq_ok_iff_readByte ..).mpr ⟨hiByte v, loByte v, t, ?_, ?_, (wordOf_hi_lo v).symm⟩
    · exact readByte_of_storable t a _ ((storable_congr s t a hp).trans h1) (hp ▸ hd1) hhi
    · exact readByte_of_storable t _ _ ((storable_congr s t _ hp).trans h2) (hp ▸ hd2) hlo
  · rw [← ht, hev, List.nil_append]

/-- Settles O18: both two-byte operations are the sequence of their one-byte accesses. -/
theorem wordAccessIsTwoByteAccesses : Obligations.WordAccessIsTwoByteAccesses := by
  intro s a v
  refine ⟨fun w t => ?_, ⟨hiByte v, loByte v, toNat_hiByte v, toNat_loByte v, fun e => writeWord_of_error,
    fun u => writeWord_of_ok, fun hk hk' hc hc' => ?_⟩, fun hk hk' => ?_⟩
  · simp only [← eq_wordOf_iff]
    exact readWord_eq_ok_iff_readByte s t a w
  · rw [writeWord_of_ok (writeByte_of_device _ hk hc)]
    exact writeByte_of_device (s := { s with io := _ }) _ hk' hc'
  · exact ⟨_, (readWord_eq_ok_iff_readByte ..).mpr ⟨_, _, _, readByte_of_device hk,
      readByte_of_device (s := { s with io := _ }) hk', rfl⟩, toNat_wordOf ..⟩

end Sys2Proof.Machine

/-! # What no instruction sees: the CCR and `CPU_VARIANT` (R2, R27) -/

namespace Sys2Proof.Machine

/-! ## A part of the state that no access and no address mode reads -/

/-- Two operations in a row answer what two others answer, changed by `G`, if each answers what its other one answers, changed. -/
theorem bind_eq_map_bind {ε α β γ δ : Type} {F : α → γ} {G : β → δ} {x : Except ε α} {x' : Except ε γ}
    {g : α → Except ε β} {g' : γ → Except ε δ} (hx : x' = x.map F) (hg : ∀ r, g' (F r) = (g r).map G) :
    (x' >>= g') = (x >>= g).map G := by
  subst hx
  cases x with
  | ok r => exact hg r
  | error e => rfl

/-- `F` changes only what no byte access and no address mode depends on or writes. -/
structure Unseen (F : State → State) : Prop where
  a : ∀ s, (F s).a = s.a
  b : ∀ s, (F s).b = s.b
  x : ∀ s, (F s).x = s.x
  y : ∀ s, (F s).y = s.y
  sp : ∀ s, (F s).sp = s.sp
  pc : ∀ s, (F s).pc = s.pc
  setAuto : ∀ s r v, setAuto (F s) r v = F (setAuto s r v)
  readByte : ∀ s p, readByte (F s) p = (readByte s p).map (Prod.map id F)
  writeByte : ∀ s p v, writeByte (F s) p v = (writeByte s p v).map F

theorem unseen_withCcr (c : Byte) : Unseen (fun s => withCcr s c) where
  a _ := rfl
  b _ := rfl
  x _ := rfl
  y _ := rfl
  sp _ := rfl
  pc _ := rfl
  setAuto _ r _ := by cases r <;> rfl
  readByte s p := by
    have hv : valueAt (withCcr s c) p = valueAt s p := rfl
    unfold Machine.readByte
    rw [hv]
    cases valueAt s p <;> rfl
  writeByte s p v := by
    unfold Machine.writeByte
    rw [withCcr_platform]
    cases kindAt s.platform p <;> cases inCode s.platform p <;> rfl

theorem unseen_withVariant (v : CpuVariant) : Unseen (fun s => withVariant s v) where
  a _ := rfl
  b _ := rfl
  x _ := rfl
  y _ := rfl
  sp _ := rfl
  pc _ := rfl
  setAuto _ r _ := by cases r <;> rfl
  readByte s p := by
    have hv : valueAt (withVariant s v) p = valueAt s p := rfl
    unfold Machine.readByte
    rw [hv]
    cases valueAt s p <;> rfl
  writeByte s p b := by
    have hk : kindAt (withVariant s v).platform p = kindAt s.platform p := rfl
    have hc : inCode (withVariant s v).platform p = inCode s.platform p := rfl
    have hm : memAfter (withVariant s v).platform s.mem p b = memAfter s.platform s.mem p b := rfl
    have he : writeEvents (withVariant s v).platform p b = writeEvents s.platform p b := rfl
    unfold Machine.writeByte
    rw [hk, hc, withVariant_mem, withVariant_io, hm, he]
    cases kindAt s.platform p <;> cases inCode s.platform p <;> rfl

namespace Unseen
variable {F : State → State} (hF : Unseen F)
include hF

theorem readWord (s : State) (p : Word) : readWord (F s) p = (readWord s p).map (Prod.map id F) :=
  bind_eq_map_bind (hF.readByte s p) fun r => bind_eq_map_bind (hF.readByte r.2 _) fun _ => rfl

theorem writeWord (s : State) (p v : Word) : writeWord (F s) p v = (writeWord s p v).map F :=
  bind_eq_map_bind (hF.writeByte s p _) fun r => hF.writeByte r _ _

theorem baseValue (s : State) (r : BaseReg) (len : Nat) : baseValue (F s) r len = baseValue s r len := by
  cases r with
  | x => exact hF.x s
  | y => exact hF.y s
  | sp => exact hF.sp s
  | pc => exact congrArg (· + BitVec.ofNat 16 len) (hF.pc s)

theorem autoValue (s : State) (r : AutoReg) : autoValue (F s) r = autoValue s r := by
  cases r with
  | x => exact hF.x s
  | y => exact hF.y s
  | sp => exact hF.sp s

theorem d (s : State) : (F s).d = s.d := by
  rw [State.d, hF.a, hF.b, State.d]

theorem accOffset (s : State) (k : Acc) : accOffset (F s) k = accOffset s k := by
  cases k with
  | a => exact congrArg (BitVec.setWidth 16) (hF.a s)
  | b => exact congrArg (BitVec.setWidth 16) (hF.b s)

theorem effectiveAddress (s : State) (o : Operand) :
    effectiveAddress (F s) o = (effectiveAddress s o).map (Prod.map id F) := by
  match o with
  | .dir _ | .ext _ => rfl
  | .idx f =>
    cases f with
    | auto r w n =>
      cases w <;> simp only [Machine.effectiveAddress, indexedAddress, hF.autoValue, hF.setAuto] <;> rfl
    | indD r | ind16 r n =>
      simp only [Machine.effectiveAddress, indexedAddress, hF.baseValue, hF.d, hF.readWord]
    | _ =>
      simp only [Machine.effectiveAddress, indexedAddress, hF.baseValue, hF.d, hF.accOffset]
      rfl

theorem memoryOperand (s : State) (o : Operand) :
    memoryOperand (F s) o = (memoryOperand s o).map (Prod.map id F) :=
  bind_eq_map_bind (hF.effectiveAddress s o) fun r => hF.readByte r.2 r.1

theorem effectiveAddress_ok {s s1 : State} {o : Operand} {ea : Word} (h : Machine.effectiveAddress s o = .ok (ea, s1)) :
    Machine.effectiveAddress (F s) o = .ok (ea, F s1) := by
  rw [hF.effectiveAddress, h]
  rfl

theorem readByte_ok {s t : State} {p : Word} {v : Byte} (h : Machine.readByte s p = .ok (v, t)) :
    Machine.readByte (F s) p = .ok (v, F t) := by
  rw [hF.readByte, h]
  rfl

end Unseen

/-! ## What an instruction makes of the CCR is a rule of R28's table -/

/-- The bit that a table entry gives, from the bit before and the bit that the instruction computes. -/
def entryBit (e : CcrEntry) (before computed : Bool) : Bool :=
  match e with
  | .kept => before
  | .cleared => false
  | .set => true
  | .computed => computed

theorem entryHolds_entryBit (e : CcrEntry) (before computed : Bool) : entryHolds e before (entryBit e before computed) := by
  cases e <;> trivial

/-- The old bit counts only where the entry keeps it. -/
theorem entryBit_of_before (e : CcrEntry) (before before' computed : Bool) :
    entryBit e before computed = if e = .kept then before else entryBit e before' computed := by
  cases e <;> rfl

/-- The new CCR follows the instruction's line of R28's table, and its computed bits do not depend on the old CCR. -/
def FollowsTable (m : Mnemonic) (f : Byte → Byte) : Prop :=
  ∀ c k, ccrBit (f c) k = entryBit (ccrTable m k) (ccrBit c k) (ccrBit (f 0#8) k)

theorem moveFlags_followsTable {m : Mnemonic} (hm : m = .ldaa ∨ m = .staa ∨ m = .stab) (r : Byte) :
    FollowsTable m (moveFlags · r) := by
  intro c k
  obtain rfl | rfl | rfl := hm <;> cases k <;> simp [ccrBit_moveFlags, entryBit, ccrTable]

theorem addFlags_followsTable (a m r : Byte) : FollowsTable .adda (addFlags · a m r) := by
  intro c k
  cases k <;> simp [ccrBit_addFlags, entryBit, ccrTable]

theorem incFlags_followsTable (old r : Byte) : FollowsTable .inca (incFlags · old r) := by
  intro c k
  cases k <;> simp [ccrBit_incFlags, entryBit, ccrTable]

theorem decFlags_followsTable (old r : Byte) : FollowsTable .decb (decFlags · old r) := by
  intro c k
  cases k <;> simp [ccrBit_decFlags, entryBit, ccrTable]

theorem clrFlags_followsTable : FollowsTable .clrb clrFlags := by
  intro c k
  cases k <;> simp [ccrBit_clrFlags, entryBit, ccrTable]

theorem lsrFlags_followsTable (old r : Byte) : FollowsTable .lsra (lsrFlags · old r) := by
  intro c k
  cases k <;> simp [ccrBit_lsrFlags, entryBit, ccrTable]

theorem asrFlags_followsTable (old r : Byte) : FollowsTable .asra (asrFlags · old r) := by
  intro c k
  cases k <;> simp [ccrBit_asrFlags, entryBit, ccrTable]

/-- SWI sets I and keeps every other bit. -/
theorem setI_followsTable : FollowsTable .swi (ccrPut · .i true) := by
  intro c k
  cases k <;> simp [entryBit, ccrTable]

/-! ## An instruction under another CCR -/

section
variable {s t : State} {o : Operand}

theorem loadA_withCcr (h : loadA o s = .next t) :
    ∃ m, ∀ c, loadA o (withCcr s c) = .next (withCcr t (moveFlags c m)) := by
  obtain ⟨ea, s1, m, s2, hea, hrd, rfl⟩ := (loadA_eq_next ..).mp h
  exact ⟨m, fun c => (loadA_eq_next ..).mpr
    ⟨ea, _, m, _, (unseen_withCcr c).effectiveAddress_ok hea, (unseen_withCcr c).readByte_ok hrd, rfl⟩⟩

theorem addA_withCcr (h : addA o s = .next t) :
    ∃ a m r, ∀ c, addA o (withCcr s c) = .next (withCcr t (addFlags c a m r)) := by
  obtain ⟨ea, s1, m, s2, hea, hrd, rfl⟩ := (addA_eq_next ..).mp h
  exact ⟨s2.a, m, s2.a + m, fun c => (addA_eq_next ..).mpr
    ⟨ea, _, m, _, (unseen_withCcr c).effectiveAddress_ok hea, (unseen_withCcr c).readByte_ok hrd, rfl⟩⟩

theorem storeAcc_withCcr {v : Byte} (h : storeAcc v o s = .next t) (c : Byte) :
    storeAcc v o (withCcr s c) = .next (withCcr t (moveFlags c v)) := by
  obtain ⟨ea, s1, hea, hst, rfl⟩ := (storeAcc_eq_next ..).mp h
  exact (storeAcc_eq_next ..).mpr ⟨ea, _, (unseen_withCcr c).effectiveAddress_ok hea, hst, rfl⟩

end

/-- Under every CCR an instruction but SWI does the same, and makes of the CCR what its line of the table says. -/
theorem exec_withCcr {i : Instr} {s t : State} (hi : i ≠ .swi) (h : exec i s = .next t) :
    ∃ f, FollowsTable i.mnemonic f ∧ ∀ c, exec i (withCcr s c) = .next (withCcr t (f c)) := by
  rcases shape i with ⟨v, rfl⟩ | ⟨v, rfl⟩ | ⟨o, hm, -, hx⟩ | ⟨o, hm, -, hx⟩ | ⟨o, hm, -, hx⟩ | ⟨o, hm, -, hx⟩ |
    rfl | rfl | rfl | rfl | rfl | rfl
  case ldaaImm => cases h; exact ⟨_, moveFlags_followsTable (.inl rfl) v, fun _ => rfl⟩
  case addaImm => cases h; exact ⟨_, addFlags_followsTable s.a v (s.a + v), fun _ => rfl⟩
  case load =>
    obtain ⟨m, hrun⟩ := loadA_withCcr ((hx s).symm.trans h)
    exact ⟨_, moveFlags_followsTable (.inl hm) m, fun c => (hx _).trans (hrun c)⟩
  case add =>
    obtain ⟨a, m, r, hrun⟩ := addA_withCcr ((hx s).symm.trans h)
    exact ⟨_, hm ▸ addFlags_followsTable a m r, fun c => (hx _).trans (hrun c)⟩
  case storeA =>
    have hrun := storeAcc_withCcr ((hx s).symm.trans h)
    exact ⟨_, moveFlags_followsTable (.inr (.inl hm)) s.a, fun c => (hx _).trans (hrun c)⟩
  case storeB =>
    have hrun := storeAcc_withCcr ((hx s).symm.trans h)
    exact ⟨_, moveFlags_followsTable (.inr (.inr hm)) s.b, fun c => (hx _).trans (hrun c)⟩
  case inca => cases h; exact ⟨_, incFlags_followsTable s.a (s.a + 1#8), fun _ => rfl⟩
  case clrb => cases h; exact ⟨_, clrFlags_followsTable, fun _ => rfl⟩
  case decb => cases h; exact ⟨_, decFlags_followsTable s.b (s.b - 1#8), fun _ => rfl⟩
  case lsra => cases h; exact ⟨_, lsrFlags_followsTable s.a (shiftRightLogical s.a), fun _ => rfl⟩
  case asra => cases h; exact ⟨_, asrFlags_followsTable s.a (shiftRightArithmetic s.a), fun _ => rfl⟩
  case swi => exact absurd rfl hi

/-- The CCR after any instruction, SWI too, is made of the old one by the instruction's line of the table. -/
theorem exec_ccr {i : Instr} {s t : State} (h : exec i s = .next t) :
    ∃ f, FollowsTable i.mnemonic f ∧ t.ccr = f s.ccr := by
  by_cases hi : i = .swi
  · subst hi
    obtain ⟨-, target, w, hread, rfl⟩ := (execSwi_eq_next ..).mp h
    obtain ⟨-, -, -, -, -, rfl⟩ := (readWord_eq_ok ..).mp hread
    exact ⟨_, setI_followsTable, rfl⟩
  · obtain ⟨f, hf, hrun⟩ := exec_withCcr hi h
    have ht : t = withCcr t (f s.ccr) := Host.Outcome.next.inj (h.symm.trans (hrun s.ccr))
    exact ⟨f, hf, congrArg State.ccr ht⟩

/-! ## The next address -/

/-- Reading an operand or reaching an address leaves PC, so the instruction ends at its own next address. -/
theorem exec_pc {i : Instr} {s t : State} (hi : i ≠ .swi) (h : exec i s = .next t) : t.pc = nextPc s i.length := by
  rcases shape i with ⟨v, rfl⟩ | ⟨v, rfl⟩ | ⟨o, -, hl, hx⟩ | ⟨o, -, hl, hx⟩ | ⟨o, -, hl, hx⟩ | ⟨o, -, hl, hx⟩ |
    rfl | rfl | rfl | rfl | rfl | rfl
  case load =>
    obtain ⟨ea, s1, m, s2, hea, hrd, rfl⟩ := (loadA_eq_next ..).mp ((hx s).symm.trans h)
    obtain ⟨-, hpc, -⟩ := operandRead_fields hea hrd
    rw [finishLoadA_pc, nextPc, hpc, hl, nextPc]
  case add =>
    obtain ⟨ea, s1, m, s2, hea, hrd, rfl⟩ := (addA_eq_next ..).mp ((hx s).symm.trans h)
    obtain ⟨-, hpc, -⟩ := operandRead_fields hea hrd
    rw [finishAddA_pc, nextPc, hpc, hl, nextPc]
  case storeA | storeB =>
    obtain ⟨ea, s1, hea, -, rfl⟩ := (storeAcc_eq_next ..).mp ((hx s).symm.trans h)
    obtain ⟨-, -, hpc, -⟩ := effectiveAddress_fields _ _ _ _ hea
    rw [stored_pc, nextPc, hpc, hl, nextPc]
  case swi => exact absurd rfl hi
  all_goals cases h; rfl

theorem toNat_nextPc (s : State) (len : Nat) : (nextPc s len).toNat = (s.pc.toNat + len) % 65536 := by
  rw [nextPc, BitVec.toNat_add, BitVec.toNat_ofNat, Nat.add_mod_mod]

/-! ## The statements over all instructions -/

/-- Settles O34: every instruction makes the CCR by its line of the table. -/
theorem conditionCodesFollowTable : Obligations.ConditionCodesFollowTable := by
  intro i s t k h
  obtain ⟨f, hf, hccr⟩ := exec_ccr h
  rw [flag_eq, flag_eq, hccr, hf]
  exact entryHolds_entryBit ..

/-- Settles O35: the next address is PC plus the length in 16 bits. -/
theorem onlySwiTransfersControl : Obligations.OnlySwiTransfersControl := by
  intro i s t hi h
  rw [exec_pc hi h, toNat_nextPc]

/-- Settles O36: one rule makes the CCR from either old CCR, and it looks at the old bit only where the table keeps it. -/
theorem conditionCodesAreNoInput : Obligations.ConditionCodesAreNoInput := by
  intro i s t c hi h
  obtain ⟨f, hf, hrun⟩ := exec_withCcr hi h
  have ht : t = withCcr t (f s.ccr) := Host.Outcome.next.inj (h.symm.trans (hrun s.ccr))
  refine ⟨f c, hrun c, fun k => ?_⟩
  rw [ht, flag_eq, withCcr_ccr, hf, hf s.ccr]
  exact entryBit_of_before ..

/-! ## `CPU_VARIANT` -/

theorem toOutcome_map (F : State → State) (r : Except Refusal State) :
    toOutcome (r.map F) = mapNext F (toOutcome r) := by
  cases r <;> rfl

section
variable (s : State) (v : CpuVariant)

theorem pushWord_withVariant (w : Word) : pushWord (withVariant s v) w = (pushWord s w).map (withVariant · v) :=
  (unseen_withVariant v).writeWord { s with sp := s.sp - 2#16 } _ w

theorem pushByte_withVariant (b : Byte) : pushByte (withVariant s v) b = (pushByte s b).map (withVariant · v) :=
  (unseen_withVariant v).writeByte { s with sp := s.sp - 1#16 } _ b

theorem pushFrame_withVariant (rtn : Word) :
    pushFrame (withVariant s v) rtn = (pushFrame s rtn).map (withVariant · v) :=
  bind_eq_map_bind (pushWord_withVariant s v rtn) fun s1 =>
    bind_eq_map_bind (pushWord_withVariant s1 v s.y) fun s2 =>
    bind_eq_map_bind (pushWord_withVariant s2 v s.x) fun s3 =>
    bind_eq_map_bind (pushWord_withVariant s3 v (wordOf s.b s.a)) fun s4 => pushByte_withVariant s4 v s.ccr

theorem takeException_withVariant (rtn vec : Word) :
    takeException (withVariant s v) rtn vec = (takeException s rtn vec).map (withVariant · v) :=
  bind_eq_map_bind (pushFrame_withVariant s v rtn) fun s1 =>
    bind_eq_map_bind ((unseen_withVariant v).readWord { s1 with ccr := ccrPut s1.ccr .i true } vec) fun _ => rfl

theorem takeInterrupt_withVariant (q : IrqVector) :
    takeInterrupt (withVariant s v) q = (takeInterrupt s q).map (withVariant · v) := by
  refine bind_eq_map_bind (takeException_withVariant s v s.pc q.vector) fun t => ?_
  cases q.maskedBy <;> rfl

theorem takeReset_withVariant : takeReset (withVariant s v) = (takeReset s).map (withVariant · v) :=
  bind_eq_map_bind ((unseen_withVariant v).readWord (resetRegisters s) s.platform.resetVector) fun _ => rfl

theorem loadA_withVariant (o : Operand) : loadA o (withVariant s v) = mapNext (withVariant · v) (loadA o s) :=
  (congrArg toOutcome (bind_eq_map_bind ((unseen_withVariant v).memoryOperand s o) fun _ => rfl)).trans (toOutcome_map ..)

theorem addA_withVariant (o : Operand) : addA o (withVariant s v) = mapNext (withVariant · v) (addA o s) :=
  (congrArg toOutcome (bind_eq_map_bind ((unseen_withVariant v).memoryOperand s o) fun _ => rfl)).trans (toOutcome_map ..)

theorem storeAcc_withVariant (b : Byte) (o : Operand) :
    storeAcc b o (withVariant s v) = mapNext (withVariant · v) (storeAcc b o s) :=
  (congrArg toOutcome (bind_eq_map_bind ((unseen_withVariant v).effectiveAddress s o) fun r =>
    bind_eq_map_bind ((unseen_withVariant v).writeByte r.2 r.1 b) fun _ => rfl)).trans (toOutcome_map ..)

theorem exec_withVariant (i : Instr) : exec i (withVariant s v) = mapNext (withVariant · v) (exec i s) := by
  rcases shape i with ⟨m, rfl⟩ | ⟨m, rfl⟩ | ⟨o, -, -, hx⟩ | ⟨o, -, -, hx⟩ | ⟨o, -, -, hx⟩ | ⟨o, -, -, hx⟩ |
    rfl | rfl | rfl | rfl | rfl | rfl
  case load => rw [hx, hx]; exact loadA_withVariant s v o
  case add => rw [hx, hx]; exact addA_withVariant s v o
  case storeA | storeB => rw [hx, hx]; exact storeAcc_withVariant s v _ o
  case swi => exact (congrArg toOutcome (takeException_withVariant s v _ _)).trans (toOutcome_map ..)
  all_goals rfl

theorem runInstruction_withVariant :
    runInstruction (withVariant s v) = mapNext (withVariant · v) (runInstruction s) := by
  have hf : fetchInstr (withVariant s v) = fetchInstr s := rfl
  cases h : fetchInstr s with
  | ok i => rw [runInstruction_of_ok h, runInstruction_of_ok (hf.trans h), exec_withVariant]
  | error e => rw [runInstruction_of_error h, runInstruction_of_error (hf.trans h)]; rfl

theorem offerRequest_withVariant (k : Nat) :
    offerRequest (withVariant s v) k = mapNext (withVariant · v) (offerRequest s k) := by
  obtain ⟨q, hq, hal⟩ | hno := request_cases s k
  · rw [offerRequest_of_taken hq hal, offerRequest_of_taken (s := withVariant s v) hq hal, takeInterrupt_withVariant,
      toOutcome_map]
  · rw [offerRequest_of_not_taken hno, offerRequest_of_not_taken (s := withVariant s v) hno, runInstruction_withVariant]

end

/-- Settles O10: each thing that can be due at the boundary does the same under the other variant. -/
theorem variantChangesNoStep : Obligations.VariantChangesNoStep := by
  intro s v
  by_cases hr : running s
  · have hr' : running (withVariant s v) := hr
    obtain he | ⟨k, rest, ha⟩ | ⟨rest, ha⟩ := agenda_cases s
    · rw [step_of_executesNext hr he, step_of_executesNext hr' he]
      exact runInstruction_withVariant { s with agenda := s.agenda.tail } v
    · rw [step_of_request hr ha, step_of_request hr' ha]
      exact offerRequest_withVariant { s with agenda := rest } v k
    · rw [step_of_reset hr ha, step_of_reset hr' ha, ← toOutcome_map]
      exact congrArg toOutcome (takeReset_withVariant { s with agenda := rest } v)
  · have hh : s.platform.haltPc = some s.pc := not_not.mp hr
    rw [step_of_halted hh, step_of_halted (s := withVariant s v) hh]
    rfl

end Sys2Proof.Machine

/-! # What every step keeps -/

namespace Sys2Proof.Machine

/-! ## What an operation that is no reset keeps of memory, the map and the history -/

/-- From `s` to `t` no parameter changes, the history only grows, and only by accesses to devices, memory stays canonical and the
bytes of the code stay as they are. -/
structure Upholds (s t : State) : Prop where
  platform : t.platform = s.platform
  history : ∃ new, t.io = new ++ s.io ∧ ((∀ a, isDevice s.platform a = false) → new = [])
  canonical : Memory.wf s.mem = true → Memory.wf t.mem = true
  code : ∀ a, inCode s.platform a = true → t.byteAt a = s.byteAt a

theorem Upholds.trans {s t u : State} (h : Upholds s t) (h' : Upholds t u) : Upholds s u where
  platform := h'.platform.trans h.platform
  history := by
    obtain ⟨new, hio, hplain⟩ := h.history
    obtain ⟨new', hio', hplain'⟩ := h'.history
    rw [h.platform] at hplain'
    refine ⟨new' ++ new, by rw [hio', hio, List.append_assoc], fun hp => ?_⟩
    rw [hplain hp, hplain' hp, List.append_nil]
  canonical hwf := h'.canonical (h.canonical hwf)
  code a ha := (h'.code a (h.platform ▸ ha)).trans (h.code a ha)

/-- What writes no byte upholds all of it, if it adds no entry but of devices. -/
theorem Upholds.of_mem_eq {s t : State} (hp : t.platform = s.platform) (hm : t.mem = s.mem)
    (hio : ∃ new, t.io = new ++ s.io ∧ ((∀ a, isDevice s.platform a = false) → new = [])) : Upholds s t where
  platform := hp
  history := hio
  canonical hwf := hm ▸ hwf
  code a _ := by rw [State.byteAt, hm, State.byteAt]

theorem Upholds.of_same {s t : State} (hp : t.platform = s.platform) (hm : t.mem = s.mem) (hio : t.io = s.io) :
    Upholds s t :=
  .of_mem_eq hp hm ⟨[], hio, fun _ => rfl⟩

/-! ## The accesses -/

theorem wordReadEvents_of_not_device {p : Platform} {a : Word} (h : isDevice p a = false)
    (h' : isDevice p (a + 1#16) = false) : wordReadEvents p a = [] := by
  rw [wordReadEvents, readEvents_of_not_device _ _ h, readEvents_of_not_device _ _ h', List.nil_append]

theorem wordWriteEvents_of_not_device {p : Platform} {a : Word} (hi lo : Byte) (h : isDevice p a = false)
    (h' : isDevice p (a + 1#16) = false) : wordWriteEvents p a hi lo = [] := by
  rw [wordWriteEvents, writeEvents_of_not_device _ _ _ h, writeEvents_of_not_device _ _ _ h', List.nil_append]

theorem pointerEvents_of_plain {s : State} (o : Operand) (h : ∀ a, isDevice s.platform a = false) :
    pointerEvents s o = [] := by
  unfold pointerEvents
  split
  · exact wordReadEvents_of_not_device (h _) (h _)
  · exact wordReadEvents_of_not_device (h _) (h _)
  · rfl

theorem frameEvents_of_plain {s : State} (rtn : Word) (h : ∀ a, isDevice s.platform a = false) :
    frameEvents s rtn = [] := by
  simp only [frameEvents, writeEvents_of_not_device _ _ _ (h _), wordWriteEvents_of_not_device _ _ (h _) (h _),
    List.append_nil]

theorem readByte_upholds {s t : State} {a : Word} {v : Byte} (h : readByte s a = .ok (v, t)) : Upholds s t := by
  obtain ⟨-, rfl⟩ := (readByte_eq_ok ..).mp h
  exact .of_mem_eq rfl rfl ⟨_, rfl, fun hp => readEvents_of_not_device _ _ (hp a)⟩

theorem readWord_upholds {s t : State} {a v : Word} (h : readWord s a = .ok (v, t)) : Upholds s t := by
  obtain ⟨_, _, -, -, -, rfl⟩ := (readWord_eq_ok ..).mp h
  exact .of_mem_eq rfl rfl ⟨_, rfl, fun hp => wordReadEvents_of_not_device (hp _) (hp _)⟩

theorem effectiveAddress_upholds {s s1 : State} {o : Operand} {ea : Word} (h : effectiveAddress s o = .ok (ea, s1)) :
    Upholds s s1 := by
  obtain ⟨-, -, -, -, hm, hp, -, -⟩ := effectiveAddress_fields _ _ _ _ h
  obtain ⟨-, -, hio⟩ := effectiveAddress_state _ _ _ _ h
  exact .of_mem_eq hp hm ⟨_, hio, pointerEvents_of_plain o⟩

/-- A store is admitted only outside the code, so it leaves the code's bytes (R55). -/
theorem stored_upholds {s : State} {ea : Word} (v : Byte) (len : Nat) (h : storable s ea = true) :
    Upholds s (stored v ea len s) where
  platform := rfl
  history := ⟨_, rfl, fun hp => writeEvents_of_not_device _ _ _ (hp ea)⟩
  canonical := memAfter_wf _ _ _ _
  code a ha := by
    obtain ⟨-, -, hcode⟩ := (storable_iff ..).mp h
    have hne : a ≠ ea := by rintro rfl; exact absurd ha (by simp [hcode])
    rw [State.byteAt, stored_mem, read_memAfter, if_neg hne, State.byteAt]

/-- Where the stack has room, no byte of the code is among the nine below SP. -/
theorem belowStackFree_of_inCode {s : State} {a : Word} (hroom : stackRoom s = true) (ha : inCode s.platform a = true) :
    belowStackFree s a = true := by
  rw [belowStackFree, List.all_eq_true]
  intro k hk
  obtain ⟨-, -, hcode⟩ := (storable_iff ..).mp (List.all_eq_true.mp hroom k hk)
  rw [bne_iff_ne]
  rintro rfl
  exact absurd ha (by simp [hcode])

theorem framed_upholds {s : State} (rtn : Word) (hroom : stackRoom s = true) : Upholds s (framed s rtn) where
  platform := rfl
  history := ⟨_, rfl, frameEvents_of_plain rtn⟩
  canonical := framedMemory_wf s rtn
  code _ ha := byteAt_framed_of_free rtn (belowStackFree_of_inCode hroom ha)

/-! ## The instructions and the exception entries -/

theorem takeException_upholds {s t : State} {rtn vec : Word} (h : takeException s rtn vec = .ok t) : Upholds s t := by
  obtain ⟨hroom, target, w, hread, rfl⟩ := (takeException_eq_ok ..).mp h
  exact (framed_upholds rtn hroom).trans ((readWord_upholds hread).trans (.of_same rfl rfl rfl))

theorem takeInterrupt_upholds {s t : State} {v : IrqVector} (h : takeInterrupt s v = .ok t) : Upholds s t := by
  obtain ⟨u, hu, rfl⟩ := (takeInterrupt_eq_ok ..).mp h
  refine (takeException_upholds hu).trans ?_
  cases v.maskedBy <;> exact .of_same rfl rfl rfl

theorem exec_upholds {i : Instr} {s t : State} (h : exec i s = .next t) : Upholds s t := by
  rcases shape i with ⟨v, rfl⟩ | ⟨v, rfl⟩ | ⟨o, -, -, hx⟩ | ⟨o, -, -, hx⟩ | ⟨o, -, -, hx⟩ | ⟨o, -, -, hx⟩ |
    rfl | rfl | rfl | rfl | rfl | rfl
  case load =>
    obtain ⟨ea, s1, m, s2, hea, hrd, rfl⟩ := (loadA_eq_next ..).mp ((hx s).symm.trans h)
    exact (effectiveAddress_upholds hea).trans ((readByte_upholds hrd).trans (.of_same rfl rfl rfl))
  case add =>
    obtain ⟨ea, s1, m, s2, hea, hrd, rfl⟩ := (addA_eq_next ..).mp ((hx s).symm.trans h)
    exact (effectiveAddress_upholds hea).trans ((readByte_upholds hrd).trans (.of_same rfl rfl rfl))
  case storeA | storeB =>
    obtain ⟨ea, s1, hea, hst, rfl⟩ := (storeAcc_eq_next ..).mp ((hx s).symm.trans h)
    exact (effectiveAddress_upholds hea).trans (stored_upholds _ _ hst)
  case swi => exact takeException_upholds ((toOutcome_eq_next ..).mp h)
  all_goals cases h; exact .of_same rfl rfl rfl

/-- Every step is no reset and upholds all of it, or it is the reset sequence. -/
theorem step_upholds_or_reset {s t : State} (h : step s = .next t) :
    Upholds s t ∨ ∃ rest, s.agenda = .reset :: rest ∧ takeReset { s with agenda := rest } = .ok t := by
  have setAgenda (l : List Boundary) : Upholds s { s with agenda := l } := .of_same rfl rfl rfl
  obtain ⟨i, -, hx⟩ | ⟨k, rest, v, -, -, -, hx⟩ | hreset := step_eq_next s t h
  · exact .inl ((setAgenda _).trans (exec_upholds hx))
  · exact .inl ((setAgenda rest).trans (takeInterrupt_upholds hx))
  · exact .inr hreset

theorem step_upholds {s t : State} (hr : noResetDue s) (h : step s = .next t) : Upholds s t := by
  obtain hu | ⟨rest, ha, -⟩ := step_upholds_or_reset h
  · exact hu
  · exact absurd ha (hr rest)

/-! ## The reset sequence -/

/-- The reset sequence is `resetRegisters`, then a read that upholds what it finds. -/
theorem takeReset_upholds {s t : State} (h : takeReset s = .ok t) :
    Upholds (resetRegisters s) t ∧ t.ccr = (resetRegisters s).ccr := by
  obtain ⟨target, w, hread, rfl⟩ := (takeReset_eq_ok ..).mp h
  refine ⟨(readWord_upholds hread).trans (.of_same rfl rfl rfl), ?_⟩
  obtain ⟨_, _, -, -, -, rfl⟩ := (readWord_eq_ok ..).mp hread
  rfl

theorem resetRegisters_flags (s : State) :
    (resetRegisters s).flag .s = true ∧ (resetRegisters s).flag .x = true ∧ (resetRegisters s).flag .i = true := by
  simp only [flag_eq, resetRegisters_ccr, resetCcr_bits, and_self]

theorem resetRegisters_wf {s : State} (h : Memory.wf s.mem = true) : Memory.wf (resetRegisters s).mem = true :=
  Memory.filter_wf _ _ h

/-! ## The masks -/

theorem ccrTable_x (m : Mnemonic) : ccrTable m .x = .kept := by
  cases m <;> rfl

theorem ccrTable_i (m : Mnemonic) : ccrTable m .i = .kept ∨ ccrTable m .i = .set := by
  cases m <;> simp [ccrTable]

/-- R28's table has no entry that clears X or I, so no instruction opens a mask. -/
theorem exec_masksShut {i : Instr} {s t : State} (hs : masksShut s) (h : exec i s = .next t) : masksShut t := by
  obtain ⟨hi, hx⟩ := hs
  have hi' := conditionCodesFollowTable i s t .i h
  have hx' := conditionCodesFollowTable i s t .x h
  rw [ccrTable_x] at hx'
  refine ⟨?_, hx'.trans hx⟩
  obtain hk | hk := ccrTable_i i.mnemonic <;> rw [hk] at hi'
  · exact hi'.trans hi
  · exact hi'

theorem requestAllowed_of_masksShut {s : State} (h : masksShut s) (v : IrqVector) : requestAllowed s v = false := by
  obtain ⟨hi, hx⟩ := h
  cases hm : v.maskedBy <;> simp [requestAllowed, hm, hi, hx]

/-! ## The statements -/

/-- Settles O19: only `resetRegisters` is outside what `Upholds` covers, and it drops entries. -/
theorem stepKeepsMemoryCanonical : Obligations.StepKeepsMemoryCanonical := by
  intro s t hwf h
  obtain hu | ⟨rest, -, hreset⟩ := step_upholds_or_reset h
  · exact hu.canonical hwf
  · obtain ⟨hu, -⟩ := takeReset_upholds hreset
    exact hu.canonical (resetRegisters_wf (s := { s with agenda := rest }) hwf)

/-- Settles O23: every store and every frame lies outside the code. -/
theorem stepKeepsCodeBytes : Obligations.StepKeepsCodeBytes :=
  fun _ _ a hr ha h => (step_upholds hr h).code a ha

/-- Settles O24: no instruction opens a mask, no request passes one that is shut, and a reset shuts both. -/
theorem stepKeepsMasksShut : Obligations.StepKeepsMasksShut := by
  intro s t hs h
  obtain ⟨i, -, hx⟩ | ⟨k, rest, v, -, -, hal, -⟩ | ⟨rest, -, hreset⟩ := step_eq_next s t h
  · exact exec_masksShut (s := { s with agenda := s.agenda.tail }) hs hx
  · exact absurd hal (by simp [requestAllowed_of_masksShut hs])
  · obtain ⟨-, hccr⟩ := takeReset_upholds hreset
    obtain ⟨-, hx, hi⟩ := resetRegisters_flags { s with agenda := rest }
    rw [flag_eq, ← hccr] at hx hi
    exact ⟨hi, hx⟩

/-- Settles O20: `resetRegisters` changes no parameter, and all else upholds them. -/
theorem stepKeepsPlatform : Obligations.StepKeepsPlatform := by
  intro s t h
  obtain hu | ⟨rest, -, hreset⟩ := step_upholds_or_reset h
  · exact hu.platform
  · obtain ⟨hu, -⟩ := takeReset_upholds hreset
    exact hu.platform

/-- Settles O21: a reset adds its own entry before those of its vector read. -/
theorem stepExtendsDeviceHistory : Obligations.StepExtendsDeviceHistory := by
  intro s t h
  obtain hu | ⟨rest, -, hreset⟩ := step_upholds_or_reset h
  · obtain ⟨new, hio, -⟩ := hu.history
    exact ⟨new, hio⟩
  · obtain ⟨hu, -⟩ := takeReset_upholds hreset
    obtain ⟨new, hio, -⟩ := hu.history
    exact ⟨new ++ [.reset], by rw [hio, List.append_assoc]; rfl⟩

/-- Settles O22: the entries are of devices, and the map has none. -/
theorem plainMapHasNoSideEffects : Obligations.PlainMapHasNoSideEffects := by
  intro s t hplain hr h
  obtain ⟨new, hio, hnil⟩ := (step_upholds hr h).history
  rw [hio, hnil hplain, List.nil_append]

/-- Settles O11: the CCR of `State.reset` is `$D0`, bits 7, 6 and 4. -/
theorem resetMasksInterrupts : Obligations.ResetMasksInterrupts := by
  refine ⟨?_, ?_, ?_, rfl, rfl⟩ <;> rfl

/-- Settles O12: the empty list is canonical. -/
theorem resetMemoryIsCanonical : Obligations.ResetMemoryIsCanonical := rfl

end Sys2Proof.Machine

/-! # Reset and interrupts (`60_exceptions.md`, `70_reset_and_hazards.md`) -/

namespace Sys2Proof.Machine

/-! ## The reset sequence is a vector read in the state that reset leaves (R190) -/

theorem takeReset_of_ok {s w : State} {target : Word}
    (h : readWord (resetRegisters s) s.platform.resetVector = .ok (target, w)) :
    takeReset s = .ok { w with pc := target } :=
  (takeReset_eq_ok ..).mpr ⟨target, w, h, rfl⟩

theorem takeReset_of_error {s : State} {e : Refusal}
    (h : readWord (resetRegisters s) s.platform.resetVector = .error e) : takeReset s = .error e := by
  show (readWord (resetRegisters s) s.platform.resetVector >>= _) = _
  rw [h, error_bind]

/-! ## The exception entry of a request (R163, R166) -/

/-- What the entry of the member `v` adds to the exception sequence: X set, if X masks the member. -/
def maskAfterEntry (v : IrqVector) (t : State) : State :=
  match v.maskedBy with
  | .maskI => t
  | .maskX => { t with ccr := ccrPut t.ccr .x true }

theorem takeInterrupt_of_ok {s t : State} {v : IrqVector} (h : takeException s s.pc v.vector = .ok t) :
    takeInterrupt s v = .ok (maskAfterEntry v t) :=
  (takeInterrupt_eq_ok ..).mpr ⟨t, h, rfl⟩

theorem takeInterrupt_of_error {s : State} {v : IrqVector} {e : Refusal} (h : takeException s s.pc v.vector = .error e) :
    takeInterrupt s v = .error e := by
  rw [takeInterrupt, h, error_bind]

theorem takeException_of_no_room {s : State} (rtn vec : Word) (h : stackRoom s = false) :
    ∃ e, takeException s rtn vec = .error e := by
  cases ht : takeException s rtn vec with
  | error e => exact ⟨e, rfl⟩
  | ok t =>
    obtain ⟨hroom, -⟩ := (takeException_eq_ok ..).mp ht
    exact absurd hroom (by simp [h])

theorem takeException_of_read_error {s : State} {rtn vec : Word} {e : Refusal} (hroom : stackRoom s = true)
    (h : readWord (framed s rtn) vec = .error e) : takeException s rtn vec = .error e := by
  rw [takeException_of_room s rtn vec hroom, h]
  rfl

theorem maskAfterEntry_eq (v : IrqVector) (t : State) :
    maskAfterEntry v t = { t with ccr := (maskAfterEntry v t).ccr } := by
  unfold maskAfterEntry
  cases v.maskedBy <;> rfl

theorem maskAfterEntry_flag (v : IrqVector) (t : State) (k : CcrBit) :
    (maskAfterEntry v t).flag k = if v.maskedBy = .maskX ∧ k = .x then true else t.flag k := by
  unfold maskAfterEntry
  cases v.maskedBy
  · simp
  · simp [flag_eq, ccrBit_ccrPut]

theorem requestAllowed_of_clear {s : State} {v : IrqVector} (hi : v.maskedBy = .maskI → s.flag .i = false)
    (hx : v.maskedBy = .maskX → s.flag .x = false) : requestAllowed s v = true := by
  cases hm : v.maskedBy with
  | maskI => simp [requestAllowed, hm, hi hm]
  | maskX => simp [requestAllowed, hm, hx hm]

theorem requestAllowed_of_set {s : State} {v : IrqVector}
    (h : (v.maskedBy = .maskI ∧ s.flag .i = true) ∨ (v.maskedBy = .maskX ∧ s.flag .x = true)) :
    requestAllowed s v = false := by
  obtain ⟨hm, hf⟩ | ⟨hm, hf⟩ := h <;> simp [requestAllowed, hm, hf]

theorem step_of_taken_request {s : State} {k : Nat} {rest : List Boundary} {v : IrqVector} (hr : running s)
    (ha : s.agenda = .request k :: rest) (hv : s.platform.irqVectors[k]? = some v) (hal : requestAllowed s v = true) :
    step s = toOutcome (takeInterrupt { s with agenda := rest } v) :=
  (step_of_request hr ha).trans (offerRequest_of_taken (s := { s with agenda := rest }) hv hal)

/-- Where the frame lies depends on SP and memory only. -/
theorem frameStored_of_eq {s t u : State} {rtn : Word} (h : frameStored s u rtn) (hsp : t.sp = u.sp) (hmem : t.mem = u.mem) :
    frameStored s t rtn := by
  have hb (a : Word) : t.byteAt a = u.byteAt a := by rw [State.byteAt, hmem, State.byteAt]
  simp only [frameStored, hsp, hb]
  exact h

/-! ## Reading the frame back (R172) -/

theorem readWord_of_bytes {t : State} {p q v : Word} (hq : p + 1#16 = q) (hhi : readByte t p = .ok (hiByte v, t))
    (hlo : readByte t q = .ok (loByte v, t)) : readWord t p = .ok (v, t) :=
  (readWord_eq_ok_iff_readByte ..).mpr ⟨_, _, t, hhi, hq ▸ hlo, (wordOf_hi_lo v).symm⟩

/-- A byte of a frame without side effects reads as it was stacked, and the read changes nothing. -/
theorem readByte_of_stacked {s t : State} {p : Word} {v : Byte} {j : Nat} (hroom : stackRoom s = true)
    (hplain : stackIsPlain s = true) (hp : t.platform = s.platform) (hb : t.byteAt p = stacked s p v) (hj : j < 9)
    (hpj : p = s.sp - BitVec.ofNat 16 (j + 1)) : readByte t p = .ok (v, t) := by
  have hst : storable s p = true := hpj ▸ List.all_eq_true.mp hroom j (List.mem_range.mpr hj)
  have hnd : isDevice s.platform p = false := by
    simpa [← hpj] using List.all_eq_true.mp hplain j (List.mem_range.mpr hj)
  refine readByte_of_storable t p v ((storable_congr s t p hp).trans hst) (hp ▸ hnd) ?_
  rw [hb, stacked, hnd]
  rfl

/-! ## The statements -/

/-- Settles O13: `resetRegisters` is the state that the vector is read in, and a vector that the map keeps reads there as before. -/
theorem resetEventLoadsVector : Obligations.ResetEventLoadsVector := by
  intro s rest hr ha
  have hstep := step_of_reset hr ha
  obtain ⟨hs, hx, hi⟩ := resetRegisters_flags { s with agenda := rest }
  have hbytes := resetRegisters_byteAt { s with agenda := rest }
  refine ⟨⟨resetRegisters { s with agenda := rest }, hs, hx, hi, hbytes, rfl, rfl, rfl, fun target w hread => ?_,
    fun e hread => ?_⟩, fun target hread hk hk' => ?_⟩
  · rw [hstep, takeReset_of_ok hread, toOutcome_ok]
  · rw [hstep, takeReset_of_error hread, toOutcome_error]
  · have hread' := readWord_congr s (resetRegisters { s with agenda := rest }) _ target rfl
      ((hbytes _).trans (if_pos hk)) ((hbytes _).trans (if_pos hk')) hread
    exact ⟨_, hstep.trans (congrArg toOutcome (takeReset_of_ok hread')), rfl, hs, hx, hi, hbytes, rfl, rfl, rfl⟩

/-- Settles O25: a request that is not taken leaves the instruction at PC to execute. -/
theorem maskedRequestIsNotTaken : Obligations.MaskedRequestIsNotTaken := by
  intro s k rest ha hmasked
  by_cases hr : running s
  · have hno : offerRequest { s with agenda := rest } k = runInstruction { s with agenda := rest } :=
      offerRequest_of_not_taken fun v hv => requestAllowed_of_set (hmasked v hv)
    rw [step_of_request hr ha, hno]
    exact (step_of_executesNext (s := { s with agenda := .execute :: rest }) hr (.inr ⟨rest, rfl⟩)).symm
  · have hh : s.platform.haltPc = some s.pc := not_not.mp hr
    rw [step_of_halted hh, step_of_halted (s := { s with agenda := .execute :: rest }) hh]

/-- Settles O27: the entry is the exception sequence, which needs room, stacks, and then takes PC from the vector. -/
theorem unmaskedRequestStacksAndTakesVector : Obligations.UnmaskedRequestStacksAndTakesVector := by
  intro s k rest v hr ha hv hi hx
  have hstep := step_of_taken_request hr ha hv (requestAllowed_of_clear hi hx)
  refine ⟨fun hroom => ?_, fun hroom => ?_⟩
  · obtain ⟨e, he⟩ := takeException_of_no_room (s := { s with agenda := rest }) s.pc v.vector hroom
    exact ⟨e, by rw [hstep, takeInterrupt_of_error he, toOutcome_error]⟩
  · obtain ⟨hflag, hkeeps⟩ := framed_flags { s with agenda := rest } s.pc
    refine ⟨framed { s with agenda := rest } s.pc, frameStored_framed s _ _ rfl rfl, hflag, hkeeps, rfl,
      fun target w hread => ?_, fun e hread => ?_⟩
    · have hrun := takeInterrupt_of_ok (s := { s with agenda := rest }) (v := v)
        ((takeException_eq_ok ..).mpr ⟨hroom, target, w, hread, rfl⟩)
      obtain ⟨_, _, -, -, -, hw⟩ := (readWord_eq_ok ..).mp hread
      have bit (j : CcrBit) : ({ w with pc := target } : State).flag j = if j = .i then true else s.flag j := by
        rw [hw]; exact ccrBit_ccrPut ..
      have hpc : (maskAfterEntry v { w with pc := target }).pc = target := congrArg State.pc (maskAfterEntry_eq v _)
      refine ⟨maskAfterEntry v { w with pc := target }, by rw [hstep, hrun, toOutcome_ok], hpc, ?_, fun hm => ?_,
        fun hm => ?_, fun j hj => ?_, by rw [hpc]; exact maskAfterEntry_eq v _⟩
      · simp [maskAfterEntry_flag, bit]
      · simp [maskAfterEntry_flag, hm]
      · simp [maskAfterEntry_flag, hm, bit]
      · have hne : j ≠ .i ∧ j ≠ .x := by constructor <;> rintro rfl <;> simp at hj
        simp [maskAfterEntry_flag, bit, hne]
    · have herr := takeException_of_read_error (s := { s with agenda := rest }) hroom hread
      rw [hstep, takeInterrupt_of_error herr, toOutcome_error]

/-- Settles O26: a vector outside the frame and without side effects reads in the stacked state as it does before. -/
theorem unmaskedRequestEntersHandler : Obligations.UnmaskedRequestEntersHandler := by
  intro s k rest v target hr ha hv hi hx hroom ⟨hread, hfree, hfree'⟩
  obtain ⟨-, hentry⟩ := unmaskedRequestStacksAndTakesVector s k rest v hr ha hv hi hx
  obtain ⟨u, hframe, -, -, hu, hnext, -⟩ := hentry hroom
  obtain ⟨-, -, -, -, -, -, -, -, -, -, hkept⟩ := id hframe
  have hp : u.platform = s.platform := by rw [hu]
  obtain ⟨t, hstep, hpc, hti, hmx, hmi, hkeeps, ht⟩ :=
    hnext target u (readWord_congr s u _ target hp (hkept _ hfree) (hkept _ hfree') hread)
  have hsp : t.sp = u.sp := by rw [ht]
  have hmem : t.mem = u.mem := by rw [ht]
  refine ⟨t, hstep, frameStored_of_eq hframe hsp hmem, hpc, hti, hmx, hmi, hkeeps, ?_⟩
  rw [hsp, hmem]
  calc t = { u with pc := t.pc, ccr := t.ccr } := ht
    _ = _ := by rw [hu]

/-- Settles O28: the nine bytes read back as they were stacked, and X is stacked as it stays. -/
theorem returnUndoesExceptionEntry : Obligations.ReturnUndoesExceptionEntry := by
  intro s t rtn vec hplain h
  obtain ⟨hroom, target, w, hread, rfl⟩ := (takeException_eq_ok ..).mp h
  obtain ⟨_, _, -, -, -, rfl⟩ := (readWord_eq_ok ..).mp hread
  generalize ht : ({ framed s rtn with io := _, pc := _ } : State) = t
  have hp : t.platform = s.platform := by rw [← ht]; rfl
  obtain ⟨hsp, h0, h1, h2, h3, h4, h5, h6, h7, h8, -⟩ := frameStored_framed s rtn t (by rw [← ht]; rfl) (by rw [← ht]; rfl)
  have rd {p : Word} {v : Byte} (j : Nat) (hb : t.byteAt p = stacked s p v) (hj : j < 9)
      (hpj : p = s.sp - BitVec.ofNat 16 (j + 1)) := readByte_of_stacked hroom hplain hp hb hj hpj
  have hx : readWord t (t.sp + 3#16) = .ok (s.x, t) :=
    readWord_of_bytes (by bv_omega) (rd 5 h3 (by omega) (by bv_omega)) (rd 4 h4 (by omega) (by bv_omega))
  have hy : readWord t (t.sp + 5#16) = .ok (s.y, t) :=
    readWord_of_bytes (by bv_omega) (rd 3 h5 (by omega) (by bv_omega)) (rd 2 h6 (by omega) (by bv_omega))
  have hpc : readWord t (t.sp + 7#16) = .ok (rtn, t) :=
    readWord_of_bytes (by bv_omega) (rd 1 h7 (by omega) (by bv_omega)) (rd 0 h8 (by omega) (by bv_omega))
  refine (returnFromException_eq_ok ..).mpr ⟨s.ccr, s.b, s.a, s.x, s.y, rtn, t, t, t, t, t, t, rd 8 h0 (by omega) hsp,
    rd 7 h1 (by omega) (by bv_omega), rd 6 h2 (by omega) (by bv_omega), hx, hy, hpc, ?_⟩
  have hflag : t.flag .x = ccrBit s.ccr .x := by rw [← ht]; exact ccrBit_ccrPut_other _ _ _ _ (by decide)
  have hback : t.sp + 9#16 = s.sp := by rw [hsp]; exact BitVec.sub_add_cancel ..
  rw [hflag, Bool.and_self, ccrPut_self, hback, ← ht]
  rfl

/-! ## SWI (`43_swi.md`) -/

/-- Settles O30: the ready vector reads in the stacked state as it does before. -/
theorem swiCompletesThroughReadyVector : Obligations.SwiCompletesThroughReadyVector := by
  intro s target hroom ⟨hread, hfree, hfree'⟩
  have hrun := (execSwi_eq_next ..).mpr ⟨hroom, target, _, readWord_framed s (nextPc s 1) _ target hread hfree hfree', rfl⟩
  obtain ⟨hi, -⟩ := framed_flags s (nextPc s 1)
  exact ⟨_, hrun, rfl, frameStored_framed s _ _ rfl rfl, hi, rfl, rfl, rfl, rfl, ⟨rfl, rfl, rfl⟩, rfl⟩

/-- Settles O32: the vector read changes nothing, so the state it is read in has the memory of the next state. -/
theorem swiVectorSeesStackedBytes : Obligations.SwiVectorSeesStackedBytes := by
  intro s t hd hd' h
  obtain ⟨-, target, w, hread, rfl⟩ := (execSwi_eq_next ..).mp h
  obtain rfl := readWord_state_of_not_device (s := framed s (nextPc s 1)) hd hd' hread
  exact readWord_congr (framed s (nextPc s 1)) _ _ _ rfl rfl rfl hread

/-- Settles O33: the next state is the stacked one with the entries of the vector read and another PC. -/
theorem swiFrame : Obligations.SwiFrame := by
  intro s t h
  obtain ⟨-, target, w, hread, rfl⟩ := (execSwi_eq_next ..).mp h
  obtain ⟨_, _, -, -, -, rfl⟩ := (readWord_eq_ok ..).mp hread
  obtain ⟨hi, hkeeps⟩ := framed_flags s (nextPc s 1)
  exact ⟨rfl, rfl, rfl, rfl, hi, hkeeps, ⟨rfl, rfl, rfl⟩, frameStored_framed s _ _ rfl rfl, rfl⟩

end Sys2Proof.Machine

/-! # What the instructions leave unchanged (`40_load_store.md`, `41_arithmetic.md`, `42_shift.md`) -/

namespace Sys2Proof.Machine

/-! ## Reading an operand, and storing -/

/-- The index registers after an operand depend on X, Y and SP only. -/
theorem indexRegistersAfter_of_eq {o : Operand} {s t u : State} (h : indexRegistersAfter o s u) (hx : t.x = u.x)
    (hy : t.y = u.y) (hsp : t.sp = u.sp) : indexRegistersAfter o s t := by
  have hauto (r : AutoReg) : autoValue t r = autoValue u r := by
    cases r
    · exact hx
    · exact hy
    · exact hsp
  unfold indexRegistersAfter at *
  split
  · simpa only [hauto] using h
  · simpa only [sameIndexRegisters, hx, hy, hsp] using h

/-- What LDAA and ADDA of an operand in memory leave, whatever they make of A, the CCR and PC. -/
theorem operandRead_frame {s s1 s2 t : State} {o : Operand} {ea : Word} {m : Byte}
    (hea : effectiveAddress s o = .ok (ea, s1)) (hrd : readByte s1 ea = .ok (m, s2))
    (ht : t = { s2 with a := t.a, ccr := t.ccr, pc := t.pc }) :
    t.b = s.b ∧ indexRegistersAfter o s t ∧ sameMemory s t ∧ sameSurroundings s t ∧
      t.io = readEvents s.platform ea ++ (pointerEvents s o ++ s.io) := by
  obtain ⟨-, hb, -, -, hmem, hp, hag, hfree⟩ := effectiveAddress_fields _ _ _ _ hea
  obtain ⟨-, hidx, hio⟩ := effectiveAddress_state _ _ _ _ hea
  obtain ⟨-, rfl⟩ := (readByte_eq_ok ..).mp hrd
  rw [ht]
  exact ⟨hb, indexRegistersAfter_of_eq hidx rfl rfl rfl, fun a => congrArg (Memory.read · a.toNat) hmem,
    ⟨hp, hag, hfree⟩, by simp only [hp, hio]⟩

/-- An operand has one effective address. -/
theorem effectiveAddress_unique {s s1 s1' : State} {o : Operand} {ea ea' : Word}
    (h : effectiveAddress s o = .ok (ea, s1)) (h' : effectiveAddress s o = .ok (ea', s1')) : ea' = ea ∧ s1' = s1 := by
  cases h.symm.trans h'
  exact ⟨rfl, rfl⟩

/-- What STAA and STAB leave. -/
theorem storeAcc_frame {v : Byte} {s t : State} {o : Operand} (h : storeAcc v o s = .next t) :
    t.a = s.a ∧ t.b = s.b ∧ indexRegistersAfter o s t ∧ keeps s t [.s, .x, .h, .i, .c] ∧ sameSurroundings s t ∧
    ∀ (ea : Word) (s1 : State), effectiveAddress s o = .ok (ea, s1) →
      (∀ a : Word, a ≠ ea → t.byteAt a = s.byteAt a) ∧
      t.io = writeEvents s.platform ea v ++ (pointerEvents s o ++ s.io) := by
  obtain ⟨ea, s1, hea, hst, rfl⟩ := (storeAcc_eq_next ..).mp h
  obtain ⟨ha, hb, -, hccr, hmem, hp, hag, hfree⟩ := effectiveAddress_fields _ _ _ _ hea
  obtain ⟨-, hidx, hio⟩ := effectiveAddress_state _ _ _ _ hea
  obtain ⟨-, -, -, hk⟩ := flags_after_move (s := s) (t := stored v ea o.length s1) (m := v) (by rw [stored_ccr, hccr])
  refine ⟨ha, hb, indexRegistersAfter_of_eq hidx rfl rfl rfl, hk, ⟨hp, hag, hfree⟩, fun ea' s1' hea' => ?_⟩
  obtain ⟨rfl, -⟩ := effectiveAddress_unique hea hea'
  refine ⟨fun a hne => ?_, ?_⟩
  · rw [State.byteAt, stored_mem, read_memAfter, if_neg hne, hmem, State.byteAt]
  · rw [stored_io, hp, hio]

/-! ## Refused accesses (D18) -/

section
variable {s s1 : State} {o : Operand} {ea : Word} {e : Refusal}

theorem loadA_of_address_error (h : effectiveAddress s o = .error e) : loadA o s = .refused e := by
  simp only [loadA, memoryOperand, h, error_bind, toOutcome_error]

theorem addA_of_address_error (h : effectiveAddress s o = .error e) : addA o s = .refused e := by
  simp only [addA, memoryOperand, h, error_bind, toOutcome_error]

theorem storeAcc_of_address_error (v : Byte) (h : effectiveAddress s o = .error e) : storeAcc v o s = .refused e := by
  simp only [storeAcc, h, error_bind, toOutcome_error]

theorem loadA_of_read_error (hea : effectiveAddress s o = .ok (ea, s1)) (h : readByte s1 ea = .error e) :
    loadA o s = .refused e := by
  simp only [loadA, memoryOperand, hea, ok_bind, h, error_bind, toOutcome_error]

theorem addA_of_read_error (hea : effectiveAddress s o = .ok (ea, s1)) (h : readByte s1 ea = .error e) :
    addA o s = .refused e := by
  simp only [addA, memoryOperand, hea, ok_bind, h, error_bind, toOutcome_error]

theorem storeAcc_of_write_error {v : Byte} (hea : effectiveAddress s o = .ok (ea, s1))
    (h : writeByte s1 ea v = .error e) : storeAcc v o s = .refused e := by
  simp only [storeAcc, hea, ok_bind, h, error_bind, toOutcome_error]

end

/-- A byte that admits no store refuses every value for the same reason. -/
theorem writeByte_of_not_storable {s : State} {a : Word} (h : storable s a = false) :
    ∃ e, ∀ v, writeByte s a v = .error e := by
  by_cases hk : kindAt s.platform a = .absent ∨ kindAt s.platform a = .readOnly
  · exact ⟨_, fun v => writeByte_of_not_writable v hk⟩
  · obtain ⟨habs, hro⟩ := not_or.mp hk
    refine ⟨_, fun v => writeByte_storeToCode v habs hro ?_⟩
    simpa [storable, habs, hro] using h

/-! ## The bits of a byte as digits of its number -/

theorem getLsbD_eq_decide (x : Byte) (k : Nat) : x.getLsbD k = decide (x.toNat / 2 ^ k % 2 = 1) := by
  rw [← BitVec.testBit_toNat, Nat.testBit_eq_decide_div_mod_eq]

theorem toInt_byte (x : Byte) : x.toInt = if 2 * x.toNat < 256 then (x.toNat : Int) else (x.toNat : Int) - 256 :=
  BitVec.toInt_eq_toNat_cond x

/-- ADDA's formula for C is the carry out of bit 7 (R120, R121). -/
theorem addCarry_iff (a m : Byte) : addCarry a m (a + m) = true ↔ 256 ≤ a.toNat + m.toNat := by
  have ha := a.isLt
  have hm := m.isLt
  simp only [addCarry, getLsbD_eq_decide, BitVec.toNat_add, Bool.or_eq_true, Bool.and_eq_true, Bool.not_eq_true',
    decide_eq_true_eq, decide_eq_false_iff_not]
  omega

/-- ADDA's formula for H is the carry out of bit 3 (R120, R121). -/
theorem addHalfCarry_iff (a m : Byte) : addHalfCarry a m (a + m) = true ↔ 16 ≤ a.toNat % 16 + m.toNat % 16 := by
  simp only [addHalfCarry, getLsbD_eq_decide, BitVec.toNat_add, Bool.or_eq_true, Bool.and_eq_true, Bool.not_eq_true',
    decide_eq_true_eq, decide_eq_false_iff_not]
  omega

/-- ADDA's formula for V is that the signed sum does not fit in a byte (R120, R121). -/
theorem addOverflow_iff (a m : Byte) :
    addOverflow a m (a + m) = true ↔ a.toInt + m.toInt < -128 ∨ 127 < a.toInt + m.toInt := by
  have ha := a.isLt
  have hm := m.isLt
  simp only [addOverflow, getLsbD_eq_decide, BitVec.toNat_add, Bool.or_eq_true, Bool.and_eq_true, Bool.not_eq_true',
    decide_eq_true_eq, decide_eq_false_iff_not, toInt_byte]
  split <;> split <;> omega

/-- Both shifts put a bit above half of the old value. -/
theorem toNat_shiftedUnder (top : BitVec 1) (a : Byte) :
    (top ++ a.extractLsb' 1 7).toNat = 128 * top.toNat + a.toNat / 2 := by
  have hhalf : (a.extractLsb' 1 7).toNat = a.toNat / 2 := by
    rw [BitVec.extractLsb'_toNat, Nat.shiftRight_eq_div_pow]
    exact Nat.mod_eq_of_lt (by omega)
  rw [BitVec.toNat_append, ← Nat.shiftLeft_add_eq_or_of_lt (BitVec.isLt _), Nat.shiftLeft_eq, Nat.mul_comm, hhalf]

theorem toNat_bit0 (a : Byte) : (a.getLsbD 0).toNat = a.toNat % 2 := by
  rw [← BitVec.testBit_toNat, Nat.testBit_zero]
  obtain h | h := Nat.mod_two_eq_zero_or_one a.toNat <;> simp [h]

/-- LSRA halves the unsigned value. -/
theorem toNat_shiftRightLogical (a : Byte) : a.toNat = 2 * (shiftRightLogical a).toNat + (a.getLsbD 0).toNat := by
  rw [shiftRightLogical, toNat_shiftedUnder, toNat_bit0, BitVec.toNat_zero]
  omega

/-- ASRA halves the two's complement value: the sign is kept. -/
theorem toInt_shiftRightArithmetic (a : Byte) :
    a.toInt = 2 * (shiftRightArithmetic a).toInt + ((a.getLsbD 0).toNat : Int) := by
  have hsign : (a.extractLsb' 7 1).toNat = a.toNat / 128 := by
    rw [BitVec.extractLsb'_toNat, Nat.shiftRight_eq_div_pow]
    exact Nat.mod_eq_of_lt (by omega)
  rw [toInt_byte, toInt_byte, shiftRightArithmetic, toNat_shiftedUnder, hsign, toNat_bit0]
  split <;> split <;> omega

/-! ## The statements -/

/-- Settles O40: LDAA ends in `finishLoadA`, which names A, the CCR and PC only. -/
theorem ldaaFrame : Obligations.LdaaFrame := by
  refine ⟨fun s t m h => ?_, fun s t o h => ?_⟩
  · cases h
    obtain ⟨-, -, -, hk⟩ := flags_after_move (s := s) (finishLoadA_ccr m s 2)
    exact ⟨rfl, ⟨rfl, rfl, rfl⟩, fun _ => rfl, hk, ⟨rfl, rfl, rfl⟩, rfl⟩
  · obtain ⟨ea, s1, m, s2, hea, hrd, rfl⟩ := (loadA_eq_next ..).mp ((exec_ldaaMem o s).symm.trans h)
    obtain ⟨hb, hidx, hmem, hsur, hio⟩ := operandRead_frame (t := finishLoadA m s2 o.length) hea hrd rfl
    obtain ⟨-, -, hccr⟩ := operandRead_fields hea hrd
    obtain ⟨-, -, -, hk⟩ := flags_after_move (s := s) (t := finishLoadA m s2 o.length) (m := m)
      (by rw [finishLoadA_ccr, hccr])
    refine ⟨hb, hidx, hmem, hk, hsur, fun ea' s1' hea' => ?_⟩
    obtain ⟨rfl, -⟩ := effectiveAddress_unique hea hea'
    exact hio

/-- Settles O45: ADDA ends in `finishAddA`, which names A, the CCR and PC only. -/
theorem addaFrame : Obligations.AddaFrame := by
  refine ⟨fun s t m h => ?_, fun s t o h => ?_⟩
  · cases h
    obtain ⟨-, -, -, -, -, hk⟩ := flags_after_add (s := s) (finishAddA_ccr m s 2)
    exact ⟨rfl, ⟨rfl, rfl, rfl⟩, fun _ => rfl, hk, ⟨rfl, rfl, rfl⟩, rfl⟩
  · obtain ⟨ea, s1, m, s2, hea, hrd, rfl⟩ := (addA_eq_next ..).mp ((exec_addaMem o s).symm.trans h)
    obtain ⟨hb, hidx, hmem, hsur, hio⟩ := operandRead_frame (t := finishAddA m s2 o.length) hea hrd rfl
    obtain ⟨-, -, hccr⟩ := operandRead_fields hea hrd
    obtain ⟨-, -, -, -, -, hk⟩ := flags_after_add (s := s) (t := finishAddA m s2 o.length)
      (by rw [finishAddA_ccr, hccr])
    refine ⟨hb, hidx, hmem, hk, hsur, fun ea' s1' hea' => ?_⟩
    obtain ⟨rfl, -⟩ := effectiveAddress_unique hea hea'
    exact hio

/-- Settles O41: both stores are the common store of an accumulator. -/
theorem storeFrame : Obligations.StoreFrame :=
  fun s _ o => ⟨fun h => storeAcc_frame ((exec_staaMem o s).symm.trans h),
    fun h => storeAcc_frame ((exec_stabMem o s).symm.trans h)⟩

/-- Settles O42: each of the four stops at the first access that is refused. -/
theorem refusedAccessStopsInstruction : Obligations.RefusedAccessStopsInstruction := by
  refine ⟨fun s o e h => ?_, fun s s1 o ea e hea => ?_⟩
  · rw [exec_ldaaMem, exec_addaMem, exec_staaMem, exec_stabMem]
    exact ⟨loadA_of_address_error h, addA_of_address_error h, storeAcc_of_address_error _ h, storeAcc_of_address_error _ h⟩
  · rw [exec_ldaaMem, exec_addaMem, exec_staaMem, exec_stabMem]
    refine ⟨fun h => ⟨loadA_of_read_error hea h, addA_of_read_error hea h⟩, storeAcc_of_write_error hea,
      storeAcc_of_write_error hea, fun hst => ?_⟩
    obtain ⟨-, -, -, -, -, hp, -⟩ := effectiveAddress_fields _ _ _ _ hea
    obtain ⟨r, hr⟩ := writeByte_of_not_storable ((storable_congr s s1 ea hp).trans hst)
    exact ⟨r, storeAcc_of_write_error hea (hr s.a), storeAcc_of_write_error hea (hr s.b)⟩

/-- Settles O44: the source's formulas for C, V and H are the carries and the overflow of the sum. -/
theorem addaFlagsAreCarryAndOverflow : Obligations.AddaFlagsAreCarryAndOverflow := by
  intro s m
  obtain ⟨hh, -, -, hv, hc, -⟩ := flags_after_add (s := s) (finishAddA_ccr m s 2)
  refine ⟨_, rfl, ?_, ?_, ?_⟩
  · rw [hc]; exact addCarry_iff s.a m
  · rw [hv]; exact addOverflow_iff s.a m
  · rw [hh]; exact addHalfCarry_iff s.a m

/-- Settles O51: bit 0 is what halving leaves over, and both shifts put it into C. -/
theorem shiftsHalveWithRemainder : Obligations.ShiftsHalveWithRemainder := by
  intro s
  obtain ⟨hc, -⟩ := flags_after_lsr (s := s) (t := withCcr s (lsrFlags s.ccr s.a (shiftRightLogical s.a))) rfl
  obtain ⟨hc', -⟩ := flags_after_asr (s := s) (t := withCcr s (asrFlags s.ccr s.a (shiftRightArithmetic s.a))) rfl
  refine ⟨_, _, rfl, rfl, ?_, ?_⟩
  · exact (toNat_shiftRightLogical s.a).trans (by rw [← hc]; rfl)
  · exact (toInt_shiftRightArithmetic s.a).trans (by rw [← hc']; rfl)

/-- Settles O52: each of the five names one accumulator, the CCR and PC only. -/
theorem inherentFrame : Obligations.InherentFrame := by
  intro s t
  refine ⟨fun h => ?_, fun h => ?_, fun h => ?_, fun h => ?_⟩
  · cases h
    obtain ⟨-, -, -, hk⟩ := flags_after_setNZ8_v (s := s) (t := withCcr s (incFlags s.ccr s.a (s.a + 1#8))) rfl
    exact ⟨rfl, ⟨rfl, rfl, rfl⟩, fun _ => rfl, hk, ⟨rfl, rfl, rfl⟩, rfl⟩
  · cases h
    obtain ⟨-, -, -, hk⟩ := flags_after_setNZ8_v (s := s) (t := withCcr s (decFlags s.ccr s.b (s.b - 1#8))) rfl
    exact ⟨rfl, ⟨rfl, rfl, rfl⟩, fun _ => rfl, hk, ⟨rfl, rfl, rfl⟩, rfl⟩
  · cases h
    obtain ⟨-, -, -, -, hk⟩ := flags_after_clr (s := s) (t := withCcr s (clrFlags s.ccr)) rfl
    exact ⟨rfl, ⟨rfl, rfl, rfl⟩, fun _ => rfl, hk, ⟨rfl, rfl, rfl⟩, rfl⟩
  · obtain h | h := h <;> cases h
    · obtain ⟨-, -, -, -, hk⟩ :=
        flags_after_lsr (s := s) (t := withCcr s (lsrFlags s.ccr s.a (shiftRightLogical s.a))) rfl
      exact ⟨rfl, ⟨rfl, rfl, rfl⟩, fun _ => rfl, hk, ⟨rfl, rfl, rfl⟩, rfl⟩
    · obtain ⟨-, -, -, -, hk⟩ :=
        flags_after_asr (s := s) (t := withCcr s (asrFlags s.ccr s.a (shiftRightArithmetic s.a))) rfl
      exact ⟨rfl, ⟨rfl, rfl, rfl⟩, fun _ => rfl, hk, ⟨rfl, rfl, rfl⟩, rfl⟩

end Sys2Proof.Machine

/-! # Address modes (`30_encoding.md` section 5) -/

namespace Sys2Proof.Machine

/-! ## Addresses as numbers modulo 2^16 (D4) -/

theorem toNat_add_ofInt (b : Word) (n : Int) : ((b + BitVec.ofInt 16 n).toNat : Int) = ((b.toNat : Int) + n) % 65536 := by
  rw [BitVec.toNat_add, BitVec.toNat_ofInt]
  omega

theorem toNat_zeroExtended (a : Byte) : (a.setWidth 16).toNat = a.toNat :=
  BitVec.toNat_setWidth_of_le (by decide)

theorem signExtend_eq_ofInt {w : Nat} (n : BitVec w) : n.signExtend 16 = BitVec.ofInt 16 n.toInt := rfl

/-- The base of an indexed form as a number that has not wrapped yet (R75, D16). -/
def baseNumber (s : State) (r : BaseReg) (len : Nat) : Nat :=
  match r with
  | .x => s.x.toNat
  | .y => s.y.toNat
  | .sp => s.sp.toNat
  | .pc => s.pc.toNat + len

section
variable (s : State) (r : BaseReg) (len : Nat)

theorem toNat_baseValue : (baseValue s r len).toNat = baseNumber s r len % 65536 := by
  cases r with
  | x => exact (Nat.mod_eq_of_lt s.x.isLt).symm
  | y => exact (Nat.mod_eq_of_lt s.y.isLt).symm
  | sp => exact (Nat.mod_eq_of_lt s.sp.isLt).symm
  | pc => exact toNat_nextPc s len

/-- Base plus a signed offset. -/
theorem toNat_base_add_ofInt (n : Int) :
    ((baseValue s r len + BitVec.ofInt 16 n).toNat : Int) = ((baseNumber s r len : Int) + n) % 65536 := by
  rw [toNat_add_ofInt, toNat_baseValue]
  omega

/-- Base plus an unsigned offset. -/
theorem toNat_base_add (n : Word) : (baseValue s r len + n).toNat = (baseNumber s r len + n.toNat) % 65536 := by
  rw [BitVec.toNat_add, toNat_baseValue, Nat.mod_add_mod]

theorem toNat_base_add_d :
    (baseValue s r len + s.d).toNat = (baseNumber s r len + 256 * s.a.toNat + s.b.toNat) % 65536 := by
  rw [toNat_base_add, State.d, toNat_wordOf, Nat.add_assoc]

end

theorem toNat_accOffset_a (s : State) : (accOffset s .a).toNat = s.a.toNat := toNat_zeroExtended s.a

theorem toNat_accOffset_b (s : State) : (accOffset s .b).toNat = s.b.toNat := toNat_zeroExtended s.b

/-- A base that is not PC does not move with the length (R75). -/
theorem baseValue_of_ne_pc (s : State) {r : BaseReg} (h : r ≠ .pc) (len len' : Nat) :
    baseValue s r len = baseValue s r len' := by
  cases r with
  | pc => exact absurd rfl h
  | _ => rfl

/-- The field `nnnn` counts from 1 up and from -8 up (R77). -/
theorem autoDelta_eq_ofInt :
    ∀ n : BitVec 4, autoDelta n = BitVec.ofInt 16 (if n.toNat < 8 then (n.toNat : Int) + 1 else (n.toNat : Int) - 16) := by
  decide

/-- Where the automatic form points, and what it leaves (R77). -/
theorem effectiveAddress_auto (s : State) (r : AutoReg) (w : AutoWhen) (n : BitVec 4) :
    effectiveAddress s (.idx (.auto r w n)) =
      .ok (match w with
        | .pre => autoValue s r + autoDelta n
        | .post => autoValue s r, setAuto s r (autoValue s r + autoDelta n)) := by
  cases w <;> rfl

/-! ## The tools' choice of an encoding (R93) -/

theorem chosenForm_fiveBit (r : BaseReg) {n : Int} (h : -16 ≤ n ∧ n ≤ 15) :
    chosenForm r n = .off5 r (BitVec.ofInt 5 n) := by
  rw [chosenForm, chooseOffset, if_pos h]

theorem chosenForm_nineBit (r : BaseReg) {n : Int} (h : ¬(-16 ≤ n ∧ n ≤ 15)) (h' : -256 ≤ n ∧ n ≤ 255) :
    chosenForm r n = .off9 r (BitVec.ofInt 9 n) := by
  rw [chosenForm, chooseOffset, if_neg h, if_pos h']

theorem chosenForm_sixteenBit (r : BaseReg) {n : Int} (h : ¬(-16 ≤ n ∧ n ≤ 15)) (h' : ¬(-256 ≤ n ∧ n ≤ 255)) :
    chosenForm r n = .off16 r (BitVec.ofInt 16 n) := by
  rw [chosenForm, chooseOffset, if_neg h, if_neg h']

/-! ## The statements -/

/-- Settles O53: DIR's high-order byte is `$00`, and the decoder puts `hh` above `ll`. -/
theorem directAndExtendedAddress : Obligations.DirectAndExtendedAddress :=
  ⟨fun _ d => ⟨d.setWidth 16, rfl, toNat_zeroExtended d⟩,
    fun _ hh ll => ⟨_, rfl, wordOf hh ll, rfl, rfl, toNat_wordOf hh ll⟩⟩

/-- Settles O54: a signed offset is its value in 16 bits. -/
theorem constantOffsetAddress : Obligations.ConstantOffsetAddress := by
  intro s r n5 n9 n16 base
  have hbase (len : Nat) : base len = baseNumber s r len := by cases r <;> rfl
  simp only [hbase]
  exact ⟨_, _, _, rfl, toNat_base_add_ofInt s r 2 n5.toInt, rfl, toNat_base_add_ofInt s r 3 n9.toInt, rfl,
    (congrArg Nat.cast (toNat_base_add s r 4 n16)).trans (Int.natCast_mod ..)⟩

/-- Settles O55: the register takes the adjusted value, and `w` says which of the two values is the address. -/
theorem automaticFormAdjustsRegister : Obligations.AutomaticFormAdjustsRegister := by
  intro s r w n
  refine ⟨_, _, effectiveAddress_auto s r w n, ?_, ?_, ?_, fun q hq => autoValue_setAuto_other s r q _ hq, setAuto_eq ..⟩
  · rw [autoValue_setAuto_same, autoDelta_eq_ofInt, toNat_add_ofInt]
  · rintro rfl; exact (autoValue_setAuto_same ..).symm
  · rintro rfl; rfl

/-- Settles O56: A and B are unsigned offsets, and D is the word A:B. -/
theorem accumulatorOffsetAddress : Obligations.AccumulatorOffsetAddress := by
  intro s r base
  have hbase : base = baseNumber s r 2 := by cases r <;> rfl
  rw [hbase]
  refine ⟨_, _, _, rfl, ?_, rfl, ?_, rfl, toNat_base_add_d s r 2⟩
  · exact (toNat_base_add s r 2 _).trans (by rw [toNat_accOffset_a])
  · exact (toNat_base_add s r 2 _).trans (by rw [toNat_accOffset_b])

/-- Settles O57: the address mode is the word read at `p`, and that read adds its entries and nothing else. -/
theorem indirectAddressIsPointer : Obligations.IndirectAddressIsPointer := by
  intro s r n p e base
  have hbase (len : Nat) : base len = baseNumber s r len := by cases r <;> rfl
  have noted (ea : Word) (w : State) (h : readWord s p = .ok (ea, w)) :
      w = { s with io := wordReadEvents s.platform p ++ s.io } := by
    obtain ⟨_, _, -, -, -, hw⟩ := (readWord_eq_ok ..).mp h
    exact hw
  refine ⟨fun hp => ?_, fun hp => ?_⟩
  · rw [hbase, ← toNat_base_add_d, BitVec.toNat_inj] at hp
    have hread : effectiveAddress s (.idx (.indD r)) = readWord s p := congrArg (readWord s) hp.symm
    exact ⟨fun ea w h => ⟨hread.trans h, noted ea w h⟩, fun h => hread.trans h⟩
  · rw [hbase, ← toNat_base_add, BitVec.toNat_inj] at hp
    have hread : effectiveAddress s (.idx (.ind16 r n)) = readWord s p := congrArg (readWord s) hp.symm
    exact ⟨fun ea w h => ⟨hread.trans h, noted ea w h⟩, fun h => hread.trans h⟩

/-- Settles O58: sign extension keeps the offset's value, and the base is the same at every length. -/
theorem offsetEncodingsAgree : Obligations.OffsetEncodingsAgree := by
  intro s r n hr
  have hext : (n.signExtend 9).signExtend 16 = n.signExtend 16 := by
    rw [signExtend_eq_ofInt, BitVec.toInt_signExtend_of_le (by decide), ← signExtend_eq_ofInt]
  have hsame (len : Nat) : (.ok (baseValue s r len + n.signExtend 16, s) : Except Refusal (Word × State)) =
      .ok (baseValue s r 2 + n.signExtend 16, s) := by rw [baseValue_of_ne_pc s hr len 2]
  refine ⟨Eq.trans ?_ (hsame 3), hsame 4⟩
  rw [← hext]
  rfl

/-- Settles O59: each range of offsets is the range of the values of its field. -/
theorem assemblerChoiceReachesOperand : Obligations.AssemblerChoiceReachesOperand := by
  refine ⟨fun s a => ?_, ?_⟩
  · unfold chosenAddress
    split
    · next h =>
      have ha : (a.setWidth 8).setWidth 16 = a := by
        apply BitVec.eq_of_toNat_eq
        rw [toNat_zeroExtended, BitVec.toNat_setWidth, Nat.mod_eq_of_lt h]
      exact congrArg (fun ea => Except.ok (ea, s)) ha
    · rfl
  · intro s r n _ _ base
    by_cases h5 : -16 ≤ n ∧ n ≤ 15
    · have hbase : base = baseNumber s r 2 := by cases r <;> simp [base, baseNumber, h5]
      have hn : (BitVec.ofInt 5 n).toInt = n := BitVec.toInt_ofInt_eq_self (by decide) (by omega) (by omega)
      rw [hbase, chosenForm_fiveBit r h5]
      exact ⟨_, rfl, (toNat_base_add_ofInt s r 2 _).trans (by rw [hn])⟩
    · by_cases h9 : -256 ≤ n ∧ n ≤ 255
      · have hbase : base = baseNumber s r 3 := by cases r <;> simp [base, baseNumber, h5, h9]
        have hn : (BitVec.ofInt 9 n).toInt = n := BitVec.toInt_ofInt_eq_self (by decide) (by omega) (by omega)
        rw [hbase, chosenForm_nineBit r h5 h9]
        exact ⟨_, rfl, (toNat_base_add_ofInt s r 3 _).trans (by rw [hn])⟩
      · have hbase : base = baseNumber s r 4 := by cases r <;> simp [base, baseNumber, h5, h9]
        rw [hbase, chosenForm_sixteenBit r h5 h9]
        exact ⟨_, rfl, toNat_base_add_ofInt s r 4 n⟩

end Sys2Proof.Machine
